-- ==== Sys2Proof/Word.lean ====
section
/-!
DEFINITION. The word types of the block (spec/00_scope.md R10 to R14, R9): names for the bit widths the spec
gives. Everything is an `abbrev`, so every `BitVec` lemma applies.
-/

namespace Sys2Proof

/-- A byte of a stream, and the width of OPCODE, ARG, a field code and a section tag (R14, R51, R61). -/
abbrev Byte := BitVec 8

/-- A pixel sample, unsigned 16 bits (R9). -/
abbrev Pixel := BitVec 16

/-- A command word, a control register or a 32-bit data operand (R22, R51, R54). -/
abbrev Word := BitVec 32

/-- A 64-bit quantity: a `PACK` value read as two's complement (`toInt`, R54), or an unsigned 64-bit field
value or timestamp (R81). -/
abbrev DoubleWord := BitVec 64

end Sys2Proof
end

