-- ==== Sys2Proof/Syntax.lean ====
section
/-!
DEFINITION. The thirteen commands (spec/30_encoding.md R52), one constructor per row of the opcode table. Each
carries the ARG byte of its command word (R53), legal or not: an illegal ARG is a check the command itself makes
(spec/60_exceptions.md R115), after the check of its operand's kind. The operand is not part of the word and is
read from the state (R54).
-/

namespace Sys2Proof

/-- A command, as its word gives it. -/
inductive Instr where
  | pack (arg : Byte)
  | unpack (arg : Byte)
  | fieldEnc (arg : Byte)
  | fieldDec (arg : Byte)
  | sectionEnc (arg : Byte)
  | sectionDec (arg : Byte)
  | compress (arg : Byte)
  | clrEnc (arg : Byte)
  | reconstruct (arg : Byte)
  | clrDec (arg : Byte)
  | csrRead (arg : Byte)
  | csrWrite (arg : Byte)
  | softReset (arg : Byte)
  deriving DecidableEq, Repr

end Sys2Proof
end

