-- ==== Sys2Proof/WellFormed.lean ====
section
/-!
DEFINITION. Which ARG values are legal for which command (spec/30_encoding.md R53). A command whose ARG is not
legal still decodes and executes: it faults with E_WIDTH or E_BAD_ARG, as its rule says.
-/

namespace Sys2Proof

/-- R67: a packing width is legal when it is 1 to 32. -/
def legalWidth (w : Byte) : Bool := decide (1 ≤ w.toNat) && decide (w.toNat ≤ 32)

/-- R53: the section tag `'H'`, HEADER. -/
def tagHeader : Byte := 0x48#8

/-- R53: the section tag `'F'`, FRAME. -/
def tagFrame : Byte := 0x46#8

/-- R53: a section tag is `'H'` or `'F'`. -/
def legalTag (t : Byte) : Bool := t == tagHeader || t == tagFrame

/-- R23, R109: the CSR numbers 0x00 to 0x03 can be read. -/
def readableCsr (n : Byte) : Bool := decide (n.toNat ≤ 3)

/-- R23, R110: the CSR numbers 0x00 to 0x02 can be written. -/
def writableCsr (n : Byte) : Bool := decide (n.toNat ≤ 2)

/-- R53: where ARG must be 0. -/
def zeroArg (a : Byte) : Bool := a == 0#8

/-- R53: the ARG of the command is one of its legal values. -/
def Instr.wellFormed : Instr → Bool
  | .pack w => legalWidth w
  | .unpack w => legalWidth w
  | .fieldEnc _ => true
  | .fieldDec a => zeroArg a
  | .sectionEnc t => legalTag t
  | .sectionDec t => legalTag t
  | .compress a => zeroArg a
  | .clrEnc a => zeroArg a
  | .reconstruct w => legalWidth w
  | .clrDec a => zeroArg a
  | .csrRead n => readableCsr n
  | .csrWrite n => writableCsr n
  | .softReset a => zeroArg a

end Sys2Proof
end

