-- ==== Sys2Proof/Decode.lean ====
section
/-!
DEFINITION. Decoding a command word (spec/30_encoding.md R51, R52, R56, R57) and, after it, encoding one. The
decoder is total on every 32-bit word and rejects by name; OPCODE is read first, RSVD after it (R57, R115).
-/

namespace Sys2Proof

/-- Why a command word is no command. -/
inductive DecodeError where
  /-- OPCODE is 0x00 or 0x0E to 0xFF (R56). -/
  | illegalOpcode
  /-- OPCODE is legal and bits 31:16 are not 0 (R57). -/
  | reservedBits
  deriving DecidableEq, Repr

/-- R51: bits 7:0 of the word. -/
def Word.opcode (w : Word) : Byte := w.extractLsb' 0 8

/-- R51: bits 15:8 of the word. -/
def Word.arg (w : Word) : Byte := w.extractLsb' 8 8

/-- R51: bits 31:16 of the word. -/
def Word.rsvd (w : Word) : BitVec 16 := w.extractLsb' 16 16

/-- R52: the command an OPCODE selects, given ARG; none for an illegal OPCODE (R56). -/
def commandOf (opcode arg : Byte) : Option Instr :=
  match opcode.toNat with
  | 0x01 => some (.pack arg)
  | 0x02 => some (.unpack arg)
  | 0x03 => some (.fieldEnc arg)
  | 0x04 => some (.fieldDec arg)
  | 0x05 => some (.sectionEnc arg)
  | 0x06 => some (.sectionDec arg)
  | 0x07 => some (.compress arg)
  | 0x08 => some (.clrEnc arg)
  | 0x09 => some (.reconstruct arg)
  | 0x0A => some (.clrDec arg)
  | 0x0B => some (.csrRead arg)
  | 0x0C => some (.csrWrite arg)
  | 0x0D => some (.softReset arg)
  | _ => none

/-- R51, R56, R57: the command of a word, or why there is none. -/
def decode (w : Word) : Except DecodeError Instr :=
  match commandOf (Word.opcode w) (Word.arg w) with
  | none => .error .illegalOpcode
  | some i => if Word.rsvd w = 0#16 then .ok i else .error .reservedBits

/-- R52: the OPCODE of a command. -/
def Instr.opcode : Instr → Byte
  | .pack _ => 0x01#8
  | .unpack _ => 0x02#8
  | .fieldEnc _ => 0x03#8
  | .fieldDec _ => 0x04#8
  | .sectionEnc _ => 0x05#8
  | .sectionDec _ => 0x06#8
  | .compress _ => 0x07#8
  | .clrEnc _ => 0x08#8
  | .reconstruct _ => 0x09#8
  | .clrDec _ => 0x0A#8
  | .csrRead _ => 0x0B#8
  | .csrWrite _ => 0x0C#8
  | .softReset _ => 0x0D#8

/-- The ARG byte of a command. -/
def Instr.arg : Instr → Byte
  | .pack a => a
  | .unpack a => a
  | .fieldEnc a => a
  | .fieldDec a => a
  | .sectionEnc a => a
  | .sectionDec a => a
  | .compress a => a
  | .clrEnc a => a
  | .reconstruct a => a
  | .clrDec a => a
  | .csrRead a => a
  | .csrWrite a => a
  | .softReset a => a

/-- R51, R65: the word with the given RSVD, ARG and OPCODE fields. -/
def wordOf (rsvd : BitVec 16) (arg opcode : Byte) : Word := rsvd ++ arg ++ opcode

/-- R65: the command word of a command, `ARG << 8 | OPCODE` with RSVD = 0. -/
def encode (i : Instr) : Word := wordOf 0#16 i.arg i.opcode

/-- The word the opcode table's numbering gives: every command is one 32-bit word, so bit 0 of `w` is bit 0 of
the command word, and bits at `nbits` and above are 0. -/
def tableWord (nbits w : Nat) : Word := BitVec.ofNat 32 (w % 2 ^ nbits)

/-- The command the decoder reads from a row of the opcode table. -/
def decodeTableWord (nbits w : Nat) : Option Instr :=
  match decode (tableWord nbits w) with
  | .ok i => some i
  | .error _ => none

end Sys2Proof
end

