-- ==== Sys2Proof/Config.lean ====
section
/-!
DEFINITION. What an instance of the block fixes (spec/00_scope.md R8). The OPEN parameters are opaque
constants: no proof can see a value of them. The parameters are carried in `State`, so a statement about every
state is a statement about every instance.
-/

namespace Sys2Proof

/-- `RECON_OVERFLOW` (R8, R105, D13): what `RECONSTRUCT` does with a pixel outside 0 to 65535. -/
inductive ReconOverflow where
  | fault
  | wrap
  deriving DecidableEq, Repr

/-- `STRING_CHECK` (R8, R84, D20): whether decoded strings are checked as UTF-8. -/
inductive StringCheck where
  | unchecked
  | utf8
  deriving DecidableEq, Repr

/-- The instance parameters that no register shows. `MAX_PIXELS` is not here: its home is the register CAP. -/
structure Params where
  /-- `RECON_OVERFLOW` -/
  reconOverflow : ReconOverflow
  /-- `TS_MAX_US`, the largest microsecond count the host's timestamp type holds -/
  tsMaxUs : Nat
  /-- `STRING_CHECK` -/
  stringCheck : StringCheck
  deriving DecidableEq, Repr

namespace Config

/-- `SCRATCH_BITS` (R8, R30, D10). -/
abbrev scratchBits : Nat := 40

/-- The floor of `MAX_PIXELS`: 120 rows of 160 columns (R8, D9, C4). -/
abbrev maxPixelsFloor : Nat := 19200

/-- How far `MAX_PIXELS` of the instance at reset lies above its floor. OPEN (R8, D9): an opaque constant, so
all that is known of `MAX_PIXELS` is that it is at least 19200 and below 2^32 (R26). Log entry 4. -/
opaque pixelsAboveFloor : Fin 4294948096

/-- `MAX_PIXELS` of the instance at reset, as CAP holds it (R26). -/
def maxPixels : Word :=
  BitVec.ofNatLT (pixelsAboveFloor.val + maxPixelsFloor)
    (Nat.add_lt_add_right pixelsAboveFloor.isLt maxPixelsFloor)

/-- `TS_MAX_US` of the instance at reset. OPEN (R8, D18): an opaque constant. Log entry 5. -/
opaque tsMaxUs : Nat

/-- The other parameters of the instance at reset: the spec defaults of R8 where it gives one. Log entry 6. -/
def params : Params :=
  { reconOverflow := .fault, tsMaxUs := tsMaxUs, stringCheck := .unchecked }

end Config

end Sys2Proof
end

