-- ==== Sys2Proof/Machine/State.lean ====
section
/-!
DEFINITION. The state of the block as plain data (spec/10_state.md R18), the operands and result records of a
command (spec/30_encoding.md R54, R55), and the state after reset (R34).
-/

namespace Sys2Proof.Machine

/-- The raw types of a field value (R77). -/
inductive RawType where
  /-- OPAQUE, number 0 -/
  | blob
  /-- U8, number 1 -/
  | u8
  /-- U32, number 2 -/
  | u32
  /-- U64, number 3 -/
  | u64
  /-- F32, number 4 -/
  | f32
  /-- STR, number 5 -/
  | str
  /-- TS, number 6 -/
  | ts
  deriving DecidableEq, Repr

/-- A field value, the tagged union of R81. -/
inductive FieldValue where
  | u8 (n : Byte)
  | u32 (n : Word)
  | u64 (n : DoubleWord)
  /-- a 32-bit float bit pattern, moved unchanged (R83) -/
  | f32 (bits : Word)
  | str (s : List Byte)
  /-- microseconds since the Unix epoch, unsigned (R85) -/
  | ts (us : DoubleWord)
  /-- OPAQUE -/
  | blob (s : List Byte)
  deriving DecidableEq, Repr

/-- A decoded field, the triple of R81. -/
structure DecodedField where
  code : Byte
  rawType : RawType
  value : FieldValue
  deriving DecidableEq, Repr

/-- The operand kinds of R54. A `PACK` value is a 64-bit pattern read as two's complement, so it is one of
`-2^63 .. 2^63-1` (log entry 7). -/
inductive Operand where
  | noOperand
  | values (vs : List DoubleWord)
  | countBytes (count : Word) (input : List Byte)
  | value (v : FieldValue)
  | bytes (input : List Byte)
  | fields (fs : List (Byte × FieldValue))
  | pixels (ps : List Pixel)
  | data (d : Word)
  deriving DecidableEq, Repr

/-- A command: its word and its operand (R51, R54). -/
structure Command where
  word : Word
  operand : Operand
  deriving DecidableEq, Repr

/-- What the host does to the block: present a command, or drive the reset input, which may arrive while a
command is in progress (R124, R132). -/
inductive HostInput where
  | command (c : Command)
  | reset (inProgress : Option Command)
  deriving DecidableEq, Repr

/-- The fault codes of R112, in its order. -/
inductive FaultCode where
  /-- E_ILLEGAL_OP -/
  | illegalOp
  /-- E_RESERVED -/
  | reserved
  /-- E_BAD_ARG -/
  | badArg
  /-- E_OPERAND -/
  | operand
  /-- E_WIDTH -/
  | width
  /-- E_PACK_RANGE -/
  | packRange
  /-- E_TRUNCATED -/
  | truncated
  /-- E_CONFIG -/
  | config
  /-- E_DIMENSION -/
  | dimension
  /-- E_PAYLOAD_LENGTH -/
  | payloadLength
  /-- E_PIXEL_RANGE -/
  | pixelRange
  /-- E_FIELD_LENGTH -/
  | fieldLength
  /-- E_FIELD_TOO_LONG -/
  | fieldTooLong
  /-- E_TYPE_MISMATCH -/
  | typeMismatch
  /-- E_FIELD_COUNT -/
  | fieldCount
  /-- E_DUP_FIELD -/
  | dupField
  /-- E_SECTION_TYPE -/
  | sectionType
  /-- E_STRING -/
  | string
  deriving DecidableEq, Repr

/-- The outputs of a command that completed, per R52. -/
inductive Outputs where
  /-- `CLR_ENC`, `CLR_DEC`, `CSR_WRITE`, `SOFT_RESET` -/
  | nothing
  /-- `OUT` of `PACK`, `FIELD_ENC`, `SECTION_ENC` -/
  | out (bytes : List Byte)
  /-- `values`, `consumed` of `UNPACK` -/
  | values (vs : List Int) (consumed : Nat)
  /-- `field`, `consumed` of `FIELD_DEC` -/
  | field (f : DecodedField) (consumed : Nat)
  /-- `tag`, `fields`, `consumed` of `SECTION_DEC` -/
  | fields (tag : Byte) (fs : List DecodedField) (consumed : Nat)
  /-- `bit_width`, `OUT`, `frame_size` of `COMPRESS` -/
  | compressed (bitWidth : Nat) (out : List Byte) (frameSize : Nat)
  /-- `pixels` of `RECONSTRUCT`, row-major -/
  | pixels (ps : List Pixel)
  /-- `data` of `CSR_READ` -/
  | data (d : Word)
  deriving DecidableEq, Repr

/-- The result record of a command (R55). -/
inductive Result where
  /-- OK: the command completed and its effects are committed -/
  | ok (o : Outputs)
  /-- END: `SECTION_DEC` found its input empty; no outputs, `consumed = 0` -/
  | endOfStream
  /-- FAULT(code) -/
  | fault (e : FaultCode)
  /-- REJECTED: the block was already faulted -/
  | rejected
  deriving DecidableEq, Repr

/-- A frame buffer (R27, R28): an array of `MAX_PIXELS` pixels as (index, pixel) pairs, indices strictly rising
and no pixel 0; an index that is not listed holds 0 (log entry 13). -/
abbrev FrameBuffer := List (Nat × Pixel)

/-- Why the machine stops with a fault: never. Every fault of the block (R112) is a next state with STATUS
written (R116), so no step stops and the type has no constructor (safe: there is nothing to raise). -/
inductive Fault where
  deriving DecidableEq, Repr

/-- Why the model gives a command no meaning. -/
inductive Refusal where
  /-- Raised by `exec` alone, for a command whose meaning is not written; no arm of this model raises it (safe). -/
  | notModelled (mnemonic : String)
  deriving DecidableEq, Repr

/-- The state: the architectural state of R18, the parameters of the instance (R8), and the host interface. -/
structure State where
  /-- STATUS, CSR 0x00 (R22) -/
  status : Word
  /-- ROWS, CSR 0x01 (R24) -/
  rows : Word
  /-- COLS, CSR 0x02 (R25) -/
  cols : Word
  /-- CAP, CSR 0x03, which is `MAX_PIXELS` (R26) -/
  cap : Word
  /-- ENC_PREV (R27) -/
  encPrev : FrameBuffer
  /-- DEC_PREV (R28) -/
  decPrev : FrameBuffer
  /-- the parameters of the instance (R8); nothing writes them -/
  params : Params
  /-- what the host has presented and the block has not taken yet, oldest first (R124; log entry 1) -/
  inputs : List HostInput
  /-- the operand of the command executing (R20, R54; log entry 1) -/
  operand : Operand
  /-- the result record of the last command, none before the first (R20, R55; log entry 1) -/
  result : Option Result
  deriving DecidableEq, Repr

/-- The state of an instance right after reset (R34, R132), for any `MAX_PIXELS` and other parameters. -/
def State.resetOf (cap : Word) (params : Params) : State :=
  { status := 0x00000000#32
    rows := 0#32
    cols := 0#32
    cap := cap
    encPrev := []
    decPrev := []
    params := params
    inputs := []
    operand := .noOperand
    result := none }

/-- The machine right after reset (R34), with the parameters of `Config`. -/
def State.reset : State := State.resetOf Config.maxPixels Config.params

end Sys2Proof.Machine
end

