-- ==== Sys2Proof/Machine/Flags.lean ====
section
/-!
DEFINITION. The register STATUS and its fields (spec/10_state.md R22), and the numbers of the fault codes
(spec/60_exceptions.md R112) and raw types (spec/41_tagged_fields.md R77).
-/

namespace Sys2Proof.Machine

/-- R112: the number FAULT_CODE takes. -/
def FaultCode.number : FaultCode → Byte
  | .illegalOp => 0x01#8
  | .reserved => 0x02#8
  | .badArg => 0x03#8
  | .operand => 0x04#8
  | .width => 0x05#8
  | .packRange => 0x06#8
  | .truncated => 0x07#8
  | .config => 0x08#8
  | .dimension => 0x09#8
  | .payloadLength => 0x0A#8
  | .pixelRange => 0x0B#8
  | .fieldLength => 0x0C#8
  | .fieldTooLong => 0x0D#8
  | .typeMismatch => 0x0E#8
  | .fieldCount => 0x0F#8
  | .dupField => 0x10#8
  | .sectionType => 0x11#8
  | .string => 0x12#8

/-- R77, D36: the number of a raw type in a result record. -/
def RawType.number : RawType → Nat
  | .blob => 0
  | .u8 => 1
  | .u32 => 2
  | .u64 => 3
  | .f32 => 4
  | .str => 5
  | .ts => 6

/-- STATUS.FAULTED, bit 0. -/
def Status.faulted (st : Word) : Bool := st.getLsbD 0

/-- STATUS.TSOVF, bit 1. -/
def Status.tsovf (st : Word) : Bool := st.getLsbD 1

/-- STATUS.FAULT_CODE, bits 15:8. -/
def Status.faultCode (st : Word) : Byte := st.extractLsb' 8 8

/-- The reserved bits of STATUS, 7:2 and 31:16. -/
def Status.reserved (st : Word) : Word := st &&& 0xFFFF00FC#32

/-- R116: FAULTED <- 1 and FAULT_CODE <- the code; the other bits stay. -/
def Status.setFault (st : Word) (e : FaultCode) : Word :=
  (st &&& 0xFFFF00FE#32) ||| 0x00000001#32 ||| (e.number.setWidth 32 <<< 8)

/-- R85, R89: TSOVF <- 1; the other bits stay. -/
def Status.setTsovf (st : Word) : Word := st ||| 0x00000002#32

/-- R110: TSOVF <- 0; the other bits stay. -/
def Status.clearTsovf (st : Word) : Word := st &&& 0xFFFFFFFD#32

/-- R109: what a read of STATUS returns, `FAULTED | TSOVF << 1 | FAULT_CODE << 8`; reserved bits read as 0. -/
def Status.read (st : Word) : Word :=
  (BitVec.ofBool (Status.faulted st)).setWidth 32
    ||| ((BitVec.ofBool (Status.tsovf st)).setWidth 32 <<< 1)
    ||| ((Status.faultCode st).setWidth 32 <<< 8)

/-- STATUS.FAULTED of a state. -/
def State.faulted (s : State) : Bool := Status.faulted s.status

/-- STATUS.TSOVF of a state. -/
def State.tsovf (s : State) : Bool := Status.tsovf s.status

/-- STATUS.FAULT_CODE of a state. -/
def State.faultCode (s : State) : Byte := Status.faultCode s.status

end Sys2Proof.Machine
end

