-- ==== Sys2Proof/Machine/Operands.lean ====
section
/-!
DEFINITION. The operand kinds of the commands (spec/30_encoding.md R54): for each kind, the operand's contents
when it is of that kind and none when it is of another, which faults with E_OPERAND.
-/

namespace Sys2Proof.Machine

/-- `values` (`PACK`): the integers. -/
def Operand.values? : Operand → Option (List Int)
  | .values vs => some (vs.map BitVec.toInt)
  | _ => none

/-- `count, IN` (`UNPACK`). -/
def Operand.countBytes? : Operand → Option (Nat × List Byte)
  | .countBytes n input => some (n.toNat, input)
  | _ => none

/-- `value` (`FIELD_ENC`). -/
def Operand.value? : Operand → Option FieldValue
  | .value v => some v
  | _ => none

/-- `IN` (`FIELD_DEC`, `SECTION_DEC`, `RECONSTRUCT`). -/
def Operand.bytes? : Operand → Option (List Byte)
  | .bytes input => some input
  | _ => none

/-- `fields` (`SECTION_ENC`). -/
def Operand.fields? : Operand → Option (List (Byte × FieldValue))
  | .fields fs => some fs
  | _ => none

/-- `pixels` (`COMPRESS`). -/
def Operand.pixels? : Operand → Option (List Pixel)
  | .pixels ps => some ps
  | _ => none

/-- `data` (`CSR_WRITE`). -/
def Operand.data? : Operand → Option Word
  | .data d => some d
  | _ => none

/-- No operand (`CLR_ENC`, `CLR_DEC`, `CSR_READ`, `SOFT_RESET`). -/
def Operand.absent? : Operand → Option Unit
  | .noOperand => some ()
  | _ => none

end Sys2Proof.Machine
end

