-- ==== Sys2Proof/Machine/Ops.lean ====
section
/-!
DEFINITION. The named operations the commands share: numbers and byte sequences (spec/00_scope.md R10 to R15),
the frame buffers (spec/10_state.md R27, R28), the configuration (R31), fault entry and the common checks
(spec/60_exceptions.md R115 to R117), and reset (spec/70_reset_and_hazards.md R132).
-/

namespace Sys2Proof.Machine

/-! ## Numbers and byte sequences -/

/-- R10: `(a + b - 1) div b`. -/
def ceilDiv (a b : Nat) : Nat := (a + b - 1) / b

/-- R13: the least `b` with `m < 2^b`. -/
def bitLength (m : Nat) : Nat := if m = 0 then 0 else Nat.log2 m + 1

/-- R14: `le_n(v)`, the `n`-byte little-endian sequence of `v`. -/
def leBytes : Nat → Nat → List Byte
  | 0, _ => []
  | n + 1, v => BitVec.ofNat 8 v :: leBytes n (v / 256)

/-- R14: `from_le(s)`. -/
def fromLe : List Byte → Nat
  | [] => 0
  | b :: s => b.toNat + 256 * fromLe s

/-- R15: `MemRead(addr, n)` of the input `IN`; a byte beyond its end raises E_TRUNCATED (R43). -/
def memRead (input : List Byte) (addr n : Nat) : Except FaultCode (List Byte) :=
  if addr + n ≤ input.length then .ok ((input.drop addr).take n) else .error .truncated

/-- R15: `MemRead(addr, 1)` as the byte it reads. -/
def memReadByte (input : List Byte) (addr : Nat) : Except FaultCode Byte :=
  match input[addr]? with
  | some b => .ok b
  | none => .error .truncated

/-! ## Frame buffers -/

/-- Element `i` of a frame buffer. -/
def FrameBuffer.load (b : FrameBuffer) (i : Nat) : Pixel := (b.lookup i).getD 0#16

/-- The (index, pixel) pairs of a pixel sequence that are not 0, the first pixel having index `i`. -/
def FrameBuffer.entries : Nat → List Pixel → FrameBuffer
  | _, [] => []
  | i, p :: ps => if p = 0#16 then entries (i + 1) ps else (i, p) :: entries (i + 1) ps

/-- R102, R106: element `j` <- pixel `j` for every `j` below the number of pixels; the other elements stay. -/
def FrameBuffer.storeFrame (b : FrameBuffer) (ps : List Pixel) : FrameBuffer :=
  FrameBuffer.entries 0 ps ++ b.filter (fun e => decide (ps.length ≤ e.1))

/-- R103, R107, R110, R111: every element <- 0. -/
def FrameBuffer.clear (_ : FrameBuffer) : FrameBuffer := []

/-- The canonical form: indices strictly rising and below `limit`, no pixel 0. -/
def FrameBuffer.wf (limit : Nat) (b : FrameBuffer) : Bool :=
  decide (b.Pairwise (fun x y => x.1 < y.1)) && b.all (fun e => decide (e.1 < limit) && !(e.2 == 0#16))

/-! ## Configuration -/

/-- `MAX_PIXELS`, which CAP holds (R26). -/
def State.maxPixels (s : State) : Nat := s.cap.toNat

/-- R27, R31: `N = ROWS*COLS`, on integers. -/
def State.pixelCount (s : State) : Nat := s.rows.toNat * s.cols.toNat

/-- R31: `cfg_ok`. -/
def State.cfgOk (s : State) : Bool :=
  decide (1 ≤ s.rows.toNat) && decide (1 ≤ s.cols.toNat) && decide (2 ≤ s.pixelCount)
    && decide (s.pixelCount ≤ s.maxPixels)

/-! ## Ending a command -/

/-- R55: the command completed with the given outputs. -/
def State.complete (s : State) (o : Outputs) : State := { s with result := some (.ok o) }

/-- R55, R91: status END. -/
def State.endOfStream (s : State) : State := { s with result := some .endOfStream }

/-- R117: the command is REJECTED and changes nothing. -/
def State.rejected (s : State) : State := { s with result := some .rejected }

/-- R116: fault entry with code `e`. STATUS.FAULTED <- 1, STATUS.FAULT_CODE <- `e`, the result is FAULT(e), and
nothing else changes. The block saves no return state and branches to no handler; what leaves the faulted state
is `State.softReset` and the reset input (R118). -/
def State.faultEntry (s : State) (e : FaultCode) : State :=
  { s with status := Status.setFault s.status e, result := some (.fault e) }

/-- R87, R89, R91: TSOVF <- 1 when the overflow bit is set, else TSOVF stays. -/
def State.noteOverflow (s : State) (ovf : Bool) : State :=
  if ovf then { s with status := Status.setTsovf s.status } else s

/-- R32, R110, R111: every element of ENC_PREV and DEC_PREV <- 0. -/
def State.clearBuffers (s : State) : State :=
  { s with encPrev := FrameBuffer.clear s.encPrev, decPrev := FrameBuffer.clear s.decPrev }

/-- R111: STATUS <- 0 and both buffers <- 0; ROWS and COLS keep their values. -/
def State.softReset (s : State) : State := { s.clearBuffers with status := 0x00000000#32 }

/-- R132: the reset input. Every piece of the block's state at its reset value; the parameters and what the host
has still to present are not the block's to change. A command in progress has no result. -/
def State.hardReset (s : State) : State :=
  { State.resetOf s.cap s.params with inputs := s.inputs }

/-- R115: the common checks every command passes before its own, and what its own checks decide.
`whileFaulted` says whether the command, with its ARG, is one the block accepts while faulted (R117, which also
asks for the right operand kind); `operand` is the operand when it is of the command's kind; `body` makes the
command's own checks and answers its state, or the fault the first failing check raises. -/
def command {α : Type} (s : State) (whileFaulted : Bool) (operand : Option α)
    (body : α → Except FaultCode State) : Host.Outcome State Fault Refusal :=
  match s.faulted && !(whileFaulted && operand.isSome), operand with
  | true, _ => .next s.rejected
  | false, none => .next (s.faultEntry .operand)
  | false, some a =>
    match body a with
    | .ok t => .next t
    | .error e => .next (s.faultEntry e)

/-- R56, R57: the fault of a word that is no command. -/
def faultOfDecodeError : DecodeError → FaultCode
  | .illegalOpcode => .illegalOp
  | .reservedBits => .reserved

/-- R115 steps 1 to 3, for a word that is no command: REJECTED while faulted, else E_ILLEGAL_OP or E_RESERVED. -/
def State.badWord (s : State) (e : DecodeError) : State :=
  if s.faulted then s.rejected else s.faultEntry (faultOfDecodeError e)

/-! ## The host's side -/

/-- R124: the block takes the next command the host presented; its operand is the operand executing. -/
def State.take (s : State) (c : Command) (rest : List HostInput) : State :=
  { s with inputs := rest, operand := c.operand }

/-- R124: the host presents a command, which the block takes before anything presented earlier but not taken. -/
def State.present (s : State) (c : Command) : State := { s with inputs := .command c :: s.inputs }

end Sys2Proof.Machine
end

