-- ==== Sys2Proof/Machine/BitPacking.lean ====
section
/-!
DEFINITION. The bit packer and the bit unpacker (spec/40_bit_packing.md): the algorithms of R70 and R72 over the
40-bit scratch register, and the commands `PACK` (R74) and `UNPACK` (R75).
-/

namespace Sys2Proof.Machine

/-- R30: the scratch register ACC and the held count HELD, which live inside one command. -/
structure Scratch where
  acc : BitVec Config.scratchBits
  held : Nat
  deriving DecidableEq, Repr

/-- R70, R72: ACC <- 0, HELD <- 0. -/
def Scratch.empty : Scratch := ⟨0#40, 0⟩

/-- ACC[39:32]. -/
def Scratch.topByte (x : Scratch) : Byte := x.acc.extractLsb' 32 8

/-! ## Packing -/

/-- R68: `v mod 2^w`, as a field of the scratch register's width. -/
def packField (w : Nat) (v : Int) : BitVec Config.scratchBits := (BitVec.ofInt w v).setWidth Config.scratchBits

/-- R70: OR the value's field in at the first free bit and advance HELD by `w`. -/
def Scratch.add (x : Scratch) (w : Nat) (v : Int) : Scratch :=
  ⟨x.acc ||| (packField w v <<< (Config.scratchBits - x.held - w)), x.held + w⟩

/-- R70, one turn of `while HELD >= 8`: ACC <- ACC << 8, HELD <- HELD - 8. -/
def Scratch.dropByte (x : Scratch) : Scratch := ⟨x.acc <<< 8, x.held - 8⟩

/-- R70, the loop `while HELD >= 8`, which turns `HELD div 8` times: the bytes emitted and what is left held. -/
def Scratch.emit : Nat → Scratch → List Byte × Scratch
  | 0, x => ([], x)
  | n + 1, x =>
    let (bs, y) := Scratch.emit n x.dropByte
    (x.topByte :: bs, y)

/-- R70, the loop over the values and the last, zero-padded byte. -/
def packLoop (w : Nat) : Scratch → List Int → List Byte
  | x, [] => if 0 < x.held then [x.topByte] else []
  | x, v :: vs =>
    let y := x.add w v
    let (bs, z) := Scratch.emit (y.held / 8) y
    bs ++ packLoop w z vs

/-- R70: `pack(vs, w)`. -/
def pack (w : Nat) (vs : List Int) : List Byte := packLoop w Scratch.empty vs

/-- R68: the values the packing map is defined for. -/
def packable (w : Nat) (v : Int) : Bool := decide (-(2 : Int) ^ w ≤ v) && decide (v ≤ (2 : Int) ^ w - 1)

/-! ## Unpacking -/

/-- R72: OR the byte in below the bits held and advance HELD by 8. -/
def Scratch.addByte (x : Scratch) (b : Byte) : Scratch :=
  ⟨x.acc ||| ((b.setWidth Config.scratchBits) <<< (32 - x.held)), x.held + 8⟩

/-- R72, the loop `while HELD < w`, which turns `ceil_div(w - HELD, 8)` times: bytes are read from offset `pos`
of the input; one beyond its end raises E_TRUNCATED (R15). -/
def Scratch.refill (input : List Byte) : Nat → Scratch → Nat → Except FaultCode (Scratch × Nat)
  | 0, x, pos => .ok (x, pos)
  | n + 1, x, pos =>
    match memReadByte input pos with
    | .error e => .error e
    | .ok b => Scratch.refill input n (x.addByte b) (pos + 1)

/-- R71, R72: `sext_w` of the top `w` bits of ACC. -/
def Scratch.topValue (x : Scratch) (w : Nat) : Int :=
  (x.acc.extractLsb' (Config.scratchBits - w) w).toInt

/-- R72: ACC <- ACC << w, HELD <- HELD - w. -/
def Scratch.dropValue (x : Scratch) (w : Nat) : Scratch := ⟨x.acc <<< w, x.held - w⟩

/-- R72, the loop over the values: the values and the offset after the last byte read. -/
def unpackLoop (input : List Byte) (w : Nat) : Nat → Scratch → Nat → Except FaultCode (List Int × Nat)
  | 0, _, pos => .ok ([], pos)
  | n + 1, x, pos =>
    match Scratch.refill input (ceilDiv (w - x.held) 8) x pos with
    | .error e => .error e
    | .ok (y, pos') =>
      match unpackLoop input w n (y.dropValue w) pos' with
      | .error e => .error e
      | .ok (vs, pos'') => .ok (y.topValue w :: vs, pos'')

/-- R72: `unpack(IN, w, n)`: the values and the number of bytes read. -/
def unpack (input : List Byte) (w n : Nat) : Except FaultCode (List Int × Nat) :=
  if input.length < ceilDiv (n * w) 8 then .error .truncated
  else unpackLoop input w n Scratch.empty 0

/-! ## The commands -/

/-- R74: `PACK`. -/
def execPack (w : Byte) (s : State) : Host.Outcome State Fault Refusal :=
  command s false s.operand.values? fun vs =>
    if !legalWidth w then .error .width
    else if !vs.all (packable w.toNat) then .error .packRange
    else .ok (s.complete (.out (pack w.toNat vs)))

/-- R75: `UNPACK`. -/
def execUnpack (w : Byte) (s : State) : Host.Outcome State Fault Refusal :=
  command s false s.operand.countBytes? fun (n, input) =>
    if !legalWidth w then .error .width
    else
      match unpack input w.toNat n with
      | .error e => .error e
      | .ok (vs, pos) => .ok (s.complete (.values vs pos))

end Sys2Proof.Machine
end

