-- ==== Sys2Proof/Machine/Control.lean ====
section
/-!
DEFINITION. The control commands (spec/44_control.md): `CSR_READ` (R109), `CSR_WRITE` (R110) and `SOFT_RESET`
(R111).
-/

namespace Sys2Proof.Machine

/-- R23, R109: what CSR number `n` reads as; none for a reserved number. -/
def State.csr? (s : State) (n : Byte) : Option Word :=
  match n.toNat with
  | 0 => some (Status.read s.status)
  | 1 => some s.rows
  | 2 => some s.cols
  | 3 => some s.cap
  | _ => none

/-- R22, R110: a write to STATUS clears TSOVF when `data[1]` is 1; every other bit is ignored. -/
def State.writeStatus (s : State) (d : Word) : State :=
  if d.getLsbD 1 then { s with status := Status.clearTsovf s.status } else s

/-- R24, R32: ROWS <- data, and both frame buffers are cleared. -/
def State.writeRows (s : State) (d : Word) : State := { s.clearBuffers with rows := d }

/-- R25, R32: COLS <- data, and both frame buffers are cleared. -/
def State.writeCols (s : State) (d : Word) : State := { s.clearBuffers with cols := d }

/-- R110: the state after `csr[n] <- data`; none for CAP, which is read-only, and for a reserved number. -/
def State.writeCsr? (s : State) (n : Byte) (d : Word) : Option State :=
  match n.toNat with
  | 0 => some (s.writeStatus d)
  | 1 => some (s.writeRows d)
  | 2 => some (s.writeCols d)
  | _ => none

/-- R109: `CSR_READ`, which the block accepts while faulted when its ARG is legal (R117). -/
def execCsrRead (n : Byte) (s : State) : Host.Outcome State Fault Refusal :=
  command s (readableCsr n) s.operand.absent? fun _ =>
    match s.csr? n with
    | none => .error .badArg
    | some d => .ok (s.complete (.data d))

/-- R110: `CSR_WRITE`. -/
def execCsrWrite (n : Byte) (s : State) : Host.Outcome State Fault Refusal :=
  command s false s.operand.data? fun d =>
    match s.writeCsr? n d with
    | none => .error .badArg
    | some t => .ok (t.complete .nothing)

/-- R111: `SOFT_RESET`, which the block accepts while faulted when its ARG is 0 (R117). -/
def execSoftReset (a : Byte) (s : State) : Host.Outcome State Fault Refusal :=
  command s (zeroArg a) s.operand.absent? fun _ =>
    if !zeroArg a then .error .badArg
    else .ok (s.softReset.complete .nothing)

end Sys2Proof.Machine
end

