-- ==== Sys2Proof/Machine/FrameCompress.lean ====
section
/-!
DEFINITION. The frame compressor (spec/42_frame_compress.md): snake order (R94), deltas (R96, R97), bit width
(R98), payload (R101), and the commands `COMPRESS` (R102) and `CLR_ENC` (R103).
-/

namespace Sys2Proof.Machine

/-- R94: `pos(k)`, the row-major position of the pixel at snake index `k`. -/
def snakePos (cols k : Nat) : Nat :=
  let r := k / cols
  let c0 := k % cols
  let c := if r % 2 = 0 then c0 else cols - 1 - c0
  r * cols + c

/-- The row-major positions in snake order, for `n` pixels. -/
def snakeOrder (cols n : Nat) : List Nat := (List.range n).map (snakePos cols)

/-- R96: `delta_snake[k] = P[pos(k)] - Q[pos(k)]`, on integers. -/
def snakeDeltas (cols n : Nat) (cur : List Pixel) (prev : FrameBuffer) : List Int :=
  (snakeOrder cols n).map fun j => ((cur.getD j 0#16).toNat : Int) - ((FrameBuffer.load prev j).toNat : Int)

/-- R97: `adj[i] = d[i+1] - d[i]`. -/
def adjacentDeltas : List Int → List Int
  | [] => []
  | [_] => []
  | a :: b :: ds => (b - a) :: adjacentDeltas (b :: ds)

/-- R98: the largest `|adj[i]|`. -/
def maxMagnitude : List Int → Nat
  | [] => 0
  | a :: as => max a.natAbs (maxMagnitude as)

/-- R98: `bit_length(M) + 1`. -/
def frameBitWidth (adj : List Int) : Nat := bitLength (maxMagnitude adj) + 1

/-- R101: `le_4(d mod 2^32)`. -/
def initialBytes (d : Int) : List Byte := leBytes 4 (d % 2 ^ 32).toNat

/-- R102: the outputs of `COMPRESS` for the deltas of a frame. -/
def compressDeltas (d : List Int) : Outputs :=
  let adj := adjacentDeltas d
  let w := frameBitWidth adj
  let bytes := initialBytes (d.headD 0) ++ pack w adj
  .compressed w bytes bytes.length

/-- R102: `COMPRESS`. -/
def execCompress (a : Byte) (s : State) : Host.Outcome State Fault Refusal :=
  command s false s.operand.pixels? fun px =>
    if !zeroArg a then .error .badArg
    else if !s.cfgOk then .error .config
    else if px.length ≠ s.pixelCount then .error .dimension
    else
      let d := snakeDeltas s.cols.toNat s.pixelCount px s.encPrev
      .ok ({ s with encPrev := FrameBuffer.storeFrame s.encPrev px }.complete (compressDeltas d))

/-- R103: `CLR_ENC`. -/
def execClrEnc (a : Byte) (s : State) : Host.Outcome State Fault Refusal :=
  command s false s.operand.absent? fun _ =>
    if !zeroArg a then .error .badArg
    else .ok ({ s with encPrev := FrameBuffer.clear s.encPrev }.complete .nothing)

end Sys2Proof.Machine
end

