-- ==== Sys2Proof/Machine/FrameReconstruct.lean ====
section
/-!
DEFINITION. The frame reconstructor (spec/43_frame_reconstruct.md): the running sum (R104), the pixel value
(R105), and the commands `RECONSTRUCT` (R106) and `CLR_DEC` (R107).
-/

namespace Sys2Proof.Machine

/-- R106: the payload length of a frame of `n` pixels at width `w`. -/
def payloadLength (n w : Nat) : Nat := 4 + ceilDiv ((n - 1) * w) 8

/-- R106: `sext_32(from_le(IN[0 .. 4)))`. -/
def initialValue (input : List Byte) : Int := (BitVec.ofNat 32 (fromLe (input.take 4))).toInt

/-- R104: `d[0] = init`, `d[k] = d[k-1] + adj[k-1]`, on integers. -/
def runningSums (init : Int) : List Int → List Int
  | [] => [init]
  | a :: as => init :: runningSums (init + a) as

/-- R105: `s = DEC_PREV[pos(k)] + d[k]` in snake order. -/
def pixelSums (order : List Nat) (prev : FrameBuffer) (d : List Int) : List Int :=
  List.zipWith (fun j dk => ((FrameBuffer.load prev j).toNat : Int) + dk) order d

/-- R105: the pixel is in range, or `RECON_OVERFLOW` wraps it. -/
def pixelAllowed (ps : Params) (v : Int) : Bool :=
  (decide (0 ≤ v) && decide (v ≤ 65535)) || ps.reconOverflow == .wrap

/-- R105: the pixel stored for a sum: `s mod 2^16`, which is `s` when it is in range. -/
def pixelOf (v : Int) : Pixel := BitVec.ofInt 16 v

/-- R106: `pix[pos(k)] <- s` for each snake index `k` in turn. -/
def scatter : List (Nat × Pixel) → List Pixel → List Pixel
  | [], pix => pix
  | (j, p) :: rest, pix => scatter rest (pix.set j p)

/-- R106: the frame rebuilt from the initial value and the unpacked deltas, in row-major order, or
E_PIXEL_RANGE. -/
def rebuild (ps : Params) (cols n : Nat) (prev : FrameBuffer) (init : Int) (adj : List Int) :
    Except FaultCode (List Pixel) :=
  let order := snakeOrder cols n
  let sums := pixelSums order prev (runningSums init adj)
  if !sums.all (pixelAllowed ps) then .error .pixelRange
  else .ok (scatter (order.zip (sums.map pixelOf)) (List.replicate n 0#16))

/-- R106: `RECONSTRUCT`. -/
def execReconstruct (w : Byte) (s : State) : Host.Outcome State Fault Refusal :=
  command s false s.operand.bytes? fun input =>
    if !legalWidth w then .error .width
    else if !s.cfgOk then .error .config
    else if input.length ≠ payloadLength s.pixelCount w.toNat then .error .payloadLength
    else do
      let (adj, _) ← unpack (input.drop 4) w.toNat (s.pixelCount - 1)
      let pix ← rebuild s.params s.cols.toNat s.pixelCount s.decPrev (initialValue input) adj
      return { s with decPrev := FrameBuffer.storeFrame s.decPrev pix }.complete (.pixels pix)

/-- R107: `CLR_DEC`. -/
def execClrDec (a : Byte) (s : State) : Host.Outcome State Fault Refusal :=
  command s false s.operand.absent? fun _ =>
    if !zeroArg a then .error .badArg
    else .ok ({ s with decPrev := FrameBuffer.clear s.decPrev }.complete .nothing)

end Sys2Proof.Machine
end

