-- ==== Sys2Proof/Machine/TaggedFields.lean ====
section
/-!
DEFINITION. The tagged field codec (spec/41_tagged_fields.md): the code table (R78), the value bytes (R82), the
field functions (R86, R87), the UTF-8 check (R84), and the commands `FIELD_ENC` (R88), `FIELD_DEC` (R89),
`SECTION_ENC` (R90) and `SECTION_DEC` (R91).
-/

namespace Sys2Proof.Machine

/-! ## The code table -/

/-- The section types (R62). -/
inductive SectionType where
  | header
  | frame
  deriving DecidableEq, Repr

/-- One row of the code table (R78). The block uses the raw type only (R79). -/
structure CodeRow where
  code : Byte
  name : String
  rawType : RawType
  sectionType : SectionType
  versions : List Nat
  deriving DecidableEq, Repr

/-- R78: the code table. -/
def codeTable : List CodeRow :=
  [ ⟨0x54#8, "TIMESTAMP", .ts, .header, [1, 2]⟩,
    ⟨0x58#8, "X_RESOLUTION", .u32, .header, [1, 2]⟩,
    ⟨0x59#8, "Y_RESOLUTION", .u32, .header, [1, 2]⟩,
    ⟨0x43#8, "COMPRESSION", .u8, .header, [1, 2]⟩,
    ⟨0x44#8, "DEVICENAME", .str, .header, [1, 2]⟩,
    ⟨0x49#8, "DEVICEID", .u32, .header, [2]⟩,
    ⟨0x50#8, "PREVIEW_SECS", .u8, .header, [2]⟩,
    ⟨0x4D#8, "MOTION_CONFIG", .str, .header, [2]⟩,
    ⟨0x4C#8, "LATITUDE", .f32, .header, [2]⟩,
    ⟨0x4F#8, "LONGITUDE", .f32, .header, [2]⟩,
    ⟨0x77#8, "BIT_WIDTH", .u8, .frame, [1, 2]⟩,
    ⟨0x66#8, "FRAME_SIZE", .u32, .frame, [1, 2]⟩,
    ⟨0x74#8, "FRAME_OFFSET (v1), TIME_ON (v2)", .u32, .frame, [1, 2]⟩,
    ⟨0x63#8, "LAST_FFC_TIME", .u32, .frame, [2]⟩ ]

/-- R78: the raw type of a code, OPAQUE when it is not in the table. -/
def typeOf (code : Byte) : RawType :=
  match codeTable.find? (fun r => r.code == code) with
  | some r => r.rawType
  | none => .blob

/-! ## Value bytes -/

/-- R81: the tag of a field value. -/
def FieldValue.rawType : FieldValue → RawType
  | .u8 _ => .u8
  | .u32 _ => .u32
  | .u64 _ => .u64
  | .f32 _ => .f32
  | .str _ => .str
  | .ts _ => .ts
  | .blob _ => .blob

/-- R82: the value bytes. -/
def FieldValue.bytes : FieldValue → List Byte
  | .u8 n => [n]
  | .u32 n => leBytes 4 n.toNat
  | .u64 n => leBytes 8 n.toNat
  | .f32 bits => leBytes 4 bits.toNat
  | .str s => s
  | .ts us => leBytes 8 us.toNat
  | .blob s => s

/-- R87: the size of a fixed-size raw type that is checked against the declared length. -/
def RawType.size? : RawType → Option Nat
  | .u8 => some 1
  | .u32 => some 4
  | .u64 => some 8
  | .f32 => some 4
  | _ => none

/-- R87: `value_of`, the inverse of R82 on value bytes of the type's size. -/
def valueOf (t : RawType) (vb : List Byte) : FieldValue :=
  match t with
  | .u8 => .u8 (BitVec.ofNat 8 (fromLe vb))
  | .u32 => .u32 (BitVec.ofNat 32 (fromLe vb))
  | .u64 => .u64 (BitVec.ofNat 64 (fromLe vb))
  | .f32 => .f32 (BitVec.ofNat 32 (fromLe vb))
  | .str => .str vb
  | .ts => .ts (BitVec.ofNat 64 (fromLe vb))
  | .blob => .blob vb

/-! ## UTF-8 -/

/-- What may come next in a UTF-8 byte sequence: a new character, or a continuation byte in a given range with
some number of further continuation bytes (0x80 to 0xBF) after it, or nothing, the sequence being ill-formed. -/
inductive Utf8State where
  | start
  | cont (lo hi : Byte) (further : Nat)
  | bad
  deriving DecidableEq, Repr

/-- The first byte of a character. The ranges are those of the Unicode definition of well-formed UTF-8, which
exclude overlong forms, surrogates and code points above 0x10FFFF (R84, G5; log entry 9, PRESUMED). -/
def Utf8State.first (b : Byte) : Utf8State :=
  if b ≤ 0x7F#8 then .start
  else if b < 0xC2#8 then .bad
  else if b ≤ 0xDF#8 then .cont 0x80#8 0xBF#8 0
  else if b = 0xE0#8 then .cont 0xA0#8 0xBF#8 1
  else if b = 0xED#8 then .cont 0x80#8 0x9F#8 1
  else if b ≤ 0xEF#8 then .cont 0x80#8 0xBF#8 1
  else if b = 0xF0#8 then .cont 0x90#8 0xBF#8 2
  else if b ≤ 0xF3#8 then .cont 0x80#8 0xBF#8 2
  else if b = 0xF4#8 then .cont 0x80#8 0x8F#8 2
  else .bad

/-- The state after one more byte. -/
def Utf8State.next (x : Utf8State) (b : Byte) : Utf8State :=
  match x with
  | .start => Utf8State.first b
  | .cont lo hi further =>
    if lo ≤ b ∧ b ≤ hi then
      match further with
      | 0 => .start
      | n + 1 => .cont 0x80#8 0xBF#8 n
    else .bad
  | .bad => .bad

/-- R84: the byte sequence is well-formed UTF-8. -/
def wellFormedUtf8 (s : List Byte) : Bool := s.foldl Utf8State.next .start == .start

/-! ## Field functions -/

/-- R86: `encode_field(code, value)`. -/
def encodeField (code : Byte) (v : FieldValue) : Except FaultCode (List Byte) :=
  if v.rawType ≠ typeOf code then .error .typeMismatch
  else if 255 < v.bytes.length then .error .fieldTooLong
  else .ok (BitVec.ofNat 8 v.bytes.length :: code :: v.bytes)

/-- What `decode_field` returns: the field, the offset after it, and the overflow bit. -/
structure FieldRead where
  field : DecodedField
  next : Nat
  overflow : Bool
  deriving DecidableEq, Repr

/-- R85, R87: the timestamp branch: always 8 value bytes, and the epoch for a count above `TS_MAX_US`. -/
def decodeTimestamp (ps : Params) (input : List Byte) (p : Nat) (code : Byte) : Except FaultCode FieldRead := do
  let vb ← memRead input (p + 2) 8
  if ps.tsMaxUs < fromLe vb then
    return ⟨⟨code, .ts, .ts 0#64⟩, p + 10, true⟩
  else
    return ⟨⟨code, .ts, valueOf .ts vb⟩, p + 10, false⟩

/-- R84, R87: what is wrong with the value bytes of a field that is not a timestamp, if anything. -/
def checkValue (ps : Params) (t : RawType) (len : Nat) (vb : List Byte) : Option FaultCode :=
  if t.size?.any (fun n => n != len) then some .fieldLength
  else if t = .str ∧ ps.stringCheck = .utf8 ∧ wellFormedUtf8 vb = false then some .string
  else none

/-- R87: the branch of a field that is not a timestamp: the bytes are read before the length is compared. -/
def decodePlain (ps : Params) (input : List Byte) (p len : Nat) (code : Byte) : Except FaultCode FieldRead := do
  let vb ← memRead input (p + 2) len
  match checkValue ps (typeOf code) len vb with
  | some e => throw e
  | none => return ⟨⟨code, typeOf code, valueOf (typeOf code) vb⟩, p + 2 + len, false⟩

/-- R87: `decode_field(IN, p)`. -/
def decodeField (ps : Params) (input : List Byte) (p : Nat) : Except FaultCode FieldRead := do
  let len ← memReadByte input p
  let code ← memReadByte input (p + 1)
  if typeOf code = .ts then decodeTimestamp ps input p code
  else decodePlain ps input p len.toNat code

/-- R90: the fields one after the other; the first that fails decides. -/
def encodeFields : List (Byte × FieldValue) → Except FaultCode (List Byte)
  | [] => .ok []
  | (code, v) :: fs => do
    let f ← encodeField code v
    let rest ← encodeFields fs
    return f ++ rest

/-- R90: a code appears twice. -/
def hasDuplicate : List Byte → Bool
  | [] => false
  | c :: cs => cs.contains c || hasDuplicate cs

/-- R90: the section of the given tag and fields, or the first check that fails after the tag's. -/
def encodeSection (tag : Byte) (fs : List (Byte × FieldValue)) : Except FaultCode (List Byte) :=
  if 255 < fs.length then .error .fieldCount
  else if hasDuplicate (fs.map Prod.fst) then .error .dupField
  else do
    let body ← encodeFields fs
    return tag :: BitVec.ofNat 8 fs.length :: body

/-- What decoding a run of fields returns: the fields, the offset after them, and whether any overflowed. -/
structure FieldsRead where
  fields : List DecodedField
  next : Nat
  overflow : Bool
  deriving DecidableEq, Repr

/-- R91: `repeat cnt times` from offset `p`. -/
def decodeFields (ps : Params) (input : List Byte) : Nat → Nat → Except FaultCode FieldsRead
  | 0, p => .ok ⟨[], p, false⟩
  | n + 1, p => do
    let f ← decodeField ps input p
    let rest ← decodeFields ps input n f.next
    return ⟨f.field :: rest.fields, rest.next, f.overflow || rest.overflow⟩

/-! ## The commands -/

/-- R88: `FIELD_ENC`. -/
def execFieldEnc (code : Byte) (s : State) : Host.Outcome State Fault Refusal :=
  command s false s.operand.value? fun v => do
    let bytes ← encodeField code v
    return s.complete (.out bytes)

/-- R89: `FIELD_DEC`. -/
def execFieldDec (a : Byte) (s : State) : Host.Outcome State Fault Refusal :=
  command s false s.operand.bytes? fun input =>
    if !zeroArg a then .error .badArg
    else do
      let f ← decodeField s.params input 0
      return (s.noteOverflow f.overflow).complete (.field f.field f.next)

/-- R90: `SECTION_ENC`. -/
def execSectionEnc (tag : Byte) (s : State) : Host.Outcome State Fault Refusal :=
  command s false s.operand.fields? fun fs =>
    if !legalTag tag then .error .badArg
    else do
      let bytes ← encodeSection tag fs
      return s.complete (.out bytes)

/-- R91: `SECTION_DEC`. -/
def execSectionDec (tag : Byte) (s : State) : Host.Outcome State Fault Refusal :=
  command s false s.operand.bytes? fun input =>
    if !legalTag tag then .error .badArg
    else
      match input with
      | [] => .ok s.endOfStream
      | first :: _ =>
        if first ≠ tag then .error .sectionType
        else do
          let cnt ← memReadByte input 1
          let fs ← decodeFields s.params input cnt.toNat 2
          return (s.noteOverflow fs.overflow).complete (.fields first fs.fields fs.next)

end Sys2Proof.Machine
end

