-- ==== Sys2Proof/Machine/Dispatch.lean ====
section
/-! DEFINITION. One arm per command (spec/30_encoding.md R52), each one call of its meaning. -/

namespace Sys2Proof.Machine

/-- The meaning of a command at the state in which the block has taken it. -/
def exec (i : Instr) (s : State) : Host.Outcome State Fault Refusal :=
  match i with
  | .pack w => Sys2Proof.Machine.execPack w s
  | .unpack w => Sys2Proof.Machine.execUnpack w s
  | .fieldEnc code => Sys2Proof.Machine.execFieldEnc code s
  | .fieldDec a => Sys2Proof.Machine.execFieldDec a s
  | .sectionEnc tag => Sys2Proof.Machine.execSectionEnc tag s
  | .sectionDec tag => Sys2Proof.Machine.execSectionDec tag s
  | .compress a => Sys2Proof.Machine.execCompress a s
  | .clrEnc a => Sys2Proof.Machine.execClrEnc a s
  | .reconstruct w => Sys2Proof.Machine.execReconstruct w s
  | .clrDec a => Sys2Proof.Machine.execClrDec a s
  | .csrRead n => Sys2Proof.Machine.execCsrRead n s
  | .csrWrite n => Sys2Proof.Machine.execCsrWrite n s
  | .softReset a => Sys2Proof.Machine.execSoftReset a s

end Sys2Proof.Machine
end

