-- ==== Sys2Proof/Machine/HostPort.lean ====
section
/-!
DEFINITION. The command port as the host's check of the opcode table drives it: what operand a word of the table
is presented with (spec/30_encoding.md R54; log entry 3).
-/

namespace Sys2Proof.Machine

/-- An operand of the command's kind, for the host's check of an opcode-table row, which gives none: operand
contents of zeros where the kind has contents (log entry 3). -/
def sampleOperandOf : Instr → Operand
  | .pack _ => .values [0#64]
  | .unpack _ => .countBytes 0#32 []
  | .fieldEnc code => .value (valueOf (typeOf code) [])
  | .fieldDec _ => .bytes [0#8, 0#8]
  | .sectionEnc _ => .fields []
  | .sectionDec tag => .bytes [tag, 0#8]
  | .compress _ => .pixels []
  | .clrEnc _ => .noOperand
  | .reconstruct _ => .bytes []
  | .clrDec _ => .noOperand
  | .csrRead _ => .noOperand
  | .csrWrite _ => .data 0#32
  | .softReset _ => .noOperand

/-- The sample operand of the command a word decodes to, none for a word that is no command. -/
def sampleOperand (w : Word) : Operand :=
  match decode w with
  | .ok i => sampleOperandOf i
  | .error _ => .noOperand

end Sys2Proof.Machine
end

