-- ==== Sys2Proof/Machine/Step.lean ====
section
/-!
DEFINITION. One step of the block (spec/60_exceptions.md R115, R124): it takes what the host presented first and
executes it as one atomic step (spec/20_memory.md R42, R46). With nothing presented it waits (R132). The fixed
functions by which the host runs one opcode-table word stand here too.
-/

namespace Sys2Proof.Machine

/-- R115, R124, R132: one step. -/
def step (s : State) : Host.Outcome State Fault Refusal :=
  match s.inputs with
  | [] => .next s
  | .reset _ :: rest => .next { s with inputs := rest }.hardReset
  | .command c :: rest =>
    match decode c.word with
    | .ok i => exec i (s.take c rest)
    | .error e => .next ((s.take c rest).badWord e)

/-- `s` with the command of a word of the opcode table presented, so that the next step takes exactly it. The
table gives no operand: the command is given the sample operand of its kind (log entry 3). -/
def State.withFetchWord (s : State) (nbits w : Nat) : State :=
  s.present ⟨tableWord nbits w, sampleOperand (tableWord nbits w)⟩

end Sys2Proof.Machine
end

