-- ==== Sys2Proof/Machine/Assembler.lean ====
section
/-!
DEFINITION. The assembler of spec/30_encoding.md part C: its lines (R65) and pseudo-instructions (R66) as data,
their expansion into commands, and the reading of a line's text.
-/

namespace Sys2Proof.Machine

/-- A line of the assembler: one command (R65) or one pseudo-instruction (R66). -/
inductive AsmLine where
  | pack (w : Byte) (vs : List DoubleWord)
  | unpack (w : Byte) (count : Word) (input : List Byte)
  | fieldEnc (code : Byte) (v : FieldValue)
  | fieldDec (input : List Byte)
  | sectionEnc (tag : Byte) (fs : List (Byte × FieldValue))
  | sectionDec (tag : Byte) (input : List Byte)
  | compress (ps : List Pixel)
  | clrEnc
  | reconstruct (w : Byte) (input : List Byte)
  | clrDec
  | csrr (n : Byte)
  | csrw (n : Byte) (d : Word)
  | softReset
  /-- `config <r>, <c>` -/
  | config (r c : Word)
  | clear
  | nop
  deriving DecidableEq, Repr

/-- R23: the CSR numbers. -/
def csrStatus : Byte := 0x00#8
def csrRows : Byte := 0x01#8
def csrCols : Byte := 0x02#8
def csrCap : Byte := 0x03#8

/-- R65: a command from its instruction and operand; the word is `ARG << 8 | OPCODE` with RSVD = 0. -/
def Command.of (i : Instr) (o : Operand) : Command := ⟨encode i, o⟩

/-- R65, R66: the commands of a line. -/
def AsmLine.commands : AsmLine → List Command
  | .pack w vs => [.of (.pack w) (.values vs)]
  | .unpack w count input => [.of (.unpack w) (.countBytes count input)]
  | .fieldEnc code v => [.of (.fieldEnc code) (.value v)]
  | .fieldDec input => [.of (.fieldDec 0#8) (.bytes input)]
  | .sectionEnc tag fs => [.of (.sectionEnc tag) (.fields fs)]
  | .sectionDec tag input => [.of (.sectionDec tag) (.bytes input)]
  | .compress ps => [.of (.compress 0#8) (.pixels ps)]
  | .clrEnc => [.of (.clrEnc 0#8) .noOperand]
  | .reconstruct w input => [.of (.reconstruct w) (.bytes input)]
  | .clrDec => [.of (.clrDec 0#8) .noOperand]
  | .csrr n => [.of (.csrRead n) .noOperand]
  | .csrw n d => [.of (.csrWrite n) (.data d)]
  | .softReset => [.of (.softReset 0#8) .noOperand]
  | .config r c => [.of (.csrWrite csrRows) (.data r), .of (.csrWrite csrCols) (.data c)]
  | .clear => [.of (.clrEnc 0#8) .noOperand, .of (.clrDec 0#8) .noOperand]
  | .nop => [.of (.csrRead csrStatus) .noOperand]

/-! ## Tokens -/

/-- The tokens of a line's text (R65). -/
inductive Token where
  | word (cs : List Char)
  | num (n : Int)
  /-- `'c'` -/
  | char (b : Byte)
  /-- `"text"` -/
  | text (bs : List Byte)
  /-- `hex"48 02"` -/
  | hex (bs : List Byte)
  | comma
  | colon
  | lbrack
  | rbrack
  | lbrace
  | rbrace
  deriving DecidableEq, Repr

/-- What the reader of a line is inside of; the characters read so far stand last first. -/
inductive LexMode where
  | idle
  | comment
  | word (r : List Char)
  | number (r : List Char)
  | text (r : List Char)
  | hex (r : List Char)
  | quote (c : Option Char)
  deriving DecidableEq, Repr

/-- The value of a digit in hexadecimal. -/
def digit? (c : Char) : Option Nat :=
  let n := c.toNat
  if 48 ≤ n ∧ n ≤ 57 then some (n - 48)
  else if 65 ≤ n ∧ n ≤ 70 then some (n - 55)
  else if 97 ≤ n ∧ n ≤ 102 then some (n - 87)
  else none

/-- A number in the given base from its digits, `acc` being the value of the digits before. -/
def digits? (base : Nat) : Nat → List Char → Option Nat
  | acc, [] => some acc
  | acc, c :: cs =>
    match digit? c with
    | some d => if d < base then digits? base (acc * base + d) cs else none
    | none => none

/-- An unsigned number, decimal or `0x` hexadecimal. -/
def unsigned? : List Char → Option Nat
  | [] => none
  | '0' :: 'x' :: c :: cs => digits? 16 0 (c :: cs)
  | cs => digits? 10 0 cs

/-- A number, with a `-` before it or not. -/
def number? : List Char → Option Int
  | '-' :: cs => (unsigned? cs).map fun n => -(n : Int)
  | cs => (unsigned? cs).map fun n => (n : Int)

/-- The bytes of `hex"..."`, from its digits with the spaces taken out. -/
def hexBytes? : List Char → Option (List Byte)
  | [] => some []
  | [_] => none
  | a :: b :: cs => do
    let hi ← digit? a
    let lo ← digit? b
    let rest ← hexBytes? cs
    return BitVec.ofNat 8 (16 * hi + lo) :: rest

/-- The bytes of a character of `"text"`, in UTF-8 (R84; log entry 9). -/
def charBytes (c : Char) : List Byte := (String.utf8EncodeChar c).map UInt8.toBitVec

/-- A letter, a digit or an underscore: what a word or a number goes on with. -/
def goesOn (c : Char) : Bool := c.isAlphanum || c == '_'

/-- A character read outside every token: the token it is, and what the reader is inside of after it. -/
def lexStart (c : Char) : Option (List Token × LexMode) :=
  if c = ' ' then some ([], .idle)
  else if c = ';' then some ([], .comment)
  else if c = ',' then some ([.comma], .idle)
  else if c = ':' then some ([.colon], .idle)
  else if c = '[' then some ([.lbrack], .idle)
  else if c = ']' then some ([.rbrack], .idle)
  else if c = Char.ofNat 123 then some ([.lbrace], .idle)
  else if c = Char.ofNat 125 then some ([.rbrace], .idle)
  else if c = '"' then some ([], .text [])
  else if c = Char.ofNat 39 then some ([], .quote none)
  else if c.isAlpha then some ([], .word [c])
  else if c.isDigit || c == '-' then some ([], .number [c])
  else none

/-- One more character of a line. -/
def LexMode.feed : LexMode → Char → Option (List Token × LexMode)
  | .idle, c => lexStart c
  | .comment, _ => some ([], .comment)
  | .word r, c =>
    if goesOn c then some ([], .word (c :: r))
    else if c = '"' ∧ r = ['x', 'e', 'h'] then some ([], .hex [])
    else (lexStart c).map fun (ts, m) => (.word r.reverse :: ts, m)
  | .number r, c =>
    if goesOn c then some ([], .number (c :: r))
    else do
      let n ← number? r.reverse
      let (ts, m) ← lexStart c
      return (.num n :: ts, m)
  | .text r, c => if c = '"' then some ([.text (r.reverse.flatMap charBytes)], .idle) else some ([], .text (c :: r))
  | .hex r, c =>
    if c = '"' then (hexBytes? (r.reverse.filter (fun d => d != ' '))).map fun bs => ([.hex bs], .idle)
    else some ([], .hex (c :: r))
  | .quote none, c => some ([], .quote (some c))
  | .quote (some d), c =>
    if c = Char.ofNat 39 ∧ d.toNat < 256 then some ([.char (BitVec.ofNat 8 d.toNat)], .idle) else none

/-- The end of a line. -/
def LexMode.finish : LexMode → Option (List Token)
  | .idle => some []
  | .comment => some []
  | .word r => some [.word r.reverse]
  | .number r => (number? r.reverse).map fun n => [.num n]
  | .text _ => none
  | .hex _ => none
  | .quote _ => none

/-- The tokens of a line's text. -/
def tokens : LexMode → List Char → Option (List Token)
  | m, [] => m.finish
  | m, c :: cs => do
    let (ts, m') ← m.feed c
    let rest ← tokens m' cs
    return ts ++ rest

/-! ## Lines -/

/-- An unsigned number below `2^w`. -/
def unsignedBits? (w : Nat) (n : Int) : Option (BitVec w) :=
  if 0 ≤ n ∧ n < (2 : Int) ^ w then some (BitVec.ofInt w n) else none

/-- R54: a `PACK` value, `-2^63 .. 2^63-1`. -/
def signed64? (n : Int) : Option DoubleWord :=
  if -(2 : Int) ^ 63 ≤ n ∧ n < (2 : Int) ^ 63 then some (BitVec.ofInt 64 n) else none

/-- Numbers up to the closing bracket that ends the line. -/
def numbersTail : List Token → Option (List Int)
  | [.num n, .rbrack] => some [n]
  | .num n :: .comma :: ts => (numbersTail ts).map (n :: ·)
  | _ => none

/-- `[n0, n1, ...]` as the rest of a line. -/
def numbers? : List Token → Option (List Int)
  | [.lbrack, .rbrack] => some []
  | .lbrack :: ts => numbersTail ts
  | _ => none

/-- A field code or section tag: `'c'` or `0xNN`. -/
def codeToken? : Token → Option Byte
  | .char b => some b
  | .num n => unsignedBits? 8 n
  | _ => none

/-- A CSR: its name or its number. -/
def csrToken? : Token → Option Byte
  | .word cs =>
    if cs = "STATUS".toList then some csrStatus
    else if cs = "ROWS".toList then some csrRows
    else if cs = "COLS".toList then some csrCols
    else if cs = "CAP".toList then some csrCap
    else none
  | .num n => unsignedBits? 8 n
  | _ => none

/-- A field value: its kind word and its contents. -/
def valueTokens? (kind : List Char) : Token → Option FieldValue
  | .num n =>
    if kind = "u8".toList then (unsignedBits? 8 n).map .u8
    else if kind = "u32".toList then (unsignedBits? 32 n).map .u32
    else if kind = "u64".toList then (unsignedBits? 64 n).map .u64
    else if kind = "f32".toList then (unsignedBits? 32 n).map .f32
    else if kind = "ts".toList then (unsignedBits? 64 n).map .ts
    else none
  | .text bs => if kind = "str".toList then some (.str bs) else none
  | .hex bs => if kind = "blob".toList then some (.blob bs) else none
  | _ => none

/-- One `<code>: <value>` of a section. -/
def fieldTokens? (code : Token) (kind : List Char) (v : Token) : Option (Byte × FieldValue) := do
  let c ← codeToken? code
  let x ← valueTokens? kind v
  return (c, x)

/-- Fields up to the closing brace that ends the line. -/
def fieldsTail : List Token → Option (List (Byte × FieldValue))
  | [code, .colon, .word kind, v, .rbrace] => (fieldTokens? code kind v).map fun f => [f]
  | code :: .colon :: .word kind :: v :: .comma :: ts => do
    let f ← fieldTokens? code kind v
    let rest ← fieldsTail ts
    return f :: rest
  | _ => none

/-- The fields of a section, in braces, as the rest of a line. -/
def fields? : List Token → Option (List (Byte × FieldValue))
  | [.lbrace, .rbrace] => some []
  | .lbrace :: ts => fieldsTail ts
  | _ => none

/-- R65, R66: a line from its mnemonic and the tokens after it. -/
def line? (m : List Char) (args : List Token) : Option AsmLine :=
  if m = "pack".toList then
    match args with
    | .num w :: .comma :: ts => do return .pack (← unsignedBits? 8 w) (← (← numbers? ts).mapM signed64?)
    | _ => none
  else if m = "unpack".toList then
    match args with
    | [.num w, .comma, .num n, .comma, .hex bs] => do return .unpack (← unsignedBits? 8 w) (← unsignedBits? 32 n) bs
    | _ => none
  else if m = "field_enc".toList then
    match args with
    | [code, .comma, .word kind, v] => (fieldTokens? code kind v).map fun f => .fieldEnc f.1 f.2
    | _ => none
  else if m = "field_dec".toList then
    match args with
    | [.hex bs] => some (.fieldDec bs)
    | _ => none
  else if m = "section_enc".toList then
    match args with
    | tag :: .comma :: ts => do return .sectionEnc (← codeToken? tag) (← fields? ts)
    | _ => none
  else if m = "section_dec".toList then
    match args with
    | [tag, .comma, .hex bs] => (codeToken? tag).map fun t => .sectionDec t bs
    | _ => none
  else if m = "compress".toList then do return .compress (← (← numbers? args).mapM (unsignedBits? 16))
  else if m = "clr_enc".toList then if args = [] then some .clrEnc else none
  else if m = "reconstruct".toList then
    match args with
    | [.num w, .comma, .hex bs] => (unsignedBits? 8 w).map fun w => .reconstruct w bs
    | _ => none
  else if m = "clr_dec".toList then if args = [] then some .clrDec else none
  else if m = "csrr".toList then
    match args with
    | [n] => (csrToken? n).map .csrr
    | _ => none
  else if m = "csrw".toList then
    match args with
    | [n, .comma, .num d] => do return .csrw (← csrToken? n) (← unsignedBits? 32 d)
    | _ => none
  else if m = "soft_reset".toList then if args = [] then some .softReset else none
  else if m = "config".toList then
    match args with
    | [.num r, .comma, .num c] => do return .config (← unsignedBits? 32 r) (← unsignedBits? 32 c)
    | _ => none
  else if m = "clear".toList then if args = [] then some .clear else none
  else if m = "nop".toList then if args = [] then some .nop else none
  else none

/-- R65: the commands of a line's text; a line that is empty or only a comment has none, and none of this is
answered for a text that is no line. -/
def assembleLine (text : List Char) : Option (List Command) := do
  match ← tokens .idle text with
  | [] => return []
  | .word m :: args => return (← line? m args).commands
  | _ => none

end Sys2Proof.Machine
end

