-- ==== Sys2Proof/Machine/Formats.lean ====
section
/-!
DEFINITION. The data formats the source fixes, as the spec writes them down (spec/30_encoding.md part B), without
the algorithms that produce them: what the statements hold the packer, the codec and the compressor against.
-/

namespace Sys2Proof.Machine

/-- R59: bit `j` of the bit string `S` of fields `us` at width `w`, 0 from `n*w` on. -/
def streamBit (w : Nat) (us : List Nat) (j : Nat) : Bool :=
  decide (j < us.length * w) && (us.getD (j / w) 0).testBit (w - 1 - j % w)

/-- R59: `byte[m] = sum over k in 0..7 of S[8*m + k] * 2^(7-k)`. -/
def streamByte (w : Nat) (us : List Nat) (m : Nat) : Byte :=
  BitVec.ofNat 8 (((List.range 8).map fun k => (streamBit w us (8 * m + k)).toNat * 2 ^ (7 - k)).sum)

/-- R59: the packed stream of fields `us` at width `w`. -/
def packedStream (w : Nat) (us : List Nat) : List Byte :=
  (List.range (ceilDiv (us.length * w) 8)).map (streamByte w us)

/-- R12, R68: `enc_w(v) = v mod 2^w`. -/
def encBits (w : Nat) (v : Int) : Nat := (v % 2 ^ w).toNat

/-- R12, R71: `sext_w(u)`. -/
def sextBits (w : Nat) (u : Nat) : Int := if u < 2 ^ (w - 1) then (u : Int) else (u : Int) - 2 ^ w

/-- R11: bit `j` of a byte sequence read as a bit string, the bits of each byte from bit 7 to bit 0. -/
def inputBit (input : List Byte) (j : Nat) : Bool := (input.getD (j / 8) 0#8).toNat.testBit (7 - j % 8)

/-- R72: the unsigned integer of bits `i*w .. i*w+w` of a byte sequence read as a bit string, first bit most
significant. -/
def inputField (input : List Byte) (w i : Nat) : Nat :=
  ((List.range w).map fun k => (inputBit input (i * w + k)).toNat * 2 ^ (w - 1 - k)).sum

/-- R60: the payload of a frame of initial value `init` and AdjacentDelta sequence `adj` at width `w`. -/
def framePayload (w : Nat) (init : Int) (adj : List Int) : List Byte :=
  leBytes 4 (encBits 32 init) ++ packedStream w (adj.map (encBits w))

/-- R104, R106: the delta at snake index `k` that a payload gives at width `w`: the signed initial value plus the
first `k` unpacked values. -/
def payloadDelta (input : List Byte) (w k : Nat) : Int :=
  sextBits 32 (fromLe (input.take 4)) + ((List.range k).map fun i => sextBits w (inputField (input.drop 4) w i)).sum

/-- R61: a field of the given code and value bytes. -/
def fieldFormat (code : Byte) (valueBytes : List Byte) : List Byte :=
  BitVec.ofNat 8 valueBytes.length :: code :: valueBytes

/-- R62: a section of the given tag and encoded fields. -/
def sectionFormat (tag : Byte) (fieldsBytes : List (List Byte)) : List Byte :=
  tag :: BitVec.ofNat 8 fieldsBytes.length :: fieldsBytes.flatten

/-- R63: the magic `"CPTV"`. -/
def magic : List Byte := [0x43#8, 0x50#8, 0x54#8, 0x56#8]

/-- R127: the outer compressor, a pair of byte transforms of which the second undoes the first. -/
structure Outer where
  compress : List Byte → List Byte
  decompress : List Byte → List Byte
  decompress_compress : ∀ b, decompress (compress b) = b

/-- R63: a container file of the given version, header section and frame records (section and payload). -/
def fileFormat (outer : Outer) (version : Byte) (header : List Byte) (records : List (List Byte × List Byte)) :
    List Byte :=
  magic ++ version :: outer.compress (header ++ records.flatMap fun r => r.1 ++ r.2)

/-- R64: the length of the field that begins a byte sequence, from its length byte and its code. -/
def fieldLength (len code : Byte) : Nat := if typeOf code = .ts then 2 + 8 else 2 + len.toNat

end Sys2Proof.Machine
end

