-- ==== Sys2Proof/Machine/HostProcedures.lean ====
section
/-!
DEFINITION. The host's procedures over the block (spec/60_exceptions.md): issuing a command and a run of commands
(R124, R131), the write procedure (R128) and the read procedure (R129). They reach the block through its step
only. The outer compressor is an argument (R127).
-/

namespace Sys2Proof.Machine

/-! ## Runs -/

/-- R124: the host presents one command and takes its result. -/
def issue (s : State) (c : Command) : Option (State × Result) :=
  match step (s.present c) with
  | .next t => t.result.map fun r => (t, r)
  | .fault _ => none
  | .refused _ => none

/-- R131: a finite sequence of commands, each presented after the result of the one before is taken: the end
state and the result records. -/
def runCommands : State → List Command → Option (State × List Result)
  | s, [] => some (s, [])
  | s, c :: cs => do
    let (t, r) ← issue s c
    let (u, rs) ← runCommands t cs
    return (u, r :: rs)

/-- R131: the run has faulted. -/
def runFaulted (endState : State) : Bool := endState.faulted

/-- The outputs of one command when its status is OK. -/
def issueOk (s : State) (c : Command) : Option (State × Outputs) := do
  match ← issue s c with
  | (t, .ok o) => return (t, o)
  | _ => none

/-- R66: `config <r>, <c>`. -/
def configure (s : State) (r c : Word) : Option State := do
  let (t, _) ← issueOk s (.of (.csrWrite csrRows) (.data r))
  let (u, _) ← issueOk t (.of (.csrWrite csrCols) (.data c))
  return u

/-! ## Writing a file -/

/-- A frame to write, with its two durations (R128). -/
structure FrameToWrite where
  pixels : List Pixel
  timeOn : Word
  lastFfc : Word
  deriving DecidableEq, Repr

/-- What goes into a header (R128): the timestamp and the header fields other than T, X, Y and C. -/
structure HeaderToWrite where
  timestamp : DoubleWord
  others : List (Byte × FieldValue)
  deriving DecidableEq, Repr

/-- R128: the fields of the header section, in the order T, X, Y, C, then the others (D39). -/
def headerFields (rows cols : Word) (h : HeaderToWrite) : List (Byte × FieldValue) :=
  (0x54#8, .ts h.timestamp) :: (0x58#8, .u32 cols) :: (0x59#8, .u32 rows) :: (0x43#8, .u8 1#8) :: h.others

/-- R128: the fields of a frame section, in the order w, f, t, c (D39). -/
def frameFields (w : Nat) (size : Nat) (f : FrameToWrite) : List (Byte × FieldValue) :=
  [(0x77#8, .u8 (BitVec.ofNat 8 w)), (0x66#8, .u32 (BitVec.ofNat 32 size)), (0x74#8, .u32 f.timeOn),
   (0x63#8, .u32 f.lastFfc)]

/-- `section_enc` of the given tag and fields. -/
def writeSection (s : State) (tag : Byte) (fs : List (Byte × FieldValue)) : Option (State × List Byte) := do
  match ← issueOk s (.of (.sectionEnc tag) (.fields fs)) with
  | (t, .out bytes) => return (t, bytes)
  | _ => none

/-- R128: one frame record. A bit width or frame size its field cannot hold ends the procedure (log entry 14). -/
def writeFrame (s : State) (f : FrameToWrite) : Option (State × List Byte) := do
  match ← issueOk s (.of (.compress 0#8) (.pixels f.pixels)) with
  | (t, .compressed w payload size) =>
    if w < 2 ^ 8 ∧ size < 2 ^ 32 then
      let (u, sec) ← writeSection t tagFrame (frameFields w size f)
      return (u, sec ++ payload)
    else none
  | _ => none

/-- R128: the frame records, in order. -/
def writeFrames : State → List FrameToWrite → Option (State × List Byte)
  | s, [] => some (s, [])
  | s, f :: fs => do
    let (t, r) ← writeFrame s f
    let (u, rest) ← writeFrames t fs
    return (u, r ++ rest)

/-- R128: the write procedure: the block's end state and the bytes of a version 2 file. None when a command did
not complete with status OK (log entry 14). -/
def writeFile (outer : Outer) (s : State) (rows cols : Word) (h : HeaderToWrite) (frames : List FrameToWrite) :
    Option (State × List Byte) := do
  let t ← configure s rows cols
  let (u, header) ← writeSection t tagHeader (headerFields rows cols h)
  let (v, records) ← writeFrames u frames
  return (v, magic ++ 2#8 :: outer.compress (header ++ records))

/-! ## Reading a file -/

/-- Why the read procedure reports a FormatError (R129). -/
inductive FormatError where
  | badMagic
  | unsupportedVersion
  | missingHeader
  /-- a required field is absent, or a code is repeated (D40) -/
  | fieldsMissingOrRepeated
  | unsupportedCompression
  /-- the body ends inside a payload -/
  | truncated
  /-- a command of the block did not complete: the fault it reports, none for REJECTED -/
  | block (e : Option FaultCode)
  deriving DecidableEq, Repr

/-- The times of a frame read: FRAME_OFFSET in version 1, the two durations in version 2 (R129). -/
inductive FrameTimes where
  | version1 (frameOffset : Word)
  | version2 (timeOn lastFfc : Word)
  deriving DecidableEq, Repr

/-- A frame the read procedure yields (R129). -/
structure FrameRead where
  pixels : List Pixel
  times : FrameTimes
  deriving DecidableEq, Repr

/-- What reading a file gives once its header is accepted: the version, the header fields present (an absent
field is reported absent, with no value; N6), the frames yielded, and whether iteration ended cleanly. -/
structure FileRead where
  version : Byte
  header : List DecodedField
  frames : List FrameRead
  ending : Except FormatError Unit

/-- R129: the value of a code in a decoded section, when it is there. -/
def fieldOf? (fs : List DecodedField) (code : Byte) : Option FieldValue :=
  (fs.find? fun f => f.code == code).map DecodedField.value

/-- R129: the value of a U32 field. -/
def word? : FieldValue → Option Word
  | .u32 n => some n
  | _ => none

/-- R129: the value of a U8 field. -/
def byte? : FieldValue → Option Byte
  | .u8 n => some n
  | _ => none

/-- D40: no code is repeated. -/
def noRepeat (fs : List DecodedField) : Bool := !hasDuplicate (fs.map DecodedField.code)

/-- R129: what a command's result other than OK makes of the read. -/
def errorOf : Result → FormatError
  | .fault e => .block (some e)
  | _ => .block none

/-- `section_dec` of the expected tag: the state, and the fields with the bytes consumed, or none at END. -/
def readSection (s : State) (tag : Byte) (body : List Byte) :
    Except FormatError (State × Option (List DecodedField × Nat)) :=
  match issue s (.of (.sectionDec tag) (.bytes body)) with
  | some (t, .ok (.fields _ fs n)) => .ok (t, some (fs, n))
  | some (t, .endOfStream) => .ok (t, none)
  | some (_, r) => .error (errorOf r)
  | none => .error (.block none)

/-- R129: the times of a frame, 0 for a field that is absent. -/
def timesOf (version : Byte) (fs : List DecodedField) : FrameTimes :=
  let t := ((fieldOf? fs 0x74#8).bind word?).getD 0#32
  let c := ((fieldOf? fs 0x63#8).bind word?).getD 0#32
  if version = 1#8 then .version1 t else .version2 t c

/-- R129: the bit width and frame size a frame section must hold once each, and no repeated code (D40). -/
def frameHeader? (fs : List DecodedField) : Option (Byte × Word) := do
  let w ← (fieldOf? fs 0x77#8).bind byte?
  let f ← (fieldOf? fs 0x66#8).bind word?
  if noRepeat fs then return (w, f) else none

/-- R129: `reconstruct w, P`. -/
def readPayload (s : State) (w : Byte) (payload : List Byte) : Except FormatError (State × List Pixel) :=
  match issue s (.of (.reconstruct w) (.bytes payload)) with
  | some (t, .ok (.pixels ps)) => .ok (t, ps)
  | some (_, r) => .error (errorOf r)
  | none => .error (.block none)

/-- R129: one turn of the reader's loop on the rest of the body: none at the clean end of the stream, else the
frame yielded and what is left of the body. -/
def readFrame (s : State) (version : Byte) (body : List Byte) :
    Except FormatError (Option (State × FrameRead × List Byte)) := do
  match ← readSection s tagFrame body with
  | (_, none) => return none
  | (t, some (fs, n)) =>
    match frameHeader? fs with
    | none => throw .fieldsMissingOrRepeated
    | some (w, f) =>
      if body.length - n < f.toNat then throw .truncated
      else
        let (u, ps) ← readPayload t w ((body.drop n).take f.toNat)
        return some (u, ⟨ps, timesOf version fs⟩, body.drop (n + f.toNat))

/-- R129: the reader's loop: the frames yielded before it ended, and how it ended. Every turn that yields takes
bytes off the body, so `body.length + 1` turns are enough (`fuel`). -/
def readFrames (version : Byte) : Nat → State → List Byte → List FrameRead × Except FormatError Unit
  | 0, _, _ => ([], .error .truncated)
  | fuel + 1, s, body =>
    match readFrame s version body with
    | .error e => ([], .error e)
    | .ok none => ([], .ok ())
    | .ok (some (t, f, rest)) =>
      let (fs, ending) := readFrames version fuel t rest
      (f :: fs, ending)

/-- R129: ROWS (Y) and COLS (X) from a header that holds X, Y, C and T once each, no repeated code (D40), and
compression 1. -/
def headerResolution (fs : List DecodedField) : Except FormatError (Word × Word) :=
  match (fieldOf? fs 0x59#8).bind word?, (fieldOf? fs 0x58#8).bind word?, (fieldOf? fs 0x43#8).bind byte?,
    fieldOf? fs 0x54#8 with
  | some y, some x, some c, some _ =>
    if !noRepeat fs then .error .fieldsMissingOrRepeated
    else if c ≠ 1#8 then .error .unsupportedCompression
    else .ok (y, x)
  | _, _, _, _ => .error .fieldsMissingOrRepeated

/-- R129: the body after the outer compressor is removed: the header section, then the loop. -/
def readBody (s : State) (version : Byte) (body : List Byte) : Except FormatError FileRead := do
  match ← readSection s tagHeader body with
  | (_, none) => throw .missingHeader
  | (t, some (fs, n)) =>
    let (rows, cols) ← headerResolution fs
    match configure t rows cols with
    | none => throw (.block none)
    | some u =>
      let (frames, ending) := readFrames version (body.length + 1) u (body.drop n)
      return ⟨version, fs, frames, ending⟩

/-- R129: the read procedure. -/
def readFile (outer : Outer) (s : State) (file : List Byte) : Except FormatError FileRead :=
  match file with
  | a :: b :: c :: d :: v :: rest =>
    if [a, b, c, d] ≠ magic then .error .badMagic
    else if v ≠ 1#8 ∧ v ≠ 2#8 then .error .unsupportedVersion
    else readBody s v (outer.decompress rest)
  | _ => .error .badMagic

end Sys2Proof.Machine
end

