-- ==== Sys2Proof/Safety.lean ====
section
/-!
DEFINITION. The terms the statements use of states: the invariant every step keeps, and what it is for the block
to be ready for a command.
-/

namespace Sys2Proof

open Sys2Proof.Machine

/-- R22: the reserved bits of STATUS are 0, FAULT_CODE is 0 while FAULTED is 0, and while FAULTED is 1 it is one
of the codes 0x01 to 0x12 (R112). -/
def Safety.statusOk (st : Word) : Bool :=
  Status.reserved st == 0#32 &&
    (if Status.faulted st then
      decide (1 ≤ (Status.faultCode st).toNat) && decide ((Status.faultCode st).toNat ≤ 0x12)
    else Status.faultCode st == 0#8)

/-- A frame buffer of the state is in canonical form and holds 0 at every index from `N` on and from
`MAX_PIXELS` on (R27, R28, R32, I19). -/
def Safety.bufferOk (s : State) (b : FrameBuffer) : Bool :=
  FrameBuffer.wf s.pixelCount b && FrameBuffer.wf s.maxPixels b

/-- The invariant: STATUS as R22 says it reads, `MAX_PIXELS` at least its floor (R8), both buffers as above. -/
def Safety.inv (s : State) : Bool :=
  Safety.statusOk s.status && decide (Config.maxPixelsFloor ≤ s.maxPixels)
    && Safety.bufferOk s s.encPrev && Safety.bufferOk s s.decPrev

/-- The states a run from reset reaches: the host presents what it likes between steps (R124, R126), and the
block steps. -/
inductive Safety.Reachable : State → Prop where
  | reset (cap : Word) (ps : Params) (floor : Config.maxPixelsFloor ≤ cap.toNat) :
      Safety.Reachable (State.resetOf cap ps)
  | present (s : State) (xs : List HostInput) : Safety.Reachable s → Safety.Reachable { s with inputs := xs }
  | step (s t : State) : Safety.Reachable s → Machine.step s = .next t → Safety.Reachable t

/-- A safe run state: reachable, and so meeting the invariant. -/
def Safety.Safe (s : State) : Prop := Safety.Reachable s ∧ Safety.inv s = true

/-! ## Tables and terms of the statements -/

/-- R54: the operand is of the kind the command takes. -/
def Safety.kindOk : Instr → Operand → Bool
  | .pack _, .values _ => true
  | .unpack _, .countBytes _ _ => true
  | .fieldEnc _, .value _ => true
  | .fieldDec _, .bytes _ => true
  | .sectionEnc _, .fields _ => true
  | .sectionDec _, .bytes _ => true
  | .compress _, .pixels _ => true
  | .clrEnc _, .noOperand => true
  | .reconstruct _, .bytes _ => true
  | .clrDec _, .noOperand => true
  | .csrRead _, .noOperand => true
  | .csrWrite _, .data _ => true
  | .softReset _, .noOperand => true
  | _, _ => false

/-- R53, R67: the fault an illegal ARG raises. -/
def Safety.argumentFault : Instr → FaultCode
  | .pack _ => .width
  | .unpack _ => .width
  | .reconstruct _ => .width
  | _ => .badArg

/-- R112: the column "raised by", for the codes a command with a legal word raises. -/
def Safety.mayRaise : Instr → FaultCode → Bool
  | _, .operand => true
  | .pack _, .width => true
  | .pack _, .packRange => true
  | .unpack _, .width => true
  | .unpack _, .truncated => true
  | .fieldEnc _, .fieldTooLong => true
  | .fieldEnc _, .typeMismatch => true
  | .fieldDec _, .badArg => true
  | .fieldDec _, .truncated => true
  | .fieldDec _, .fieldLength => true
  | .fieldDec _, .string => true
  | .sectionEnc _, .badArg => true
  | .sectionEnc _, .fieldTooLong => true
  | .sectionEnc _, .typeMismatch => true
  | .sectionEnc _, .fieldCount => true
  | .sectionEnc _, .dupField => true
  | .sectionDec _, .badArg => true
  | .sectionDec _, .truncated => true
  | .sectionDec _, .fieldLength => true
  | .sectionDec _, .sectionType => true
  | .sectionDec _, .string => true
  | .compress _, .badArg => true
  | .compress _, .config => true
  | .compress _, .dimension => true
  | .clrEnc _, .badArg => true
  | .reconstruct _, .width => true
  | .reconstruct _, .config => true
  | .reconstruct _, .payloadLength => true
  | .reconstruct _, .pixelRange => true
  | .clrDec _, .badArg => true
  | .csrRead _, .badArg => true
  | .csrWrite _, .badArg => true
  | .softReset _, .badArg => true
  | _, _ => false

/-- The commands that touch neither the resolution nor a frame buffer. -/
def Safety.codecCommand : Instr → Bool
  | .pack _ => true
  | .unpack _ => true
  | .fieldEnc _ => true
  | .fieldDec _ => true
  | .sectionEnc _ => true
  | .sectionDec _ => true
  | .csrRead _ => true
  | _ => false

/-- R22: the commands that may set TSOVF. -/
def Safety.setsTsovf : Instr → Bool
  | .fieldDec _ => true
  | .sectionDec _ => true
  | _ => false

/-- R86: a field `encode_field` accepts. -/
def Safety.encodable (f : Byte × FieldValue) : Prop := f.2.rawType = typeOf f.1 ∧ f.2.bytes.length ≤ 255

/-- R87: the bytes of one field, with what `decode_field` makes of them, all of them used. -/
def Safety.decodesAs (ps : Params) (piece : List Byte × FieldRead) : Prop :=
  decodeField ps piece.1 0 = .ok piece.2 ∧ piece.2.next = piece.1.length

/-- R100: every value lies in the two's-complement range of `w` bits. -/
def Safety.fits (w : Nat) (adj : List Int) : Prop :=
  1 ≤ w ∧ ∀ a ∈ adj, -(2 : Int) ^ (w - 1) ≤ a ∧ a ≤ (2 : Int) ^ (w - 1) - 1

/-- A Unicode scalar value (R84, G5; log entry 9). -/
def Safety.isScalar (n : Nat) : Prop := n < 0xD800 ∨ (0xE000 ≤ n ∧ n < 0x110000)

/-- The UTF-8 bytes of a scalar value (R84, G5; log entry 9). -/
def Safety.utf8OfScalar (n : Nat) : List Byte :=
  if n < 0x80 then [BitVec.ofNat 8 n]
  else if n < 0x800 then [BitVec.ofNat 8 (0xC0 + n / 64), BitVec.ofNat 8 (0x80 + n % 64)]
  else if n < 0x10000 then
    [BitVec.ofNat 8 (0xE0 + n / 4096), BitVec.ofNat 8 (0x80 + n / 64 % 64), BitVec.ofNat 8 (0x80 + n % 64)]
  else
    [BitVec.ofNat 8 (0xF0 + n / 262144), BitVec.ofNat 8 (0x80 + n / 4096 % 64),
     BitVec.ofNat 8 (0x80 + n / 64 % 64), BitVec.ofNat 8 (0x80 + n % 64)]

end Sys2Proof
end

