-- ==== Sys2Proof/Certificates/Slice0/Obligations.lean ====
section
/-!
DEFINITION. The statements for the provers. Each is about every state, and so about every `MAX_PIXELS`,
`RECON_OVERFLOW`, `TS_MAX_US` and `STRING_CHECK` (spec/00_scope.md R8), unless a hypothesis says otherwise.
-/

open Sys2Proof Sys2Proof.Machine

/-! ## Encoding and decoding -/

/-- R51, R52, R65: a word decodes to a command exactly when it is that command's word, `ARG << 8 | OPCODE`; every
ARG, legal or not, is read back. -/
def Obligations.DecodeInvertsEncode : Prop :=
  ∀ (w : Word) (i : Instr),
    (decode w = .ok i ↔ w = encode i) ∧ (encode i).toNat = i.arg.toNat * 256 + i.opcode.toNat

/-- R52 and the words of the rules R74 to R111: one word of each command, written out. -/
def Obligations.SpecWordsDecode : Prop :=
  decode 0x00000301#32 = .ok (.pack 3#8) ∧ decode 0x00000302#32 = .ok (.unpack 3#8) ∧
  decode 0x00005803#32 = .ok (.fieldEnc 0x58#8) ∧ decode 0x00000004#32 = .ok (.fieldDec 0#8) ∧
  decode 0x00004605#32 = .ok (.sectionEnc 0x46#8) ∧ decode 0x00004806#32 = .ok (.sectionDec 0x48#8) ∧
  decode 0x00000007#32 = .ok (.compress 0#8) ∧ decode 0x00000008#32 = .ok (.clrEnc 0#8) ∧
  decode 0x00000409#32 = .ok (.reconstruct 4#8) ∧ decode 0x0000000A#32 = .ok (.clrDec 0#8) ∧
  decode 0x0000030B#32 = .ok (.csrRead 3#8) ∧ decode 0x0000010C#32 = .ok (.csrWrite 1#8) ∧
  decode 0x0000000D#32 = .ok (.softReset 0#8)

/-- R56: a word whose OPCODE is 0x00 or 0x0E to 0xFF faults with E_ILLEGAL_OP, whatever its other bits. -/
def Obligations.IllegalOpcodesFault : Prop :=
  ∀ (s : State) (c : Command) (rest : List HostInput), s.faulted = false → s.inputs = .command c :: rest →
    (c.word.toNat % 256 = 0 ∨ 0x0E ≤ c.word.toNat % 256) →
    step s = .next ((s.take c rest).faultEntry .illegalOp)

/-- R57: a word whose bits 31:16 are not 0 faults with E_RESERVED, provided its OPCODE is legal. -/
def Obligations.ReservedBitsFault : Prop :=
  ∀ (s : State) (c : Command) (rest : List HostInput), s.faulted = false → s.inputs = .command c :: rest →
    1 ≤ c.word.toNat % 256 → c.word.toNat % 256 ≤ 0x0D → c.word.toNat / 65536 ≠ 0 →
    step s = .next ((s.take c rest).faultEntry .reserved)

/-! ## The step, reset and the invariant -/

/-- R115, R124: a step takes the command the host presented first and executes what its word decodes to, with its
operand; the rest of what the host presented stays. -/
def Obligations.StepRunsDecodedCommand : Prop :=
  ∀ (s : State) (c : Command) (rest : List HostInput) (i : Instr), s.inputs = .command c :: rest →
    decode c.word = .ok i → step s = exec i { s with inputs := rest, operand := c.operand }

/-- R34: the values after reset: STATUS 0 with each of its fields 0, ROWS and COLS 0, CAP `MAX_PIXELS`, every
element of both frame buffers 0, for every instance; `cfg_ok` is then false and a frame command faults with
E_CONFIG. `State.reset` is the instance of `Config`. -/
def Obligations.ResetValues : Prop :=
  (∀ (cap : Word) (ps : Params),
    let t := State.resetOf cap ps
    t.status = 0x00000000#32 ∧ t.faulted = false ∧ t.tsovf = false ∧ t.faultCode = 0#8 ∧ t.rows = 0#32 ∧
    t.cols = 0#32 ∧ t.cap = cap ∧ t.maxPixels = cap.toNat ∧ (∀ j, FrameBuffer.load t.encPrev j = 0#16) ∧
    (∀ j, FrameBuffer.load t.decPrev j = 0#16) ∧ t.cfgOk = false ∧
    (∀ px : List Pixel, exec (.compress 0#8) { t with operand := .pixels px } =
      .next ({ t with operand := .pixels px }.faultEntry .config)) ∧
    ∀ (w : Byte) (input : List Byte), 1 ≤ w.toNat → w.toNat ≤ 32 →
      exec (.reconstruct w) { t with operand := .bytes input } =
        .next ({ t with operand := .bytes input }.faultEntry .config)) ∧
  State.reset = State.resetOf Config.maxPixels Config.params ∧ 19200 ≤ Config.maxPixels.toNat

/-- R132: the reset input puts every piece of the block's state at its value after reset, whatever command was in
progress; the block then waits for the host (log entry 2, DEDUCED). That the result record of an earlier command is
gone and that the parameters and the inputs presented later stay is the model's choice (log entry 12). -/
def Obligations.ResetInputRestoresResetState : Prop :=
  ∀ (s : State) (c : Option Command) (rest : List HostInput), s.inputs = .reset c :: rest →
    ∃ t, step s = .next t ∧ t.status = 0x00000000#32 ∧ t.rows = 0#32 ∧ t.cols = 0#32 ∧ t.cap = s.cap ∧
      (∀ j, FrameBuffer.load t.encPrev j = 0#16) ∧ (∀ j, FrameBuffer.load t.decPrev j = 0#16) ∧
      t.params = s.params ∧ t.result = none ∧ t.inputs = rest ∧ t.cfgOk = false ∧ (rest = [] → step t = .next t)

/-- The invariant holds right after reset, for every `MAX_PIXELS` of at least 19200. -/
def Obligations.ResetMeetsInvariant : Prop :=
  Safety.inv State.reset = true ∧
  ∀ (cap : Word) (ps : Params), 19200 ≤ cap.toNat → Safety.inv (State.resetOf cap ps) = true

/-- Every step keeps the invariant: reserved STATUS bits 0, FAULT_CODE 0 exactly while not faulted and a code of
R112 while faulted, CAP at least 19200, both frame buffers canonical with nothing at index `N` or `MAX_PIXELS` and
above (R22, R27, R28, R32, I19). -/
def Obligations.StepKeepsInvariant : Prop :=
  ∀ s t : State, Safety.inv s = true → step s = .next t → Safety.inv t = true

/-- R124: no step stops: every state steps to a next state. -/
def Obligations.EveryStepAnswersNext : Prop :=
  (∀ s : State, ∃ t, step s = .next t) ∧ ∀ (i : Instr) (s : State), ∃ t, exec i s = .next t

/-- R26: CAP reads as `MAX_PIXELS`, a write to it faults with E_BAD_ARG, and no step changes it; nor the other
parameters (R8). -/
def Obligations.CapAndParametersAreFixed : Prop :=
  (∀ s t : State, step s = .next t → t.cap = s.cap ∧ t.maxPixels = s.maxPixels ∧ t.params = s.params) ∧
  (∀ s : State, s.operand = .noOperand →
    exec (.csrRead 0x03#8) s = .next { s with result := some (.ok (.data (BitVec.ofNat 32 s.maxPixels))) }) ∧
  ∀ (s : State) (d : Word), s.faulted = false → s.operand = .data d →
    exec (.csrWrite 0x03#8) s = .next (s.faultEntry .badArg)

/-! ## Faults -/

/-- R116: when a command faults with code `e`, FAULTED is 1 and FAULT_CODE is `e`'s number, and everything else is
as before the command: TSOVF and the reserved bits of STATUS, ROWS, COLS, CAP, both frame buffers. -/
def Obligations.FaultEntryIsPrecise : Prop :=
  ∀ (s t : State) (c : Command) (rest : List HostInput) (e : FaultCode), s.inputs = .command c :: rest →
    step s = .next t → t.result = some (.fault e) →
    t.faulted = true ∧ t.faultCode = e.number ∧ t.tsovf = s.tsovf ∧
    Status.reserved t.status = Status.reserved s.status ∧ t.rows = s.rows ∧ t.cols = s.cols ∧ t.cap = s.cap ∧
    t.encPrev = s.encPrev ∧ t.decPrev = s.decPrev ∧ t.params = s.params ∧ t.inputs = rest ∧ t.operand = c.operand

/-- R117: while the block is faulted, a legal CSR_READ and SOFT_RESET with ARG 0 execute, each with RSVD 0 and no
operand; every other word is REJECTED and changes nothing. No command faults, and STATUS keeps its value as long as
the block stays faulted. -/
def Obligations.FaultedBlockRejects : Prop :=
  ∀ (s : State) (c : Command) (rest : List HostInput), s.faulted = true → s.inputs = .command c :: rest →
    (∀ n : Byte, n.toNat ≤ 3 → c = ⟨encode (.csrRead n), .noOperand⟩ →
      ∃ d, step s = .next { s.take c rest with result := some (.ok (.data d)) }) ∧
    (c = ⟨encode (.softReset 0#8), .noOperand⟩ →
      ∃ t, step s = .next t ∧ t.faulted = false ∧ t.result = some (.ok .nothing)) ∧
    ((∀ n : Byte, n.toNat ≤ 3 → c ≠ ⟨encode (.csrRead n), .noOperand⟩) →
      c ≠ ⟨encode (.softReset 0#8), .noOperand⟩ →
      step s = .next { s.take c rest with result := some .rejected }) ∧
    ∀ t, step s = .next t →
      (∀ e, t.result ≠ some (.fault e)) ∧ (t.faulted = true → t.status = s.status)

/-- R118: a step leaves the faulted state only by SOFT_RESET (word 0x0000000D, no operand) or the reset input, and
both leave it; no command faults while the block is faulted, so faults do not nest. -/
def Obligations.OnlySoftResetOrResetLeavesFaulted : Prop :=
  (∀ s t : State, s.faulted = true → step s = .next t → t.faulted = false →
    (∃ rest, s.inputs = .command ⟨0x0000000D#32, .noOperand⟩ :: rest) ∨ ∃ c rest, s.inputs = .reset c :: rest) ∧
  (∀ (s : State) (rest : List HostInput), s.faulted = true →
    s.inputs = .command ⟨0x0000000D#32, .noOperand⟩ :: rest ∨ (∃ c, s.inputs = .reset c :: rest) →
    ∃ t, step s = .next t ∧ t.faulted = false) ∧
  ∀ (s t : State) (c : Command) (rest : List HostInput) (e : FaultCode), s.faulted = true →
    s.inputs = .command c :: rest → step s = .next t → t.result ≠ some (.fault e)

/-- R54: a command given an operand of another kind faults with E_OPERAND, before any of its own checks; with an
operand of its kind it does not. -/
def Obligations.WrongOperandKindFaults : Prop :=
  ∀ (i : Instr) (s : State), s.faulted = false →
    (Safety.kindOk i s.operand = false → exec i s = .next (s.faultEntry .operand)) ∧
    (Safety.kindOk i s.operand = true → ∀ t, exec i s = .next t → t.result ≠ some (.fault .operand))

/-- R67, and R53 for the other commands: the legal values of ARG; with the right operand kind, an ARG that is not
legal for the command faults with E_WIDTH (`PACK`, `UNPACK`, `RECONSTRUCT`) or E_BAD_ARG (the others), before any
other check of its own, and a legal ARG raises neither. -/
def Obligations.IllegalArgumentsFault : Prop :=
  (∀ a : Byte,
    ((Instr.pack a).wellFormed = true ↔ 1 ≤ a.toNat ∧ a.toNat ≤ 32) ∧
    ((Instr.unpack a).wellFormed = true ↔ 1 ≤ a.toNat ∧ a.toNat ≤ 32) ∧
    ((Instr.reconstruct a).wellFormed = true ↔ 1 ≤ a.toNat ∧ a.toNat ≤ 32) ∧
    (Instr.fieldEnc a).wellFormed = true ∧
    ((Instr.sectionEnc a).wellFormed = true ↔ a = 0x48#8 ∨ a = 0x46#8) ∧
    ((Instr.sectionDec a).wellFormed = true ↔ a = 0x48#8 ∨ a = 0x46#8) ∧
    ((Instr.csrRead a).wellFormed = true ↔ a.toNat ≤ 3) ∧ ((Instr.csrWrite a).wellFormed = true ↔ a.toNat ≤ 2) ∧
    ∀ i : Instr, i = .fieldDec a ∨ i = .compress a ∨ i = .clrEnc a ∨ i = .clrDec a ∨ i = .softReset a →
      (i.wellFormed = true ↔ a = 0#8)) ∧
  ∀ (i : Instr) (s : State), s.faulted = false → Safety.kindOk i s.operand = true →
    (i.wellFormed = false → exec i s = .next (s.faultEntry (Safety.argumentFault i))) ∧
    (i.wellFormed = true → ∀ t, exec i s = .next t →
      t.result ≠ some (.fault .width) ∧ t.result ≠ some (.fault .badArg))

/-- R112: a command raises only the codes whose "raised by" column names it, so `RECONSTRUCT` never raises
E_TRUNCATED, and E_ILLEGAL_OP and E_RESERVED come only from words that are no command. -/
def Obligations.FaultsRaisedOnlyByTheirCommands : Prop :=
  ∀ (i : Instr) (s t : State) (e : FaultCode), exec i s = .next t → t.result = some (.fault e) →
    Safety.mayRaise i e = true

/-- R112: the code of each fault, in the order of the table, and no two share one. -/
def Obligations.FaultCodeNumbers : Prop :=
  ([FaultCode.illegalOp, .reserved, .badArg, .operand, .width, .packRange, .truncated, .config, .dimension,
    .payloadLength, .pixelRange, .fieldLength, .fieldTooLong, .typeMismatch, .fieldCount, .dupField, .sectionType,
    .string].map fun e => e.number.toNat) = (List.range 18).map (· + 1) ∧
  ∀ e f : FaultCode, e.number = f.number → e = f

/-! ## Frames: what commands leave alone -/

/-- R22: FAULTED and FAULT_CODE change only by fault entry and SOFT_RESET; TSOVF is set only by FIELD_DEC and
SECTION_DEC and cleared only by CSR_WRITE to STATUS and SOFT_RESET. -/
def Obligations.StatusFieldsWrittenOnlyByTheirCommands : Prop :=
  ∀ (i : Instr) (s t : State), exec i s = .next t →
    (t.faulted ≠ s.faulted ∨ t.faultCode ≠ s.faultCode → (∃ e, t.result = some (.fault e)) ∨ i = .softReset 0#8) ∧
    (s.tsovf = false → t.tsovf = true → Safety.setsTsovf i = true) ∧
    (s.tsovf = true → t.tsovf = false → i = .csrWrite 0x00#8 ∨ i = .softReset 0#8) ∧
    (i ≠ .softReset 0#8 → Status.reserved t.status = Status.reserved s.status)

/-- The frame of PACK, UNPACK, FIELD_ENC, FIELD_DEC, SECTION_ENC, SECTION_DEC and CSR_READ: whatever the result,
only STATUS and the result change; STATUS changes only by fault entry, or, in FIELD_DEC and SECTION_DEC, by TSOVF.
-/
def Obligations.CodecCommandsFrame : Prop :=
  ∀ (i : Instr) (s t : State), Safety.codecCommand i = true → exec i s = .next t →
    t.rows = s.rows ∧ t.cols = s.cols ∧ t.cap = s.cap ∧ t.params = s.params ∧ t.inputs = s.inputs ∧
    t.operand = s.operand ∧ (∀ j, FrameBuffer.load t.encPrev j = FrameBuffer.load s.encPrev j) ∧
    (∀ j, FrameBuffer.load t.decPrev j = FrameBuffer.load s.decPrev j) ∧
    (t.status = s.status ∨ (∃ e, t.result = some (.fault e) ∧ t.status = Status.setFault s.status e) ∨
      (Safety.setsTsovf i = true ∧ t.status = Status.setTsovf s.status))

/-- The frame of COMPRESS and CLR_ENC (R27, R28, R29): only ENC_PREV, STATUS (by fault entry) and the result
change; COMPRESS changes no element of ENC_PREV at index `N` or above, and neither command changes any unless it
completes. The frame of RECONSTRUCT and CLR_DEC is the same with DEC_PREV. -/
def Obligations.FrameCommandsFrame : Prop :=
  (∀ (i : Instr) (a : Byte) (s t : State), i = .compress a ∨ i = .clrEnc a → exec i s = .next t →
    t.rows = s.rows ∧ t.cols = s.cols ∧ t.cap = s.cap ∧ t.params = s.params ∧ t.inputs = s.inputs ∧
    t.operand = s.operand ∧ (∀ j, FrameBuffer.load t.decPrev j = FrameBuffer.load s.decPrev j) ∧
    (∀ j, i = .compress a → s.pixelCount ≤ j → FrameBuffer.load t.encPrev j = FrameBuffer.load s.encPrev j) ∧
    ((∀ o, t.result ≠ some (.ok o)) → ∀ j, FrameBuffer.load t.encPrev j = FrameBuffer.load s.encPrev j) ∧
    (t.status = s.status ∨ ∃ e, t.result = some (.fault e) ∧ t.status = Status.setFault s.status e)) ∧
  ∀ (i : Instr) (a : Byte) (s t : State), i = .reconstruct a ∨ i = .clrDec a → exec i s = .next t →
    t.rows = s.rows ∧ t.cols = s.cols ∧ t.cap = s.cap ∧ t.params = s.params ∧ t.inputs = s.inputs ∧
    t.operand = s.operand ∧ (∀ j, FrameBuffer.load t.encPrev j = FrameBuffer.load s.encPrev j) ∧
    (∀ j, i = .reconstruct a → s.pixelCount ≤ j →
      FrameBuffer.load t.decPrev j = FrameBuffer.load s.decPrev j) ∧
    ((∀ o, t.result ≠ some (.ok o)) → ∀ j, FrameBuffer.load t.decPrev j = FrameBuffer.load s.decPrev j) ∧
    (t.status = s.status ∨ ∃ e, t.result = some (.fault e) ∧ t.status = Status.setFault s.status e)

/-- The frame of CSR_WRITE and SOFT_RESET: CSR_WRITE changes ROWS only as number 0x01, COLS only as 0x02, the frame
buffers only as one of the two, and of STATUS only TSOVF, as number 0x00 (or by fault entry). SOFT_RESET keeps ROWS
and COLS. Neither changes CAP or a parameter. -/
def Obligations.ControlCommandsFrame : Prop :=
  (∀ (n : Byte) (s t : State), exec (.csrWrite n) s = .next t →
    t.cap = s.cap ∧ t.params = s.params ∧ t.inputs = s.inputs ∧ t.operand = s.operand ∧
    (n ≠ 0x01#8 → t.rows = s.rows) ∧ (n ≠ 0x02#8 → t.cols = s.cols) ∧
    (n ≠ 0x01#8 → n ≠ 0x02#8 → (∀ j, FrameBuffer.load t.encPrev j = FrameBuffer.load s.encPrev j) ∧
      ∀ j, FrameBuffer.load t.decPrev j = FrameBuffer.load s.decPrev j) ∧
    (t.status = s.status ∨ (n = 0x00#8 ∧ t.status = Status.clearTsovf s.status) ∨
      ∃ e, t.result = some (.fault e) ∧ t.status = Status.setFault s.status e)) ∧
  ∀ (a : Byte) (s t : State), exec (.softReset a) s = .next t →
    t.rows = s.rows ∧ t.cols = s.cols ∧ t.cap = s.cap ∧ t.params = s.params ∧ t.inputs = s.inputs ∧
    t.operand = s.operand ∧
    (a ≠ 0#8 → (∀ j, FrameBuffer.load t.encPrev j = FrameBuffer.load s.encPrev j) ∧
      ∀ j, FrameBuffer.load t.decPrev j = FrameBuffer.load s.decPrev j)

/-- R29: the two frame buffers are separate: what DEC_PREV holds reaches nothing but DEC_PREV through any command
other than RECONSTRUCT, which leaves ENC_PREV alone; and the same with the sides exchanged. -/
def Obligations.FrameBuffersAreSeparate : Prop :=
  (∀ (i : Instr) (s t : State) (b : FrameBuffer), (∀ w, i ≠ .reconstruct w) → exec i s = .next t →
    ∃ b', exec i { s with decPrev := b } = .next { t with decPrev := b' }) ∧
  (∀ (w : Byte) (s t : State), exec (.reconstruct w) s = .next t → t.encPrev = s.encPrev) ∧
  (∀ (i : Instr) (s t : State) (b : FrameBuffer), (∀ a, i ≠ .compress a) → exec i s = .next t →
    ∃ b', exec i { s with encPrev := b } = .next { t with encPrev := b' }) ∧
  ∀ (a : Byte) (s t : State), exec (.compress a) s = .next t → t.decPrev = s.decPrev

/-! ## Bit packing -/

/-- R74: PACK. With OPCODE 0x01: E_WIDTH for a width other than 1 to 32; else E_PACK_RANGE when some value lies
outside `-2^w .. 2^w-1`; else OK with the packed stream (R59) of the fields `v mod 2^w` (R68), and nothing but the
result changes. -/
def Obligations.PackCompletes : Prop :=
  ∀ (w : Byte) (vs : List DoubleWord) (s : State), s.faulted = false → s.operand = .values vs →
    (encode (.pack w)).toNat = w.toNat * 256 + 0x01 ∧
    (¬ (1 ≤ w.toNat ∧ w.toNat ≤ 32) → exec (.pack w) s = .next (s.faultEntry .width)) ∧
    (1 ≤ w.toNat → w.toNat ≤ 32 →
      (∃ v ∈ vs, v.toInt < -(2 : Int) ^ w.toNat ∨ (2 : Int) ^ w.toNat - 1 < v.toInt) →
      exec (.pack w) s = .next (s.faultEntry .packRange)) ∧
    (1 ≤ w.toNat → w.toNat ≤ 32 →
      (∀ v ∈ vs, -(2 : Int) ^ w.toNat ≤ v.toInt ∧ v.toInt ≤ (2 : Int) ^ w.toNat - 1) →
      exec (.pack w) s = .next { s with
        result := some (.ok (.out (packedStream w.toNat (vs.map fun v => encBits w.toNat v.toInt)))) })

/-- R75: UNPACK. With OPCODE 0x02: E_WIDTH for a width other than 1 to 32; else E_TRUNCATED when the input has
fewer than `ceil_div(n*w, 8)` bytes; else OK with value `i` the sign-extended bits `i*w .. i*w+w` of the input read
MSB-first (R72), `consumed` that many bytes, and nothing but the result changes. -/
def Obligations.UnpackCompletes : Prop :=
  ∀ (w : Byte) (n : Word) (input : List Byte) (s : State), s.faulted = false → s.operand = .countBytes n input →
    (encode (.unpack w)).toNat = w.toNat * 256 + 0x02 ∧
    (¬ (1 ≤ w.toNat ∧ w.toNat ≤ 32) → exec (.unpack w) s = .next (s.faultEntry .width)) ∧
    (1 ≤ w.toNat → w.toNat ≤ 32 → input.length < ceilDiv (n.toNat * w.toNat) 8 →
      exec (.unpack w) s = .next (s.faultEntry .truncated)) ∧
    (1 ≤ w.toNat → w.toNat ≤ 32 → ceilDiv (n.toNat * w.toNat) 8 ≤ input.length →
      exec (.unpack w) s = .next { s with
        result := some (.ok (.values
          ((List.range n.toNat).map fun i => sextBits w.toNat (inputField input w.toNat i))
          (ceilDiv (n.toNat * w.toNat) 8))) })

/-- R70, R59: the algorithm over the 40-bit scratch register gives exactly the packed stream of the fields `v mod
2^w`, of `ceil_div(n*w, 8)` bytes, at every legal width and for every sequence of integers. -/
def Obligations.PackMatchesPackedStream : Prop :=
  ∀ (w : Nat) (vs : List Int), 1 ≤ w → w ≤ 32 →
    pack w vs = packedStream w (vs.map (encBits w)) ∧ (pack w vs).length = ceilDiv (vs.length * w) 8

/-- R76 (an inference the spec marks as its own, from R70, R72 and R73): UNPACK with `count = n` of a packed
sequence of `n` values in the two's-complement range and any bytes after it gives the sequence back, and consumes
`ceil_div(n*w, 8)` bytes. -/
def Obligations.PackUnpackRoundTrip : Prop :=
  (∀ (w : Nat) (vs : List Int) (rest : List Byte), 1 ≤ w → w ≤ 32 →
    (∀ v ∈ vs, -(2 : Int) ^ (w - 1) ≤ v ∧ v ≤ (2 : Int) ^ (w - 1) - 1) →
    unpack (pack w vs ++ rest) w vs.length = .ok (vs, ceilDiv (vs.length * w) 8)) ∧
  ∀ (w : Byte) (n : Word) (vs : List DoubleWord) (bytes rest : List Byte) (s t : State), s.faulted = false →
    n.toNat = vs.length →
    (∀ v ∈ vs, -(2 : Int) ^ (w.toNat - 1) ≤ v.toInt ∧ v.toInt ≤ (2 : Int) ^ (w.toNat - 1) - 1) →
    exec (.pack w) { s with operand := .values vs } = .next t → t.result = some (.ok (.out bytes)) →
    exec (.unpack w) { s with operand := .countBytes n (bytes ++ rest) } = .next { s with
      operand := .countBytes n (bytes ++ rest)
      result := some (.ok (.values (vs.map BitVec.toInt) (ceilDiv (vs.length * w.toNat) 8))) }

/-- R73: two inputs of one length that agree in the first `n*w` bits unpack alike, so padding bits are neither a
fault nor visible. -/
def Obligations.PaddingBitsIgnored : Prop :=
  ∀ (w n : Nat) (a b : List Byte), 1 ≤ w → w ≤ 32 → a.length = b.length →
    (∀ j, j < n * w → inputBit a j = inputBit b j) → unpack a w n = unpack b w n

/-- R69 (an inference the spec marks as its own): a value PACK accepts that lies above (below) the two's-complement
range unpacks `2^w` lower (higher). -/
def Obligations.UnrepresentableValuesWrap : Prop :=
  ∀ (w : Nat) (vs : List Int), 1 ≤ w → w ≤ 32 →
    (∀ v ∈ vs, -(2 : Int) ^ w ≤ v ∧ v ≤ (2 : Int) ^ w - 1) →
    unpack (pack w vs) w vs.length =
      .ok (vs.map fun v => if (2 : Int) ^ (w - 1) ≤ v then v - 2 ^ w else if v < -(2 : Int) ^ (w - 1) then v + 2 ^ w
        else v, ceilDiv (vs.length * w) 8)

/-! ## Tagged fields -/

/-- R88, R86: FIELD_ENC. With OPCODE 0x03: E_TYPE_MISMATCH when the value's raw type is not the code's; else
E_FIELD_TOO_LONG above 255 value bytes; else OK with the field of the value bytes, and nothing but the result
changes. -/
def Obligations.FieldEncCompletes : Prop :=
  ∀ (code : Byte) (v : FieldValue) (s : State), s.faulted = false → s.operand = .value v →
    (encode (.fieldEnc code)).toNat = code.toNat * 256 + 0x03 ∧
    (v.rawType ≠ typeOf code → exec (.fieldEnc code) s = .next (s.faultEntry .typeMismatch)) ∧
    (v.rawType = typeOf code → 255 < v.bytes.length →
      exec (.fieldEnc code) s = .next (s.faultEntry .fieldTooLong)) ∧
    (v.rawType = typeOf code → v.bytes.length ≤ 255 →
      exec (.fieldEnc code) s = .next { s with result := some (.ok (.out (fieldFormat code v.bytes))) })

/-- R89, R87, R85: FIELD_DEC, word 0x00000004, on an input that ends inside the two header bytes, and on a length
byte, a code and the bytes after them: a timestamp reads 8 bytes whatever its length byte, and a count above
`TS_MAX_US` becomes 0 and sets TSOVF; any other field reads its length, and then its length and its string are
checked. -/
def Obligations.FieldDecCompletes : Prop :=
  encode (.fieldDec 0#8) = 0x00000004#32 ∧
  (∀ (input : List Byte) (s : State), s.faulted = false → s.operand = .bytes input → input.length < 2 →
    exec (.fieldDec 0#8) s = .next (s.faultEntry .truncated)) ∧
  ∀ (len code : Byte) (rest : List Byte) (s : State), s.faulted = false →
    s.operand = .bytes (len :: code :: rest) →
    (typeOf code = .ts → rest.length < 8 → exec (.fieldDec 0#8) s = .next (s.faultEntry .truncated)) ∧
    (typeOf code = .ts → 8 ≤ rest.length → fromLe (rest.take 8) ≤ s.params.tsMaxUs →
      exec (.fieldDec 0#8) s = .next { s with
        result := some (.ok (.field ⟨code, .ts, .ts (BitVec.ofNat 64 (fromLe (rest.take 8)))⟩ 10)) }) ∧
    (typeOf code = .ts → 8 ≤ rest.length → s.params.tsMaxUs < fromLe (rest.take 8) →
      exec (.fieldDec 0#8) s = .next { s with
        status := s.status ||| 0x00000002#32, result := some (.ok (.field ⟨code, .ts, .ts 0#64⟩ 10)) }) ∧
    (typeOf code ≠ .ts → rest.length < len.toNat → exec (.fieldDec 0#8) s = .next (s.faultEntry .truncated)) ∧
    (typeOf code ≠ .ts → len.toNat ≤ rest.length → (∃ n, (typeOf code).size? = some n ∧ n ≠ len.toNat) →
      exec (.fieldDec 0#8) s = .next (s.faultEntry .fieldLength)) ∧
    (typeOf code = .str → len.toNat ≤ rest.length → s.params.stringCheck = .utf8 →
      wellFormedUtf8 (rest.take len.toNat) = false → exec (.fieldDec 0#8) s = .next (s.faultEntry .string)) ∧
    (typeOf code ≠ .ts → len.toNat ≤ rest.length → (∀ n, (typeOf code).size? = some n → n = len.toNat) →
      (typeOf code = .str → s.params.stringCheck = .utf8 → wellFormedUtf8 (rest.take len.toNat) = true) →
      exec (.fieldDec 0#8) s = .next { s with
        result := some (.ok (.field ⟨code, typeOf code, valueOf (typeOf code) (rest.take len.toNat)⟩
          (2 + len.toNat))) })

/-- R90: SECTION_ENC. With OPCODE 0x05: E_BAD_ARG for a tag other than `'H'` or `'F'`; E_FIELD_COUNT above 255
fields; E_DUP_FIELD when a code appears twice; then the fault of the first field that fails; else OK with the
section of the encoded fields in operand order, and nothing but the result changes. -/
def Obligations.SectionEncCompletes : Prop :=
  ∀ (tag : Byte) (fs : List (Byte × FieldValue)) (s : State), s.faulted = false → s.operand = .fields fs →
    (encode (.sectionEnc tag)).toNat = tag.toNat * 256 + 0x05 ∧
    (tag ≠ 0x48#8 → tag ≠ 0x46#8 → exec (.sectionEnc tag) s = .next (s.faultEntry .badArg)) ∧
    (tag = 0x48#8 ∨ tag = 0x46#8 → 255 < fs.length → exec (.sectionEnc tag) s = .next (s.faultEntry .fieldCount)) ∧
    (tag = 0x48#8 ∨ tag = 0x46#8 → fs.length ≤ 255 → ¬ (fs.map Prod.fst).Nodup →
      exec (.sectionEnc tag) s = .next (s.faultEntry .dupField)) ∧
    (tag = 0x48#8 ∨ tag = 0x46#8 → fs.length ≤ 255 → (fs.map Prod.fst).Nodup →
      ∀ (pre post : List (Byte × FieldValue)) (code : Byte) (v : FieldValue), fs = pre ++ (code, v) :: post →
        (∀ f ∈ pre, Safety.encodable f) →
        (v.rawType ≠ typeOf code → exec (.sectionEnc tag) s = .next (s.faultEntry .typeMismatch)) ∧
        (v.rawType = typeOf code → 255 < v.bytes.length →
          exec (.sectionEnc tag) s = .next (s.faultEntry .fieldTooLong))) ∧
    (tag = 0x48#8 ∨ tag = 0x46#8 → fs.length ≤ 255 → (fs.map Prod.fst).Nodup → (∀ f ∈ fs, Safety.encodable f) →
      exec (.sectionEnc tag) s = .next { s with
        result := some (.ok (.out (sectionFormat tag (fs.map fun f => fieldFormat f.1 f.2.bytes)))) })

/-- R91: SECTION_DEC. With OPCODE 0x06: E_BAD_ARG for an expected tag other than `'H'` or `'F'`; END on an empty
input; E_SECTION_TYPE when the first byte is not the tag; E_TRUNCATED on the tag alone; then, field after field,
the fault of the first field that has one; else OK with the fields in order, `consumed` the bytes of the section,
TSOVF set when some field overflowed, and nothing else changed. -/
def Obligations.SectionDecCompletes : Prop :=
  (∀ (tag : Byte) (input : List Byte) (s : State), s.faulted = false → s.operand = .bytes input →
    (encode (.sectionDec tag)).toNat = tag.toNat * 256 + 0x06 ∧
    (tag ≠ 0x48#8 → tag ≠ 0x46#8 → exec (.sectionDec tag) s = .next (s.faultEntry .badArg)) ∧
    (tag = 0x48#8 ∨ tag = 0x46#8 → input = [] →
      exec (.sectionDec tag) s = .next { s with result := some .endOfStream }) ∧
    (tag = 0x48#8 ∨ tag = 0x46#8 → ∀ b rest, input = b :: rest → b ≠ tag →
      exec (.sectionDec tag) s = .next (s.faultEntry .sectionType)) ∧
    (tag = 0x48#8 ∨ tag = 0x46#8 → input = [tag] → exec (.sectionDec tag) s = .next (s.faultEntry .truncated))) ∧
  ∀ (tag cnt : Byte) (pieces : List (List Byte × FieldRead)) (rest : List Byte) (s : State), s.faulted = false →
    tag = 0x48#8 ∨ tag = 0x46#8 →
    s.operand = .bytes (tag :: cnt :: ((pieces.map Prod.fst).flatten ++ rest)) →
    (∀ p ∈ pieces, Safety.decodesAs s.params p) →
    (cnt.toNat = pieces.length →
      exec (.sectionDec tag) s = .next { s with
        status := if pieces.any (fun p => p.2.overflow) then s.status ||| 0x00000002#32 else s.status
        result := some (.ok (.fields tag (pieces.map fun p => p.2.field)
          (2 + ((pieces.map Prod.fst).flatten).length))) }) ∧
    (pieces.length < cnt.toNat → ∀ e, decodeField s.params rest 0 = .error e →
      exec (.sectionDec tag) s = .next (s.faultEntry e))

/-- R93 (an inference the spec marks as its own): SECTION_DEC with the same tag gives back the fields SECTION_ENC
accepted, each with its raw type, in order, consuming the whole output and leaving any bytes after it, provided no
timestamp exceeds `TS_MAX_US` and, with `STRING_CHECK = UTF8`, every string is well-formed. -/
def Obligations.SectionRoundTrip : Prop :=
  ∀ (tag : Byte) (fs : List (Byte × FieldValue)) (out rest : List Byte) (s t : State), s.faulted = false →
    exec (.sectionEnc tag) { s with operand := .fields fs } = .next t → t.result = some (.ok (.out out)) →
    (∀ code us, (code, FieldValue.ts us) ∈ fs → us.toNat ≤ s.params.tsMaxUs) →
    (s.params.stringCheck = .utf8 → ∀ code bs, (code, FieldValue.str bs) ∈ fs → wellFormedUtf8 bs = true) →
    exec (.sectionDec tag) { s with operand := .bytes (out ++ rest) } = .next { s with
      operand := .bytes (out ++ rest)
      result := some (.ok (.fields tag (fs.map fun f => ⟨f.1, f.2.rawType, f.2⟩) out.length)) }

/-- R92 (an inference the spec marks as its own): inserting a field of an unlisted code anywhere among the fields
of a section that decodes, and counting it, gives a section that decodes to the same fields in the same order with
the extra OPAQUE field at its place, consuming `L + 2` bytes more. -/
def Obligations.UnknownFieldTolerated : Prop :=
  ∀ (tag code : Byte) (before after : List (List Byte × FieldRead)) (value rest : List Byte) (s : State),
    s.faulted = false → tag = 0x48#8 ∨ tag = 0x46#8 → typeOf code = .blob → value.length ≤ 255 →
    before.length + after.length < 255 → (∀ p ∈ before ++ after, Safety.decodesAs s.params p) →
    ∃ (t u : State) (n : Nat),
      exec (.sectionDec tag) { s with operand := .bytes (tag :: BitVec.ofNat 8 (before.length + after.length) ::
        ((before.map Prod.fst).flatten ++ (after.map Prod.fst).flatten ++ rest)) } = .next t ∧
      t.result = some (.ok (.fields tag ((before ++ after).map fun p => p.2.field) n)) ∧
      exec (.sectionDec tag) { s with operand := .bytes (tag :: BitVec.ofNat 8 (before.length + after.length + 1) ::
        ((before.map Prod.fst).flatten ++ fieldFormat code value ++ (after.map Prod.fst).flatten ++ rest)) }
        = .next u ∧
      u.result = some (.ok (.fields tag ((before.map fun p => p.2.field) ++ ⟨code, .blob, .blob value⟩ ::
        after.map fun p => p.2.field) (n + (value.length + 2)))) ∧ u.status = t.status

/-- R91 (E11): an input cut strictly inside a section that decodes faults with E_TRUNCATED. -/
def Obligations.TruncatedSectionFaults : Prop :=
  ∀ (tag : Byte) (input : List Byte) (s t : State) (tag' : Byte) (fs : List DecodedField) (n k : Nat),
    s.faulted = false → exec (.sectionDec tag) { s with operand := .bytes input } = .next t →
    t.result = some (.ok (.fields tag' fs n)) → 0 < k → k < n →
    exec (.sectionDec tag) { s with operand := .bytes (input.take k) } =
      .next ({ s with operand := .bytes (input.take k) }.faultEntry .truncated)

/-- R43: UNPACK, FIELD_DEC and SECTION_DEC do not read past the bytes they consume: bytes appended to an input on
which one completes change nothing. -/
def Obligations.TrailingBytesNotRead : Prop :=
  (∀ (i : Instr) (a : Byte) (input rest : List Byte) (s t : State) (o : Outputs), i = .fieldDec a ∨ i = .sectionDec a →
    exec i { s with operand := .bytes input } = .next t → t.result = some (.ok o) →
    exec i { s with operand := .bytes (input ++ rest) } = .next { t with operand := .bytes (input ++ rest) }) ∧
  ∀ (w : Byte) (n : Word) (input rest : List Byte) (s t : State) (o : Outputs),
    exec (.unpack w) { s with operand := .countBytes n input } = .next t → t.result = some (.ok o) →
    exec (.unpack w) { s with operand := .countBytes n (input ++ rest) } =
      .next { t with operand := .countBytes n (input ++ rest) }

/-- R84, G5: the model's choice of what is well-formed UTF-8 (log entry 9, PRESUMED): exactly the concatenations of
the UTF-8 forms of Unicode scalar values. -/
def Obligations.Utf8MatchesScalarEncodings : Prop :=
  ∀ s : List Byte, wellFormedUtf8 s = true ↔
    ∃ cs : List Nat, (∀ c ∈ cs, Safety.isScalar c) ∧ s = cs.flatMap Safety.utf8OfScalar

/-- R80 (an inference the spec marks as its own): the timestamp codes, those of raw type TS, are the one code `T`
(0x54); TIME_ON (`t`) and LAST_FFC_TIME (`c`) are U32. -/
def Obligations.TimestampCodeIsT : Prop :=
  (∀ code : Byte, typeOf code = .ts ↔ code = 0x54#8) ∧ typeOf 0x74#8 = .u32 ∧ typeOf 0x63#8 = .u32

/-! ## Frames -/

/-- R95 (an inference the spec marks as its own): the snake order of a resolution visits every row-major position
below `N` exactly once. -/
def Obligations.SnakeOrderVisitsEveryPixelOnce : Prop :=
  ∀ rows cols : Nat, 1 ≤ rows → 1 ≤ cols →
    (snakeOrder cols (rows * cols)).length = rows * cols ∧
    (∀ k, k < rows * cols → snakePos cols k < rows * cols) ∧
    (∀ k l, k < rows * cols → l < rows * cols → snakePos cols k = snakePos cols l → k = l) ∧
    ∀ j, j < rows * cols → ∃ k, k < rows * cols ∧ snakePos cols k = j

/-- R96, and R97 with its range (an inference the spec marks as its own): `delta_snake` and AdjacentDelta, element
by element, with their lengths and ranges. -/
def Obligations.DeltaSequences : Prop :=
  ∀ (cols n : Nat) (cur : List Pixel) (prev : FrameBuffer),
    (snakeDeltas cols n cur prev).length = n ∧
    (adjacentDeltas (snakeDeltas cols n cur prev)).length = n - 1 ∧
    (∀ k, k < n →
      (snakeDeltas cols n cur prev).getD k 0 =
        ((cur.getD (snakePos cols k) 0#16).toNat : Int) - (FrameBuffer.load prev (snakePos cols k)).toNat ∧
      -65535 ≤ (snakeDeltas cols n cur prev).getD k 0 ∧ (snakeDeltas cols n cur prev).getD k 0 ≤ 65535) ∧
    ∀ i, i + 1 < n →
      (adjacentDeltas (snakeDeltas cols n cur prev)).getD i 0 =
        (snakeDeltas cols n cur prev).getD (i + 1) 0 - (snakeDeltas cols n cur prev).getD i 0 ∧
      -131070 ≤ (adjacentDeltas (snakeDeltas cols n cur prev)).getD i 0 ∧
      (adjacentDeltas (snakeDeltas cols n cur prev)).getD i 0 ≤ 131070

/-- R13 (the spec's general-knowledge passage G3, log entry 10): `bit_length(m)` is the least `b` with `m < 2^b`,
and `bit_length(0) = 0`. -/
def Obligations.BitLengthIsLeast : Prop :=
  (∀ m : Nat, m < 2 ^ bitLength m ∧ ∀ b, m < 2 ^ b → bitLength m ≤ b) ∧ bitLength 0 = 0 ∧ bitLength 1 = 1 ∧
  bitLength 4 = 3

/-- R98: the bit width is `bit_length(M) + 1`, `M` the largest magnitude of AdjacentDelta, and lies in 1 to 18 for
every frame (a range the spec marks as its own inference); an all-equal-delta frame has width 1. -/
def Obligations.FrameBitWidthFormula : Prop :=
  (∀ adj : List Int, adj ≠ [] → ∃ m : Nat, frameBitWidth adj = bitLength m + 1 ∧ (∃ a ∈ adj, a.natAbs = m) ∧
    ∀ a ∈ adj, a.natAbs ≤ m) ∧
  (∀ (cols n : Nat) (cur : List Pixel) (prev : FrameBuffer),
    1 ≤ frameBitWidth (adjacentDeltas (snakeDeltas cols n cur prev)) ∧
    frameBitWidth (adjacentDeltas (snakeDeltas cols n cur prev)) ≤ 18) ∧
  ∀ adj : List Int, (∀ a ∈ adj, a = 0) → frameBitWidth adj = 1

/-- R99 (an inference the spec marks as its own): every AdjacentDelta value lies in the two's-complement range of
the frame's bit width, so packing it there faults on none and unpacks unchanged. -/
def Obligations.DeltasFitBitWidth : Prop :=
  (∀ adj : List Int, ∀ a ∈ adj,
    -(2 : Int) ^ (frameBitWidth adj - 1) ≤ a ∧ a ≤ (2 : Int) ^ (frameBitWidth adj - 1) - 1 ∧
    packable (frameBitWidth adj) a = true) ∧
  ∀ (cols n : Nat) (cur : List Pixel) (prev : FrameBuffer),
    let adj := adjacentDeltas (snakeDeltas cols n cur prev)
    unpack (pack (frameBitWidth adj) adj) (frameBitWidth adj) adj.length =
      .ok (adj, ceilDiv (adj.length * frameBitWidth adj) 8)

/-- R100 (an inference the spec marks as its own): the width of R98 is the least that holds every AdjacentDelta
value, except when the largest magnitude is `2^j` and `+2^j` does not occur: then the least is one below it. -/
def Obligations.BitWidthMinimalExceptNegativePower : Prop :=
  ∀ adj : List Int, adj ≠ [] →
    ((¬ ∃ j : Nat, maxMagnitude adj = 2 ^ j ∧ ((2 : Int) ^ j) ∉ adj) →
      Safety.fits (frameBitWidth adj) adj ∧ ∀ w, Safety.fits w adj → frameBitWidth adj ≤ w) ∧
    ((∃ j : Nat, maxMagnitude adj = 2 ^ j ∧ ((2 : Int) ^ j) ∉ adj) →
      Safety.fits (frameBitWidth adj - 1) adj ∧ ∀ w, Safety.fits w adj → frameBitWidth adj - 1 ≤ w)

/-- R102, R60, R101: COMPRESS, word 0x00000007. E_BAD_ARG for ARG other than 0; else E_CONFIG when `cfg_ok` is
false; else E_DIMENSION when the pixel count is not `N`; else OK with the bit width of the AdjacentDelta sequence,
the payload of the initial value and that sequence, and its length; ENC_PREV's first `N` elements become the
pixels, and nothing else but the result changes. -/
def Obligations.CompressCompletes : Prop :=
  encode (.compress 0#8) = 0x00000007#32 ∧
  ∀ (a : Byte) (px : List Pixel) (s : State), s.faulted = false → s.operand = .pixels px →
    (a ≠ 0#8 → exec (.compress a) s = .next (s.faultEntry .badArg)) ∧
    (s.cfgOk = false → exec (.compress 0#8) s = .next (s.faultEntry .config)) ∧
    (s.cfgOk = true → px.length ≠ s.pixelCount → exec (.compress 0#8) s = .next (s.faultEntry .dimension)) ∧
    (s.cfgOk = true → px.length = s.pixelCount →
      ∀ d : List Int, d.length = s.pixelCount →
        (∀ k, k < s.pixelCount → d.getD k 0 = ((px.getD (snakePos s.cols.toNat k) 0#16).toNat : Int)
          - (FrameBuffer.load s.encPrev (snakePos s.cols.toNat k)).toNat) →
        ∃ b : FrameBuffer,
          (∀ j, FrameBuffer.load b j = if j < s.pixelCount then px.getD j 0#16 else FrameBuffer.load s.encPrev j) ∧
          exec (.compress 0#8) s = .next { s with
            encPrev := b
            result := some (.ok (.compressed (frameBitWidth (adjacentDeltas d))
              (framePayload (frameBitWidth (adjacentDeltas d)) (d.getD 0 0) (adjacentDeltas d))
              (4 + ceilDiv ((s.pixelCount - 1) * frameBitWidth (adjacentDeltas d)) 8))) } ∧
          (framePayload (frameBitWidth (adjacentDeltas d)) (d.getD 0 0) (adjacentDeltas d)).length =
            4 + ceilDiv ((s.pixelCount - 1) * frameBitWidth (adjacentDeltas d)) 8)

/-- R106, R104, R105: RECONSTRUCT, OPCODE 0x09. E_WIDTH, then E_CONFIG, then E_PAYLOAD_LENGTH for a length other
than `4 + ceil_div((N-1)*w, 8)`, then E_PIXEL_RANGE when some pixel lies outside 0 to 65535 and `RECON_OVERFLOW` is
FAULT; else OK with pixel `pos(k)` being `DEC_PREV[pos(k)] + d[k]` modulo 2^16, which is that sum where it is in
range; DEC_PREV's first `N` elements become the pixels, and nothing else but the result changes. -/
def Obligations.ReconstructCompletes : Prop :=
  ∀ (w : Byte) (input : List Byte) (s : State), s.faulted = false → s.operand = .bytes input →
    (encode (.reconstruct w)).toNat = w.toNat * 256 + 0x09 ∧
    (¬ (1 ≤ w.toNat ∧ w.toNat ≤ 32) → exec (.reconstruct w) s = .next (s.faultEntry .width)) ∧
    (1 ≤ w.toNat → w.toNat ≤ 32 → s.cfgOk = false → exec (.reconstruct w) s = .next (s.faultEntry .config)) ∧
    (1 ≤ w.toNat → w.toNat ≤ 32 → s.cfgOk = true →
      input.length ≠ 4 + ceilDiv ((s.pixelCount - 1) * w.toNat) 8 →
      exec (.reconstruct w) s = .next (s.faultEntry .payloadLength)) ∧
    (1 ≤ w.toNat → w.toNat ≤ 32 → s.cfgOk = true →
      input.length = 4 + ceilDiv ((s.pixelCount - 1) * w.toNat) 8 →
      ∀ v : Nat → Int,
        (∀ k, v k = (FrameBuffer.load s.decPrev (snakePos s.cols.toNat k)).toNat + payloadDelta input w.toNat k) →
        (s.params.reconOverflow = .fault → (∃ k, k < s.pixelCount ∧ (v k < 0 ∨ 65535 < v k)) →
          exec (.reconstruct w) s = .next (s.faultEntry .pixelRange)) ∧
        (s.params.reconOverflow = .wrap ∨ (∀ k, k < s.pixelCount → 0 ≤ v k ∧ v k ≤ 65535) →
          ∃ (pix : List Pixel) (b : FrameBuffer), pix.length = s.pixelCount ∧
            (∀ k, k < s.pixelCount → ((pix.getD (snakePos s.cols.toNat k) 0#16).toNat : Int) = v k % 65536) ∧
            (∀ j, FrameBuffer.load b j =
              if j < s.pixelCount then pix.getD j 0#16 else FrameBuffer.load s.decPrev j) ∧
            exec (.reconstruct w) s = .next { s with decPrev := b, result := some (.ok (.pixels pix)) }))

/-- R103: CLR_ENC, word 0x00000008: E_BAD_ARG for ARG other than 0; else every element of ENC_PREV becomes 0 and
nothing else but the result changes, whatever the configuration. -/
def Obligations.ClrEncCompletes : Prop :=
  encode (.clrEnc 0#8) = 0x00000008#32 ∧
  ∀ (a : Byte) (s : State), s.faulted = false → s.operand = .noOperand →
    (a ≠ 0#8 → exec (.clrEnc a) s = .next (s.faultEntry .badArg)) ∧
    ∃ b : FrameBuffer, (∀ j, FrameBuffer.load b j = 0#16) ∧
      exec (.clrEnc 0#8) s = .next { s with encPrev := b, result := some (.ok .nothing) }

/-- R107: CLR_DEC, word 0x0000000A: E_BAD_ARG for ARG other than 0; else every element of DEC_PREV becomes 0 and
nothing else but the result changes, whatever the configuration. -/
def Obligations.ClrDecCompletes : Prop :=
  encode (.clrDec 0#8) = 0x0000000A#32 ∧
  ∀ (a : Byte) (s : State), s.faulted = false → s.operand = .noOperand →
    (a ≠ 0#8 → exec (.clrDec a) s = .next (s.faultEntry .badArg)) ∧
    ∃ b : FrameBuffer, (∀ j, FrameBuffer.load b j = 0#16) ∧
      exec (.clrDec 0#8) s = .next { s with decPrev := b, result := some (.ok .nothing) }

/-! ## Control -/

/-- R109: CSR_READ, OPCODE 0x0B, faulted or not: number 0 reads `FAULTED | TSOVF << 1 | FAULT_CODE << 8`, with
every other bit 0, number 1 ROWS, 2 COLS, 3 `MAX_PIXELS`, and only the result changes; a reserved number faults
with E_BAD_ARG in a block that is not faulted. -/
def Obligations.CsrReadCompletes : Prop :=
  ∀ s : State, s.operand = .noOperand →
    (∀ n : Byte, (encode (.csrRead n)).toNat = n.toNat * 256 + 0x0B) ∧
    (∃ d : Word, d.toNat = s.faulted.toNat + 2 * s.tsovf.toNat + 256 * s.faultCode.toNat ∧
      exec (.csrRead 0x00#8) s = .next { s with result := some (.ok (.data d)) }) ∧
    exec (.csrRead 0x01#8) s = .next { s with result := some (.ok (.data s.rows)) } ∧
    exec (.csrRead 0x02#8) s = .next { s with result := some (.ok (.data s.cols)) } ∧
    exec (.csrRead 0x03#8) s = .next { s with result := some (.ok (.data (BitVec.ofNat 32 s.maxPixels))) } ∧
    (s.faulted = false → ∀ n : Byte, 3 < n.toNat → exec (.csrRead n) s = .next (s.faultEntry .badArg))

/-- R110, R32: CSR_WRITE, OPCODE 0x0C: to STATUS it clears TSOVF when bit 1 of the data is 1 and does nothing else;
to ROWS or COLS it stores the data and zeroes both frame buffers; to CAP or a reserved number it faults with
E_BAD_ARG. Nothing else but the result changes. -/
def Obligations.CsrWriteCompletes : Prop :=
  ∀ (s : State) (d : Word), s.faulted = false → s.operand = .data d →
    (∀ n : Byte, (encode (.csrWrite n)).toNat = n.toNat * 256 + 0x0C) ∧
    (d.getLsbD 1 = true → exec (.csrWrite 0x00#8) s =
      .next { s with status := s.status &&& ~~~0x00000002#32, result := some (.ok .nothing) }) ∧
    (d.getLsbD 1 = false → exec (.csrWrite 0x00#8) s = .next { s with result := some (.ok .nothing) }) ∧
    (∃ b c : FrameBuffer, (∀ j, FrameBuffer.load b j = 0#16) ∧ (∀ j, FrameBuffer.load c j = 0#16) ∧
      exec (.csrWrite 0x01#8) s =
        .next { s with rows := d, encPrev := b, decPrev := c, result := some (.ok .nothing) } ∧
      exec (.csrWrite 0x02#8) s =
        .next { s with cols := d, encPrev := b, decPrev := c, result := some (.ok .nothing) }) ∧
    ∀ n : Byte, 2 < n.toNat → exec (.csrWrite n) s = .next (s.faultEntry .badArg)

/-- R111: SOFT_RESET, word 0x0000000D, faulted or not: STATUS becomes 0 and both frame buffers zero, and nothing
else but the result changes, so ROWS and COLS keep their values; with ARG other than 0 it faults with E_BAD_ARG,
and is REJECTED while the block is faulted. -/
def Obligations.SoftResetCompletes : Prop :=
  encode (.softReset 0#8) = 0x0000000D#32 ∧
  ∀ s : State, s.operand = .noOperand →
    (∃ b c : FrameBuffer, (∀ j, FrameBuffer.load b j = 0#16) ∧ (∀ j, FrameBuffer.load c j = 0#16) ∧
      exec (.softReset 0#8) s =
        .next { s with status := 0#32, encPrev := b, decPrev := c, result := some (.ok .nothing) }) ∧
    ∀ a : Byte, a ≠ 0#8 →
      (s.faulted = false → exec (.softReset a) s = .next (s.faultEntry .badArg)) ∧
      (s.faulted = true → exec (.softReset a) s = .next { s with result := some .rejected })

/-- R31: `cfg_ok` holds when ROWS and COLS are at least 1 and `2 <= ROWS*COLS <= MAX_PIXELS`; COMPRESS and
RECONSTRUCT fault with E_CONFIG when it does not. -/
def Obligations.FrameCommandsNeedConfiguration : Prop :=
  ∀ s : State,
    (s.cfgOk = true ↔ 1 ≤ s.rows.toNat ∧ 1 ≤ s.cols.toNat ∧ 2 ≤ s.rows.toNat * s.cols.toNat ∧
      s.rows.toNat * s.cols.toNat ≤ s.cap.toNat) ∧
    (s.faulted = false → s.cfgOk = false →
      (∀ px, s.operand = .pixels px → exec (.compress 0#8) s = .next (s.faultEntry .config)) ∧
      ∀ input, s.operand = .bytes input → ∀ w : Byte, 1 ≤ w.toNat → w.toNat ≤ 32 →
        exec (.reconstruct w) s = .next (s.faultEntry .config))

/-! ## Round trips over frames and files -/

/-- R108 (an inference the spec marks as its own): from equal first `N` elements of ENC_PREV and DEC_PREV,
compressing any sequence of frames and reconstructing the payloads in the same order gives every frame back, with
no fault, and both buffers end holding the last frame. -/
def Obligations.FrameStreamRoundTrip : Prop :=
  ∀ (s : State) (frames : List (List Pixel)), s.faulted = false → s.cfgOk = true →
    (∀ j, j < s.pixelCount → FrameBuffer.load s.encPrev j = FrameBuffer.load s.decPrev j) →
    (∀ f ∈ frames, f.length = s.pixelCount) →
    ∃ (outs : List (Nat × List Byte)) (t u : State),
      runCommands s (frames.map fun f => ⟨encode (.compress 0#8), .pixels f⟩) =
        some (t, outs.map fun o => .ok (.compressed o.1 o.2 o.2.length)) ∧
      (∀ o ∈ outs, o.1 ≤ 18) ∧
      runCommands t (outs.map fun o => ⟨encode (.reconstruct (BitVec.ofNat 8 o.1)), .bytes o.2⟩) =
        some (u, frames.map fun f => .ok (.pixels f)) ∧
      ∀ f, frames.getLast? = some f → ∀ j, j < s.pixelCount →
        FrameBuffer.load u.encPrev j = f.getD j 0#16 ∧ FrameBuffer.load u.decPrev j = f.getD j 0#16

/-- R128, R129: a file the write procedure produced is read back whole by the read procedure, on any block of the
same `MAX_PIXELS` that is not faulted and with any outer compressor: version 2, the header fields, every frame with
its durations, and a clean end; provided the timestamp does not exceed `TS_MAX_US` and, with `STRING_CHECK = UTF8`,
the strings are well-formed. -/
def Obligations.FileRoundTrip : Prop :=
  ∀ (outer : Outer) (s t r : State) (rows cols : Word) (h : HeaderToWrite) (frames : List FrameToWrite)
    (file : List Byte), writeFile outer s rows cols h frames = some (t, file) → r.faulted = false →
    r.cap = s.cap → h.timestamp.toNat ≤ r.params.tsMaxUs →
    (r.params.stringCheck = .utf8 → ∀ code bs, (code, FieldValue.str bs) ∈ h.others → wellFormedUtf8 bs = true) →
    ∃ x : FileRead, readFile outer r file = .ok x ∧ x.version = 2#8 ∧
      x.header = (headerFields rows cols h).map (fun f => ⟨f.1, f.2.rawType, f.2⟩) ∧
      x.frames = frames.map (fun f => ⟨f.pixels, .version2 f.timeOn f.lastFfc⟩) ∧ x.ending = .ok ()

/-- R66: the pseudo-instructions: `config` is the two writes, ROWS first, `clear` is `clr_enc` then `clr_dec`, and
`nop` is the word 0x0000000B with no operand, which changes nothing but the result. -/
def Obligations.PseudoInstructionsExpand : Prop :=
  (∀ r c : Word, (AsmLine.config r c).commands = (AsmLine.csrw 0x01#8 r).commands ++ (AsmLine.csrw 0x02#8 c).commands) ∧
  AsmLine.clear.commands = AsmLine.clrEnc.commands ++ AsmLine.clrDec.commands ∧
  AsmLine.nop.commands = (AsmLine.csrr 0x00#8).commands ∧ AsmLine.nop.commands = [⟨0x0000000B#32, .noOperand⟩] ∧
  ∀ s : State, ∃ d, step (s.present ⟨0x0000000B#32, .noOperand⟩) =
    .next { s with operand := .noOperand, result := some (.ok (.data d)) }
end

