-- ==== Sys2Proof/Laws/State.lean ====
section
/-!
SUPPORT. One lemma per field per update of the state, each true by rfl, so that no proof unfolds a record update;
and what the register accessors read after an update of STATUS.
-/

namespace Sys2Proof.Machine

/-! ## `complete` -/

@[simp] theorem State.complete_status (s : State) (o : Outputs) : (s.complete o).status = s.status := rfl
@[simp] theorem State.complete_rows (s : State) (o : Outputs) : (s.complete o).rows = s.rows := rfl
@[simp] theorem State.complete_cols (s : State) (o : Outputs) : (s.complete o).cols = s.cols := rfl
@[simp] theorem State.complete_cap (s : State) (o : Outputs) : (s.complete o).cap = s.cap := rfl
@[simp] theorem State.complete_encPrev (s : State) (o : Outputs) : (s.complete o).encPrev = s.encPrev := rfl
@[simp] theorem State.complete_decPrev (s : State) (o : Outputs) : (s.complete o).decPrev = s.decPrev := rfl
@[simp] theorem State.complete_params (s : State) (o : Outputs) : (s.complete o).params = s.params := rfl
@[simp] theorem State.complete_inputs (s : State) (o : Outputs) : (s.complete o).inputs = s.inputs := rfl
@[simp] theorem State.complete_operand (s : State) (o : Outputs) : (s.complete o).operand = s.operand := rfl
@[simp] theorem State.complete_result (s : State) (o : Outputs) : (s.complete o).result = some (.ok o) := rfl

/-! ## `endOfStream` -/

@[simp] theorem State.endOfStream_status (s : State) : (s.endOfStream).status = s.status := rfl
@[simp] theorem State.endOfStream_rows (s : State) : (s.endOfStream).rows = s.rows := rfl
@[simp] theorem State.endOfStream_cols (s : State) : (s.endOfStream).cols = s.cols := rfl
@[simp] theorem State.endOfStream_cap (s : State) : (s.endOfStream).cap = s.cap := rfl
@[simp] theorem State.endOfStream_encPrev (s : State) : (s.endOfStream).encPrev = s.encPrev := rfl
@[simp] theorem State.endOfStream_decPrev (s : State) : (s.endOfStream).decPrev = s.decPrev := rfl
@[simp] theorem State.endOfStream_params (s : State) : (s.endOfStream).params = s.params := rfl
@[simp] theorem State.endOfStream_inputs (s : State) : (s.endOfStream).inputs = s.inputs := rfl
@[simp] theorem State.endOfStream_operand (s : State) : (s.endOfStream).operand = s.operand := rfl
@[simp] theorem State.endOfStream_result (s : State) : (s.endOfStream).result = some .endOfStream := rfl

/-! ## `rejected` -/

@[simp] theorem State.rejected_status (s : State) : (s.rejected).status = s.status := rfl
@[simp] theorem State.rejected_rows (s : State) : (s.rejected).rows = s.rows := rfl
@[simp] theorem State.rejected_cols (s : State) : (s.rejected).cols = s.cols := rfl
@[simp] theorem State.rejected_cap (s : State) : (s.rejected).cap = s.cap := rfl
@[simp] theorem State.rejected_encPrev (s : State) : (s.rejected).encPrev = s.encPrev := rfl
@[simp] theorem State.rejected_decPrev (s : State) : (s.rejected).decPrev = s.decPrev := rfl
@[simp] theorem State.rejected_params (s : State) : (s.rejected).params = s.params := rfl
@[simp] theorem State.rejected_inputs (s : State) : (s.rejected).inputs = s.inputs := rfl
@[simp] theorem State.rejected_operand (s : State) : (s.rejected).operand = s.operand := rfl
@[simp] theorem State.rejected_result (s : State) : (s.rejected).result = some .rejected := rfl

/-! ## `faultEntry` -/

@[simp] theorem State.faultEntry_status (s : State) (e : FaultCode) : (s.faultEntry e).status = Status.setFault s.status e := rfl
@[simp] theorem State.faultEntry_rows (s : State) (e : FaultCode) : (s.faultEntry e).rows = s.rows := rfl
@[simp] theorem State.faultEntry_cols (s : State) (e : FaultCode) : (s.faultEntry e).cols = s.cols := rfl
@[simp] theorem State.faultEntry_cap (s : State) (e : FaultCode) : (s.faultEntry e).cap = s.cap := rfl
@[simp] theorem State.faultEntry_encPrev (s : State) (e : FaultCode) : (s.faultEntry e).encPrev = s.encPrev := rfl
@[simp] theorem State.faultEntry_decPrev (s : State) (e : FaultCode) : (s.faultEntry e).decPrev = s.decPrev := rfl
@[simp] theorem State.faultEntry_params (s : State) (e : FaultCode) : (s.faultEntry e).params = s.params := rfl
@[simp] theorem State.faultEntry_inputs (s : State) (e : FaultCode) : (s.faultEntry e).inputs = s.inputs := rfl
@[simp] theorem State.faultEntry_operand (s : State) (e : FaultCode) : (s.faultEntry e).operand = s.operand := rfl
@[simp] theorem State.faultEntry_result (s : State) (e : FaultCode) : (s.faultEntry e).result = some (.fault e) := rfl

/-! ## `clearBuffers` -/

@[simp] theorem State.clearBuffers_status (s : State) : (s.clearBuffers).status = s.status := rfl
@[simp] theorem State.clearBuffers_rows (s : State) : (s.clearBuffers).rows = s.rows := rfl
@[simp] theorem State.clearBuffers_cols (s : State) : (s.clearBuffers).cols = s.cols := rfl
@[simp] theorem State.clearBuffers_cap (s : State) : (s.clearBuffers).cap = s.cap := rfl
@[simp] theorem State.clearBuffers_encPrev (s : State) : (s.clearBuffers).encPrev = [] := rfl
@[simp] theorem State.clearBuffers_decPrev (s : State) : (s.clearBuffers).decPrev = [] := rfl
@[simp] theorem State.clearBuffers_params (s : State) : (s.clearBuffers).params = s.params := rfl
@[simp] theorem State.clearBuffers_inputs (s : State) : (s.clearBuffers).inputs = s.inputs := rfl
@[simp] theorem State.clearBuffers_operand (s : State) : (s.clearBuffers).operand = s.operand := rfl
@[simp] theorem State.clearBuffers_result (s : State) : (s.clearBuffers).result = s.result := rfl

/-! ## `softReset` -/

@[simp] theorem State.softReset_status (s : State) : (s.softReset).status = 0#32 := rfl
@[simp] theorem State.softReset_rows (s : State) : (s.softReset).rows = s.rows := rfl
@[simp] theorem State.softReset_cols (s : State) : (s.softReset).cols = s.cols := rfl
@[simp] theorem State.softReset_cap (s : State) : (s.softReset).cap = s.cap := rfl
@[simp] theorem State.softReset_encPrev (s : State) : (s.softReset).encPrev = [] := rfl
@[simp] theorem State.softReset_decPrev (s : State) : (s.softReset).decPrev = [] := rfl
@[simp] theorem State.softReset_params (s : State) : (s.softReset).params = s.params := rfl
@[simp] theorem State.softReset_inputs (s : State) : (s.softReset).inputs = s.inputs := rfl
@[simp] theorem State.softReset_operand (s : State) : (s.softReset).operand = s.operand := rfl
@[simp] theorem State.softReset_result (s : State) : (s.softReset).result = s.result := rfl

/-! ## `hardReset` -/

@[simp] theorem State.hardReset_status (s : State) : (s.hardReset).status = 0#32 := rfl
@[simp] theorem State.hardReset_rows (s : State) : (s.hardReset).rows = 0#32 := rfl
@[simp] theorem State.hardReset_cols (s : State) : (s.hardReset).cols = 0#32 := rfl
@[simp] theorem State.hardReset_cap (s : State) : (s.hardReset).cap = s.cap := rfl
@[simp] theorem State.hardReset_encPrev (s : State) : (s.hardReset).encPrev = [] := rfl
@[simp] theorem State.hardReset_decPrev (s : State) : (s.hardReset).decPrev = [] := rfl
@[simp] theorem State.hardReset_params (s : State) : (s.hardReset).params = s.params := rfl
@[simp] theorem State.hardReset_inputs (s : State) : (s.hardReset).inputs = s.inputs := rfl
@[simp] theorem State.hardReset_operand (s : State) : (s.hardReset).operand = .noOperand := rfl
@[simp] theorem State.hardReset_result (s : State) : (s.hardReset).result = none := rfl

/-! ## `take` -/

@[simp] theorem State.take_status (s : State) (c : Command) (rest : List HostInput) : (s.take c rest).status = s.status := rfl
@[simp] theorem State.take_rows (s : State) (c : Command) (rest : List HostInput) : (s.take c rest).rows = s.rows := rfl
@[simp] theorem State.take_cols (s : State) (c : Command) (rest : List HostInput) : (s.take c rest).cols = s.cols := rfl
@[simp] theorem State.take_cap (s : State) (c : Command) (rest : List HostInput) : (s.take c rest).cap = s.cap := rfl
@[simp] theorem State.take_encPrev (s : State) (c : Command) (rest : List HostInput) : (s.take c rest).encPrev = s.encPrev := rfl
@[simp] theorem State.take_decPrev (s : State) (c : Command) (rest : List HostInput) : (s.take c rest).decPrev = s.decPrev := rfl
@[simp] theorem State.take_params (s : State) (c : Command) (rest : List HostInput) : (s.take c rest).params = s.params := rfl
@[simp] theorem State.take_inputs (s : State) (c : Command) (rest : List HostInput) : (s.take c rest).inputs = rest := rfl
@[simp] theorem State.take_operand (s : State) (c : Command) (rest : List HostInput) : (s.take c rest).operand = c.operand := rfl
@[simp] theorem State.take_result (s : State) (c : Command) (rest : List HostInput) : (s.take c rest).result = s.result := rfl

/-! ## `present` -/

@[simp] theorem State.present_status (s : State) (c : Command) : (s.present c).status = s.status := rfl
@[simp] theorem State.present_rows (s : State) (c : Command) : (s.present c).rows = s.rows := rfl
@[simp] theorem State.present_cols (s : State) (c : Command) : (s.present c).cols = s.cols := rfl
@[simp] theorem State.present_cap (s : State) (c : Command) : (s.present c).cap = s.cap := rfl
@[simp] theorem State.present_encPrev (s : State) (c : Command) : (s.present c).encPrev = s.encPrev := rfl
@[simp] theorem State.present_decPrev (s : State) (c : Command) : (s.present c).decPrev = s.decPrev := rfl
@[simp] theorem State.present_params (s : State) (c : Command) : (s.present c).params = s.params := rfl
@[simp] theorem State.present_inputs (s : State) (c : Command) : (s.present c).inputs = .command c :: s.inputs := rfl
@[simp] theorem State.present_operand (s : State) (c : Command) : (s.present c).operand = s.operand := rfl
@[simp] theorem State.present_result (s : State) (c : Command) : (s.present c).result = s.result := rfl

/-! ## `writeRows` -/

@[simp] theorem State.writeRows_status (s : State) (d : Word) : (s.writeRows d).status = s.status := rfl
@[simp] theorem State.writeRows_rows (s : State) (d : Word) : (s.writeRows d).rows = d := rfl
@[simp] theorem State.writeRows_cols (s : State) (d : Word) : (s.writeRows d).cols = s.cols := rfl
@[simp] theorem State.writeRows_cap (s : State) (d : Word) : (s.writeRows d).cap = s.cap := rfl
@[simp] theorem State.writeRows_encPrev (s : State) (d : Word) : (s.writeRows d).encPrev = [] := rfl
@[simp] theorem State.writeRows_decPrev (s : State) (d : Word) : (s.writeRows d).decPrev = [] := rfl
@[simp] theorem State.writeRows_params (s : State) (d : Word) : (s.writeRows d).params = s.params := rfl
@[simp] theorem State.writeRows_inputs (s : State) (d : Word) : (s.writeRows d).inputs = s.inputs := rfl
@[simp] theorem State.writeRows_operand (s : State) (d : Word) : (s.writeRows d).operand = s.operand := rfl
@[simp] theorem State.writeRows_result (s : State) (d : Word) : (s.writeRows d).result = s.result := rfl

/-! ## `writeCols` -/

@[simp] theorem State.writeCols_status (s : State) (d : Word) : (s.writeCols d).status = s.status := rfl
@[simp] theorem State.writeCols_rows (s : State) (d : Word) : (s.writeCols d).rows = s.rows := rfl
@[simp] theorem State.writeCols_cols (s : State) (d : Word) : (s.writeCols d).cols = d := rfl
@[simp] theorem State.writeCols_cap (s : State) (d : Word) : (s.writeCols d).cap = s.cap := rfl
@[simp] theorem State.writeCols_encPrev (s : State) (d : Word) : (s.writeCols d).encPrev = [] := rfl
@[simp] theorem State.writeCols_decPrev (s : State) (d : Word) : (s.writeCols d).decPrev = [] := rfl
@[simp] theorem State.writeCols_params (s : State) (d : Word) : (s.writeCols d).params = s.params := rfl
@[simp] theorem State.writeCols_inputs (s : State) (d : Word) : (s.writeCols d).inputs = s.inputs := rfl
@[simp] theorem State.writeCols_operand (s : State) (d : Word) : (s.writeCols d).operand = s.operand := rfl
@[simp] theorem State.writeCols_result (s : State) (d : Word) : (s.writeCols d).result = s.result := rfl

/-! ## `noteOverflow` -/

@[simp] theorem State.noteOverflow_false (s : State) : s.noteOverflow false = s := rfl
@[simp] theorem State.noteOverflow_true (s : State) :
    s.noteOverflow true = { s with status := Status.setTsovf s.status } := rfl
@[simp] theorem State.noteOverflow_status (s : State) (ovf : Bool) :
    (s.noteOverflow ovf).status = if ovf then Status.setTsovf s.status else s.status := by cases ovf <;> rfl
@[simp] theorem State.noteOverflow_rows (s : State) (ovf : Bool) : (s.noteOverflow ovf).rows = s.rows := by cases ovf <;> rfl
@[simp] theorem State.noteOverflow_cols (s : State) (ovf : Bool) : (s.noteOverflow ovf).cols = s.cols := by cases ovf <;> rfl
@[simp] theorem State.noteOverflow_cap (s : State) (ovf : Bool) : (s.noteOverflow ovf).cap = s.cap := by cases ovf <;> rfl
@[simp] theorem State.noteOverflow_encPrev (s : State) (ovf : Bool) : (s.noteOverflow ovf).encPrev = s.encPrev := by cases ovf <;> rfl
@[simp] theorem State.noteOverflow_decPrev (s : State) (ovf : Bool) : (s.noteOverflow ovf).decPrev = s.decPrev := by cases ovf <;> rfl
@[simp] theorem State.noteOverflow_params (s : State) (ovf : Bool) : (s.noteOverflow ovf).params = s.params := by cases ovf <;> rfl
@[simp] theorem State.noteOverflow_inputs (s : State) (ovf : Bool) : (s.noteOverflow ovf).inputs = s.inputs := by cases ovf <;> rfl
@[simp] theorem State.noteOverflow_operand (s : State) (ovf : Bool) : (s.noteOverflow ovf).operand = s.operand := by cases ovf <;> rfl
@[simp] theorem State.noteOverflow_result (s : State) (ovf : Bool) : (s.noteOverflow ovf).result = s.result := by cases ovf <;> rfl

/-! ## `writeStatus` -/

@[simp] theorem State.writeStatus_status (s : State) (d : Word) :
    (s.writeStatus d).status = if d.getLsbD 1 then Status.clearTsovf s.status else s.status := by
  unfold State.writeStatus; split <;> rfl
@[simp] theorem State.writeStatus_rows (s : State) (d : Word) : (s.writeStatus d).rows = s.rows := by
  unfold State.writeStatus; split <;> rfl
@[simp] theorem State.writeStatus_cols (s : State) (d : Word) : (s.writeStatus d).cols = s.cols := by
  unfold State.writeStatus; split <;> rfl
@[simp] theorem State.writeStatus_cap (s : State) (d : Word) : (s.writeStatus d).cap = s.cap := by
  unfold State.writeStatus; split <;> rfl
@[simp] theorem State.writeStatus_encPrev (s : State) (d : Word) : (s.writeStatus d).encPrev = s.encPrev := by
  unfold State.writeStatus; split <;> rfl
@[simp] theorem State.writeStatus_decPrev (s : State) (d : Word) : (s.writeStatus d).decPrev = s.decPrev := by
  unfold State.writeStatus; split <;> rfl
@[simp] theorem State.writeStatus_params (s : State) (d : Word) : (s.writeStatus d).params = s.params := by
  unfold State.writeStatus; split <;> rfl
@[simp] theorem State.writeStatus_inputs (s : State) (d : Word) : (s.writeStatus d).inputs = s.inputs := by
  unfold State.writeStatus; split <;> rfl
@[simp] theorem State.writeStatus_operand (s : State) (d : Word) : (s.writeStatus d).operand = s.operand := by
  unfold State.writeStatus; split <;> rfl
@[simp] theorem State.writeStatus_result (s : State) (d : Word) : (s.writeStatus d).result = s.result := by
  unfold State.writeStatus; split <;> rfl

/-! ## The reset state -/

@[simp] theorem State.resetOf_status (cap : Word) (ps : Params) : (State.resetOf cap ps).status = 0#32 := rfl
@[simp] theorem State.resetOf_rows (cap : Word) (ps : Params) : (State.resetOf cap ps).rows = 0#32 := rfl
@[simp] theorem State.resetOf_cols (cap : Word) (ps : Params) : (State.resetOf cap ps).cols = 0#32 := rfl
@[simp] theorem State.resetOf_cap (cap : Word) (ps : Params) : (State.resetOf cap ps).cap = cap := rfl
@[simp] theorem State.resetOf_encPrev (cap : Word) (ps : Params) : (State.resetOf cap ps).encPrev = [] := rfl
@[simp] theorem State.resetOf_decPrev (cap : Word) (ps : Params) : (State.resetOf cap ps).decPrev = [] := rfl
@[simp] theorem State.resetOf_params (cap : Word) (ps : Params) : (State.resetOf cap ps).params = ps := rfl
@[simp] theorem State.resetOf_inputs (cap : Word) (ps : Params) : (State.resetOf cap ps).inputs = [] := rfl

/-! ## STATUS -/

/-- A bit of STATUS after fault entry: bit 0 is 1, bits 15:8 are the code, the others stay. -/
theorem Status.getLsbD_setFault (st : Word) (e : FaultCode) (k : Nat) (hk : k < 32) :
    (Status.setFault st e).getLsbD k =
      if k = 0 then true
      else if 8 ≤ k ∧ k < 16 then e.number.getLsbD (k - 8) else st.getLsbD k := by
  unfold Status.setFault
  have h : k ∈ List.range 32 := List.mem_range.mpr hk
  simp only [BitVec.getLsbD_or, BitVec.getLsbD_and, BitVec.getLsbD_shiftLeft, BitVec.getLsbD_setWidth]
  revert h
  simp only [List.range, List.range.loop, List.mem_cons, List.not_mem_nil, or_false]
  rintro (rfl | rfl | rfl | rfl | rfl | rfl | rfl | rfl | rfl | rfl | rfl | rfl | rfl | rfl | rfl | rfl | rfl | rfl |
    rfl | rfl | rfl | rfl | rfl | rfl | rfl | rfl | rfl | rfl | rfl | rfl | rfl | rfl) <;> simp

@[simp] theorem Status.faulted_setFault (st : Word) (e : FaultCode) : Status.faulted (Status.setFault st e) = true := by
  rw [Status.faulted, Status.getLsbD_setFault _ _ _ (by omega), if_pos rfl]

@[simp] theorem Status.tsovf_setFault (st : Word) (e : FaultCode) :
    Status.tsovf (Status.setFault st e) = Status.tsovf st := by
  rw [Status.tsovf, Status.tsovf, Status.getLsbD_setFault _ _ _ (by omega), if_neg (by omega), if_neg (by omega)]

@[simp] theorem Status.faultCode_setFault (st : Word) (e : FaultCode) :
    Status.faultCode (Status.setFault st e) = e.number := by
  apply BitVec.eq_of_getLsbD_eq
  intro i hi
  simp only [Status.faultCode, BitVec.getLsbD_extractLsb', hi, decide_true, Bool.true_and]
  rw [Status.getLsbD_setFault _ _ _ (by omega)]
  simp [show 8 + i < 16 by omega]

@[simp] theorem Status.faulted_setTsovf (st : Word) : Status.faulted (Status.setTsovf st) = Status.faulted st := by
  simp [Status.faulted, Status.setTsovf]

@[simp] theorem Status.tsovf_setTsovf (st : Word) : Status.tsovf (Status.setTsovf st) = true := by
  simp [Status.tsovf, Status.setTsovf]

@[simp] theorem Status.faulted_clearTsovf (st : Word) :
    Status.faulted (Status.clearTsovf st) = Status.faulted st := by
  simp [Status.faulted, Status.clearTsovf]

@[simp] theorem Status.tsovf_clearTsovf (st : Word) : Status.tsovf (Status.clearTsovf st) = false := by
  simp [Status.tsovf, Status.clearTsovf]

@[simp] theorem Status.reserved_setFault (st : Word) (e : FaultCode) : Status.reserved (Status.setFault st e) = Status.reserved st := by
  apply BitVec.eq_of_getLsbD_eq
  intro k hk
  simp only [Status.reserved, BitVec.getLsbD_and, Status.getLsbD_setFault _ _ _ hk]
  interval_cases k <;> simp

@[simp] theorem Status.reserved_setTsovf (st : Word) : Status.reserved (Status.setTsovf st) = Status.reserved st := by
  apply BitVec.eq_of_getLsbD_eq
  intro k hk
  simp only [Status.reserved, Status.setTsovf, BitVec.getLsbD_and, BitVec.getLsbD_or]
  interval_cases k <;> simp

@[simp] theorem Status.reserved_clearTsovf (st : Word) : Status.reserved (Status.clearTsovf st) = Status.reserved st := by
  apply BitVec.eq_of_getLsbD_eq
  intro k hk
  simp only [Status.reserved, Status.clearTsovf, BitVec.getLsbD_and]
  interval_cases k <;> simp

@[simp] theorem Status.faultCode_setTsovf (st : Word) : Status.faultCode (Status.setTsovf st) = Status.faultCode st := by
  apply BitVec.eq_of_getLsbD_eq
  intro k hk
  simp only [Status.faultCode, Status.setTsovf, BitVec.getLsbD_extractLsb', BitVec.getLsbD_or]
  interval_cases k <;> simp

@[simp] theorem Status.faultCode_clearTsovf (st : Word) : Status.faultCode (Status.clearTsovf st) = Status.faultCode st := by
  apply BitVec.eq_of_getLsbD_eq
  intro k hk
  simp only [Status.faultCode, Status.clearTsovf, BitVec.getLsbD_extractLsb', BitVec.getLsbD_and]
  interval_cases k <;> simp

end Sys2Proof.Machine
end

