-- ==== Sys2Proof/Laws/Ops.lean ====
section
/-!
SUPPORT. What the shared operations do, said once: numbers and byte sequences, the frame buffers, and the common
checks of a command. Provers cite these instead of unfolding.
-/

namespace Sys2Proof.Machine

/-! ## Numbers and byte sequences -/

@[simp] theorem bitLength_zero : bitLength 0 = 0 := rfl

theorem bitLength_of_pos {m : Nat} (h : m ≠ 0) : bitLength m = Nat.log2 m + 1 := if_neg h

@[simp] theorem leBytes_length (n v : Nat) : (leBytes n v).length = n := by
  induction n generalizing v with
  | zero => rfl
  | succ n ih => simp [leBytes, ih]

theorem fromLe_leBytes (n v : Nat) (h : v < 256 ^ n) : fromLe (leBytes n v) = v := by
  induction n generalizing v with
  | zero => simp [leBytes, fromLe] at *; omega
  | succ n ih =>
    have hv : v / 256 < 256 ^ n := by
      rw [Nat.div_lt_iff_lt_mul (by omega)]
      rwa [Nat.pow_succ] at h
    simp only [leBytes, fromLe, ih _ hv, BitVec.toNat_ofNat]
    omega

theorem fromLe_lt (s : List Byte) : fromLe s < 256 ^ s.length := by
  induction s with
  | nil => simp [fromLe]
  | cons b s ih =>
    have hb := b.isLt
    simp only [fromLe, List.length_cons, Nat.pow_succ]
    omega

theorem leBytes_fromLe (s : List Byte) : leBytes s.length (fromLe s) = s := by
  induction s with
  | nil => rfl
  | cons b s ih =>
    have hb := b.isLt
    simp only [List.length_cons, leBytes, fromLe, List.cons.injEq]
    refine ⟨?_, ?_⟩
    · apply BitVec.eq_of_toNat_eq
      simp only [BitVec.toNat_ofNat]
      omega
    · rw [show (b.toNat + 256 * fromLe s) / 256 = fromLe s by omega]
      exact ih

/-- `MemRead` answers the bytes when they are all there, and E_TRUNCATED otherwise. -/
theorem memRead_eq (input : List Byte) (addr n : Nat) :
    memRead input addr n =
      if addr + n ≤ input.length then .ok ((input.drop addr).take n) else .error .truncated := rfl

theorem memRead_ok {input bs : List Byte} {addr n : Nat} (h : memRead input addr n = .ok bs) :
    addr + n ≤ input.length ∧ bs = (input.drop addr).take n ∧ bs.length = n := by
  unfold memRead at h
  split at h
  · rename_i hle
    cases h
    refine ⟨hle, rfl, ?_⟩
    simp only [List.length_take, List.length_drop]
    omega
  · cases h

/-- `MemRead` does not see what is appended to an input in which all its bytes are. -/
theorem memRead_append {input bs : List Byte} {addr n : Nat} (rest : List Byte)
    (h : memRead input addr n = .ok bs) : memRead (input ++ rest) addr n = .ok bs := by
  obtain ⟨hle, rfl, -⟩ := memRead_ok h
  have hlen : addr + n ≤ (input ++ rest).length := by simp only [List.length_append]; omega
  simp only [memRead, hlen, if_true]
  congr 1
  rw [List.drop_append_of_le_length (by omega), List.take_append_of_le_length (by simp only [List.length_drop]; omega)]

theorem memReadByte_eq_ok {input : List Byte} {addr : Nat} {b : Byte} :
    memReadByte input addr = .ok b ↔ input[addr]? = some b := by
  unfold memReadByte
  cases input[addr]? <;> simp

theorem memReadByte_eq_error {input : List Byte} {addr : Nat} {e : FaultCode} :
    memReadByte input addr = .error e ↔ input.length ≤ addr ∧ e = .truncated := by
  unfold memReadByte
  cases h : input[addr]? with
  | none => simp [List.getElem?_eq_none_iff.mp h, eq_comm]
  | some b => simp [(List.getElem?_eq_some_iff.mp h).1]

/-! ## Frame buffers -/

@[simp] theorem FrameBuffer.clear_eq (b : FrameBuffer) : FrameBuffer.clear b = [] := rfl

@[simp] theorem FrameBuffer.load_nil (j : Nat) : FrameBuffer.load [] j = 0#16 := rfl

theorem FrameBuffer.load_cons (i : Nat) (p : Pixel) (b : FrameBuffer) (j : Nat) :
    FrameBuffer.load ((i, p) :: b) j = if j = i then p else FrameBuffer.load b j := by
  unfold FrameBuffer.load
  by_cases h : j = i
  · subst h; simp
  · have hji : (j == i) = false := by simpa using h
    simp [List.lookup_cons, h, hji]

theorem FrameBuffer.entries_index {i : Nat} {ps : List Pixel} {e : Nat × Pixel} (h : e ∈ FrameBuffer.entries i ps) :
    i ≤ e.1 ∧ e.1 < i + ps.length ∧ e.2 ≠ 0#16 := by
  induction ps generalizing i with
  | nil => simp [FrameBuffer.entries] at h
  | cons p ps ih =>
    simp only [FrameBuffer.entries] at h
    split at h
    · obtain ⟨h1, h2, h3⟩ := ih h
      simp only [List.length_cons]
      exact ⟨by omega, by omega, h3⟩
    · rename_i hp
      rcases List.mem_cons.mp h with rfl | h
      · simp only [List.length_cons]
        exact ⟨by omega, by omega, hp⟩
      · obtain ⟨h1, h2, h3⟩ := ih h
        simp only [List.length_cons]
        exact ⟨by omega, by omega, h3⟩

theorem FrameBuffer.load_of_not_mem {b : FrameBuffer} {j : Nat} (h : ∀ e ∈ b, e.1 ≠ j) :
    FrameBuffer.load b j = 0#16 := by
  induction b with
  | nil => rfl
  | cons e b ih =>
    obtain ⟨i, p⟩ := e
    rw [FrameBuffer.load_cons, if_neg (fun hj => h (i, p) (by simp) hj.symm)]
    exact ih fun e he => h e (by simp [he])

theorem FrameBuffer.load_append {b c : FrameBuffer} {j : Nat} :
    FrameBuffer.load (b ++ c) j = if b.any (fun e => e.1 == j) then FrameBuffer.load b j else FrameBuffer.load c j := by
  induction b with
  | nil => simp
  | cons e b ih =>
    obtain ⟨i, p⟩ := e
    rw [List.cons_append, FrameBuffer.load_cons, FrameBuffer.load_cons, ih]
    by_cases hj : j = i
    · simp [hj]
    · have : (i == j) = false := by simpa using fun h => hj h.symm
      simp [hj, this]

theorem FrameBuffer.load_entries (i : Nat) (ps : List Pixel) (j : Nat) :
    FrameBuffer.load (FrameBuffer.entries i ps) (i + j) = ps.getD j 0#16 := by
  induction ps generalizing i j with
  | nil => simp [FrameBuffer.entries]
  | cons p ps ih =>
    have htail : ∀ k, FrameBuffer.load (FrameBuffer.entries (i + 1) ps) (i + (k + 1)) = ps.getD k 0#16 := by
      intro k
      rw [show i + (k + 1) = i + 1 + k by omega]
      exact ih (i + 1) k
    have hhead : FrameBuffer.load (FrameBuffer.entries (i + 1) ps) i = 0#16 :=
      FrameBuffer.load_of_not_mem fun e he => by have := FrameBuffer.entries_index he; omega
    simp only [FrameBuffer.entries]
    split
    · rename_i hp
      cases j with
      | zero => simp [hhead, hp]
      | succ k => simp [htail]
    · cases j with
      | zero => simp [FrameBuffer.load_cons]
      | succ k => simp [FrameBuffer.load_cons, htail]

theorem FrameBuffer.load_filter {b : FrameBuffer} {q : Nat → Bool} {j : Nat} (h : q j = true) :
    FrameBuffer.load (b.filter fun e => q e.1) j = FrameBuffer.load b j := by
  induction b with
  | nil => rfl
  | cons e b ih =>
    obtain ⟨i, p⟩ := e
    by_cases hj : j = i
    · subst hj
      simp [h, FrameBuffer.load_cons]
    · simp only [List.filter_cons]
      split <;> simp [FrameBuffer.load_cons, hj, ih]

/-- A frame stored: the elements below its length are its pixels, the others are as before. -/
theorem FrameBuffer.load_storeFrame (b : FrameBuffer) (ps : List Pixel) (j : Nat) :
    FrameBuffer.load (FrameBuffer.storeFrame b ps) j =
      if j < ps.length then ps.getD j 0#16 else FrameBuffer.load b j := by
  have hent := FrameBuffer.load_entries 0 ps j
  rw [Nat.zero_add] at hent
  unfold FrameBuffer.storeFrame
  rw [FrameBuffer.load_append]
  split
  · rename_i hany
    obtain ⟨e, he, hej⟩ := List.any_eq_true.mp hany
    have := FrameBuffer.entries_index he
    have hej : e.1 = j := by simpa using hej
    rw [hent, if_pos (by omega)]
  · rename_i hany
    split
    · rename_i hlt
      rw [FrameBuffer.load_of_not_mem, ← hent, FrameBuffer.load_of_not_mem]
      · intro e he hej
        exact hany (List.any_eq_true.mpr ⟨e, he, by simpa using hej⟩)
      · intro e he
        have := (List.mem_filter.mp he).2
        simp only [decide_eq_true_eq] at this
        omega
    · rename_i hge
      exact FrameBuffer.load_filter (q := fun i => decide (ps.length ≤ i)) (by simpa using hge)

theorem FrameBuffer.wf_iff {limit : Nat} {b : FrameBuffer} :
    FrameBuffer.wf limit b = true ↔
      b.Pairwise (fun x y => x.1 < y.1) ∧ ∀ e ∈ b, e.1 < limit ∧ e.2 ≠ 0#16 := by
  simp [FrameBuffer.wf]

/-- Clearing gives a canonical buffer. -/
@[simp] theorem FrameBuffer.wf_nil (limit : Nat) : FrameBuffer.wf limit [] = true := rfl

theorem FrameBuffer.entries_sorted (i : Nat) (ps : List Pixel) :
    (FrameBuffer.entries i ps).Pairwise (fun x y => x.1 < y.1) := by
  induction ps generalizing i with
  | nil => exact List.Pairwise.nil
  | cons p ps ih =>
    simp only [FrameBuffer.entries]
    split
    · exact ih _
    · refine List.Pairwise.cons ?_ (ih _)
      intro e he
      have := FrameBuffer.entries_index he
      show i < e.1
      omega

/-- Storing a frame keeps the canonical form. -/
theorem FrameBuffer.wf_storeFrame {limit : Nat} {b : FrameBuffer} {ps : List Pixel}
    (hb : FrameBuffer.wf limit b = true) (hlen : ps.length ≤ limit) :
    FrameBuffer.wf limit (FrameBuffer.storeFrame b ps) = true := by
  rw [FrameBuffer.wf_iff] at hb ⊢
  obtain ⟨hsorted, hall⟩ := hb
  unfold FrameBuffer.storeFrame
  refine ⟨List.pairwise_append.mpr ⟨FrameBuffer.entries_sorted 0 ps, hsorted.filter _, ?_⟩, ?_⟩
  · intro x hx y hy
    have h1 := FrameBuffer.entries_index hx
    have h2 := (List.mem_filter.mp hy).2
    simp only [decide_eq_true_eq] at h2
    omega
  · intro e he
    rcases List.mem_append.mp he with he | he
    · have := FrameBuffer.entries_index he
      exact ⟨by omega, this.2.2⟩
    · exact hall e (List.mem_filter.mp he).1

/-- Two canonical buffers that load alike at every index are equal data. -/
theorem FrameBuffer.ext_of_wf {limit : Nat} {b c : FrameBuffer} (hb : FrameBuffer.wf limit b = true)
    (hc : FrameBuffer.wf limit c = true) (h : ∀ j, FrameBuffer.load b j = FrameBuffer.load c j) : b = c := by
  rw [FrameBuffer.wf_iff] at hb hc
  obtain ⟨hbs, hba⟩ := hb
  obtain ⟨hcs, hca⟩ := hc
  induction b generalizing c with
  | nil =>
    cases c with
    | nil => rfl
    | cons e c =>
      have := h e.1
      rw [FrameBuffer.load_nil, FrameBuffer.load_cons, if_pos rfl] at this
      exact absurd this.symm (hca e (by simp)).2
  | cons e b ih =>
    cases c with
    | nil =>
      have := h e.1
      rw [FrameBuffer.load_nil, FrameBuffer.load_cons, if_pos rfl] at this
      exact absurd this (hba e (by simp)).2
    | cons f c =>
      have hbt := List.pairwise_cons.mp hbs
      have hct := List.pairwise_cons.mp hcs
      have hef : e.1 = f.1 := by
        rcases Nat.lt_trichotomy e.1 f.1 with hlt | heq | hgt
        · have := h e.1
          rw [FrameBuffer.load_cons, if_pos rfl, FrameBuffer.load_of_not_mem] at this
          · exact absurd this (hba e (by simp)).2
          · intro g hg
            rcases List.mem_cons.mp hg with rfl | hg
            · omega
            · have := hct.1 g hg; omega
        · exact heq
        · have := h f.1
          rw [FrameBuffer.load_of_not_mem (b := e :: b), FrameBuffer.load_cons, if_pos rfl] at this
          · exact absurd this.symm (hca f (by simp)).2
          · intro g hg
            rcases List.mem_cons.mp hg with rfl | hg
            · omega
            · have := hbt.1 g hg; omega
      have hval : e.2 = f.2 := by
        have := h e.1
        rwa [FrameBuffer.load_cons, FrameBuffer.load_cons, if_pos rfl, if_pos hef] at this
      have htail : b = c := by
        refine ih (fun j => ?_) hbt.2 (fun g hg => hba g (by simp [hg])) hct.2 (fun g hg => hca g (by simp [hg]))
        by_cases hj : j = e.1
        · rw [FrameBuffer.load_of_not_mem, FrameBuffer.load_of_not_mem]
          · intro g hg; have := hct.1 g hg; omega
          · intro g hg; have := hbt.1 g hg; omega
        · have := h j
          rwa [FrameBuffer.load_cons, FrameBuffer.load_cons, if_neg hj, if_neg (by omega)] at this
      obtain ⟨i, p⟩ := e
      obtain ⟨j, q⟩ := f
      simp only at hef hval
      rw [hef, hval, htail]

/-! ## The common checks -/

/-- Everything the common checks of R115 and the end of a command can do. -/
theorem command_cases {α : Type} (s : State) (wf : Bool) (op : Option α) (body : α → Except FaultCode State) :
    (s.faulted = true ∧ (wf = false ∨ op = none) ∧ command s wf op body = .next s.rejected) ∨
    (s.faulted = false ∧ op = none ∧ command s wf op body = .next (s.faultEntry .operand)) ∨
    (∃ a e, (s.faulted = false ∨ wf = true) ∧ op = some a ∧ body a = .error e ∧
      command s wf op body = .next (s.faultEntry e)) ∨
    (∃ a t, (s.faulted = false ∨ wf = true) ∧ op = some a ∧ body a = .ok t ∧ command s wf op body = .next t) := by
  unfold command
  cases hf : s.faulted <;> cases wf <;> cases op <;> simp
  all_goals
    rename_i a
    cases hb : body a <;> simp

theorem command_operand {α : Type} {s : State} (hf : s.faulted = false) (wf : Bool)
    (body : α → Except FaultCode State) : command s wf none body = .next (s.faultEntry .operand) := by
  simp [command, hf]

theorem command_error {α : Type} {s : State} (hf : s.faulted = false) (wf : Bool) {a : α} {e : FaultCode}
    {body : α → Except FaultCode State} (hb : body a = .error e) :
    command s wf (some a) body = .next (s.faultEntry e) := by
  simp [command, hf, hb]

theorem command_ok {α : Type} {s t : State} (hf : s.faulted = false) (wf : Bool) {a : α}
    {body : α → Except FaultCode State} (hb : body a = .ok t) : command s wf (some a) body = .next t := by
  simp [command, hf, hb]

theorem command_accepted_ok {α : Type} {s t : State} {a : α} {body : α → Except FaultCode State}
    (hb : body a = .ok t) : command s true (some a) body = .next t := by
  cases hf : s.faulted <;> simp [command, hf, hb]

theorem command_rejected {α : Type} {s : State} (hf : s.faulted = true) (op : Option α)
    (body : α → Except FaultCode State) : command s false op body = .next s.rejected := by
  simp [command, hf]

/-- A command always answers a next state. -/
theorem command_answers_next {α : Type} (s : State) (wf : Bool) (op : Option α) (body : α → Except FaultCode State) :
    ∃ t, command s wf op body = .next t := by
  rcases command_cases s wf op body with ⟨-, -, h⟩ | ⟨-, -, h⟩ | ⟨a, e, -, -, -, h⟩ | ⟨a, t, -, -, -, h⟩
  all_goals exact ⟨_, h⟩

end Sys2Proof.Machine
end

