-- ==== Sys2Proof/Laws/Codec.lean ====
section
/-!
SUPPORT. What the functions of the codec answer: lengths, and for each function that can fault, when it answers
and what.
-/

namespace Sys2Proof.Machine

/-! ## Packing and frames: lengths -/

@[simp] theorem pack_nil (w : Nat) : pack w [] = [] := rfl

@[simp] theorem snakeOrder_length (cols n : Nat) : (snakeOrder cols n).length = n := by simp [snakeOrder]

@[simp] theorem snakeDeltas_length (cols n : Nat) (cur : List Pixel) (prev : FrameBuffer) :
    (snakeDeltas cols n cur prev).length = n := by simp [snakeDeltas]

@[simp] theorem runningSums_length (init : Int) (adj : List Int) : (runningSums init adj).length = adj.length + 1 := by
  induction adj generalizing init with
  | nil => rfl
  | cons a as ih => simp [runningSums, ih]

/-- Summing the adjacent deltas up from the first delta gives the deltas back. -/
theorem runningSums_adjacentDeltas (d : Int) (ds : List Int) : runningSums d (adjacentDeltas (d :: ds)) = d :: ds := by
  induction ds generalizing d with
  | nil => rfl
  | cons e ds ih => simp only [adjacentDeltas, runningSums, ih, add_sub_cancel]

@[simp] theorem scatter_length (xs : List (Nat × Pixel)) (pix : List Pixel) : (scatter xs pix).length = pix.length := by
  induction xs generalizing pix with
  | nil => rfl
  | cons x xs ih => obtain ⟨j, p⟩ := x; simp [scatter, ih]

theorem natAbs_le_maxMagnitude {adj : List Int} {a : Int} (h : a ∈ adj) : a.natAbs ≤ maxMagnitude adj := by
  induction adj with
  | nil => cases h
  | cons b bs ih =>
    simp only [maxMagnitude]
    rcases List.mem_cons.mp h with rfl | h
    · exact Nat.le_max_left _ _
    · exact le_trans (ih h) (Nat.le_max_right _ _)

/-- The unpacker answers exactly when the bytes it needs are there; short inputs fault with E_TRUNCATED. -/
theorem unpack_truncated {input : List Byte} {w n : Nat} (h : input.length < ceilDiv (n * w) 8) :
    unpack input w n = .error .truncated := if_pos h

/-! ## Fields -/

@[simp] theorem rawType_valueOf (t : RawType) (vb : List Byte) : (valueOf t vb).rawType = t := by cases t <;> rfl

/-- R86, as an equivalence. -/
theorem encodeField_eq_ok {code : Byte} {v : FieldValue} {bs : List Byte} :
    encodeField code v = .ok bs ↔
      v.rawType = typeOf code ∧ v.bytes.length ≤ 255 ∧ bs = BitVec.ofNat 8 v.bytes.length :: code :: v.bytes := by
  unfold encodeField
  split
  · simp_all
  · split
    · simp only [reduceCtorEq, false_iff]; omega
    · simp_all [eq_comm]

/-- The timestamp branch answers when 8 value bytes are there. -/
theorem decodeTimestamp_eq_ok {ps : Params} {input : List Byte} {p : Nat} {code : Byte} {r : FieldRead} :
    decodeTimestamp ps input p code = .ok r ↔
      ∃ vb, memRead input (p + 2) 8 = .ok vb ∧
        r = if ps.tsMaxUs < fromLe vb then ⟨⟨code, .ts, .ts 0#64⟩, p + 10, true⟩
          else ⟨⟨code, .ts, valueOf .ts vb⟩, p + 10, false⟩ := by
  unfold decodeTimestamp
  cases memRead input (p + 2) 8 with
  | error e => simp [bind, Except.bind]
  | ok vb =>
    simp only [bind, Except.bind, pure, Except.pure]
    by_cases ht : ps.tsMaxUs < fromLe vb <;> simp [ht, eq_comm]

/-- The branch of the other fields answers when the value bytes are there and nothing is wrong with them. -/
theorem decodePlain_eq_ok {ps : Params} {input : List Byte} {p len : Nat} {code : Byte} {r : FieldRead} :
    decodePlain ps input p len code = .ok r ↔
      ∃ vb, memRead input (p + 2) len = .ok vb ∧ checkValue ps (typeOf code) len vb = none ∧
        r = ⟨⟨code, typeOf code, valueOf (typeOf code) vb⟩, p + 2 + len, false⟩ := by
  unfold decodePlain
  cases memRead input (p + 2) len with
  | error e => simp [bind, Except.bind]
  | ok vb =>
    simp only [bind, Except.bind, pure, Except.pure]
    cases hc : checkValue ps (typeOf code) len vb with
    | none => simp [hc, eq_comm]
    | some e => simp [hc, throw, throwThe, MonadExceptOf.throw]

/-- R87: what a field that decodes is. -/
theorem decodeField_eq_ok {ps : Params} {input : List Byte} {p : Nat} {r : FieldRead} :
    decodeField ps input p = .ok r ↔
      ∃ len code, input[p]? = some len ∧ input[p + 1]? = some code ∧
        (if typeOf code = .ts then decodeTimestamp ps input p code
          else decodePlain ps input p len.toNat code) = .ok r := by
  unfold decodeField memReadByte
  cases h0 : input[p]? with
  | none => simp [bind, Except.bind]
  | some len =>
    cases h1 : input[p + 1]? with
    | none => simp [bind, Except.bind]
    | some code => simp [bind, Except.bind]

/-- A decoded field's raw type is its code's, and the tag of its value. -/
theorem decodeField_rawType {ps : Params} {input : List Byte} {p : Nat} {r : FieldRead}
    (h : decodeField ps input p = .ok r) :
    r.field.rawType = typeOf r.field.code ∧ r.field.value.rawType = r.field.rawType := by
  obtain ⟨len, code, -, -, h⟩ := decodeField_eq_ok.mp h
  split at h
  · rename_i ht
    obtain ⟨vb, -, rfl⟩ := decodeTimestamp_eq_ok.mp h
    split <;> exact ⟨ht.symm, rfl⟩
  · obtain ⟨vb, -, -, rfl⟩ := decodePlain_eq_ok.mp h
    exact ⟨rfl, rawType_valueOf _ _⟩

theorem hasDuplicate_eq_false {cs : List Byte} : hasDuplicate cs = false ↔ cs.Nodup := by
  induction cs with
  | nil => simp [hasDuplicate]
  | cons c cs ih => simp [hasDuplicate, ih]

end Sys2Proof.Machine
end

