-- ==== Sys2Proof/Laws/BitPacking.lean ====
section
/-!
SUPPORT. The scratch register bit by bit, and what the loops of the packer (R70) and the unpacker (R72) do.
-/

namespace Sys2Proof.Machine

/-! ## Bits of the scratch register -/

theorem ceilDiv_eight (a : Nat) : ceilDiv a 8 = (a + 7) / 8 := rfl

/-- Bit `j` of ACC counted from the top, so bit 0 is ACC[39]. -/
def Scratch.bit (x : Scratch) (j : Nat) : Bool := decide (j < 40) && x.acc.getLsbD (39 - j)

theorem Scratch.ext_bit {x y : Scratch} (hh : x.held = y.held) (hb : ∀ j, j < 40 → x.bit j = y.bit j) : x = y := by
  obtain ⟨a, h⟩ := x
  obtain ⟨b, k⟩ := y
  have : a = b := by
    apply BitVec.eq_of_getLsbD_eq
    intro i hi
    have := hb (39 - i) (by omega)
    simpa [Scratch.bit, show 39 - (39 - i) = i by simp [Config.scratchBits] at hi; omega, show 39 - i < 40 by omega] using this
  simp only at hh
  rw [this, hh]

theorem Scratch.bit_empty (j : Nat) : Scratch.empty.bit j = false := by simp [Scratch.bit, Scratch.empty]

theorem Scratch.bit_dropByte (x : Scratch) (j : Nat) : x.dropByte.bit j = x.bit (j + 8) := by
  simp only [Scratch.bit, Scratch.dropByte, BitVec.getLsbD_shiftLeft, Config.scratchBits]
  by_cases h : j + 8 < 40
  · simp [h, show j < 40 by omega, show ¬ 39 - j < 8 by omega, show 39 - j < 40 by omega, show 39 - j - 8 = 39 - (j + 8) by omega]
  · simp [h, show 39 - j < 8 by omega]

theorem Scratch.bit_dropValue (x : Scratch) (w j : Nat) : (x.dropValue w).bit j = x.bit (j + w) := by
  simp only [Scratch.bit, Scratch.dropValue, BitVec.getLsbD_shiftLeft, Config.scratchBits]
  by_cases h : j + w < 40
  · simp [h, show j < 40 by omega, show ¬ 39 - j < w by omega, show 39 - j < 40 by omega, show 39 - j - w = 39 - (j + w) by omega]
  · by_cases h2 : j < 40
    · simp [h, show 39 - j < w by omega]
    · simp [h, h2]

theorem Scratch.bit_addByte (x : Scratch) (b : Byte) (hx : x.held ≤ 31) (j : Nat) :
    (x.addByte b).bit j =
      (x.bit j || (decide (x.held ≤ j ∧ j < x.held + 8) && b.getLsbD (7 - (j - x.held)))) := by
  simp only [Scratch.bit, Scratch.addByte, BitVec.getLsbD_or, BitVec.getLsbD_shiftLeft, BitVec.getLsbD_setWidth, Config.scratchBits]
  by_cases h : j < 40
  · by_cases h1 : x.held ≤ j
    · by_cases h2 : j < x.held + 8
      · simp [h, h1, h2, show 39 - j < 40 by omega, show ¬ 39 - j < 32 - x.held by omega,
          show 39 - j - (32 - x.held) = 7 - (j - x.held) by omega, show 7 - (j - x.held) < 40 by omega]
      · simp [h, h2, show 39 - j < 32 - x.held by omega]
    · have : b.getLsbD (39 - j - (32 - x.held)) = false := BitVec.getLsbD_of_ge _ _ (by omega)
      simp [h, h1, this]
  · simp [h, show ¬ j < x.held + 8 by omega]

theorem Scratch.bit_add (x : Scratch) (w : Nat) (v : Int) (hw : x.held + w ≤ 40) (j : Nat) :
    (x.add w v).bit j =
      (x.bit j || (decide (x.held ≤ j ∧ j < x.held + w) && (encBits w v).testBit (w - 1 - (j - x.held)))) := by
  have hf : ∀ i, (BitVec.ofInt w v).getLsbD i = (encBits w v).testBit i := by
    intro i
    have : (BitVec.ofInt w v).toNat = encBits w v := by
      simp [encBits, BitVec.toNat_ofInt]
    rw [← BitVec.testBit_toNat, this]
  simp only [Scratch.bit, Scratch.add, packField, BitVec.getLsbD_or, BitVec.getLsbD_shiftLeft, BitVec.getLsbD_setWidth, Config.scratchBits]
  by_cases h : j < 40
  · by_cases h1 : x.held ≤ j
    · by_cases h2 : j < x.held + w
      · simp [h, h1, h2, hf, show 39 - j < 40 by omega, show ¬ 39 - j < 40 - x.held - w by omega,
          show 39 - j - (40 - x.held - w) = w - 1 - (j - x.held) by omega, show w - 1 - (j - x.held) < 40 by omega]
      · simp [h, h2, show 39 - j < 40 - x.held - w by omega]
    · have : (BitVec.ofInt w v).getLsbD (39 - j - (40 - x.held - w)) = false := BitVec.getLsbD_of_ge _ _ (by omega)
      simp [h, h1, this]
  · simp [h, show ¬ j < x.held + w by omega]

theorem Scratch.getLsbD_topByte (x : Scratch) (i : Nat) (hi : i < 8) : x.topByte.getLsbD i = x.bit (7 - i) := by
  simp [Scratch.topByte, Scratch.bit, hi, show 39 - (7 - i) = 32 + i by omega, show 7 - i < 40 by omega]

/-- The number of the `n` bits `f 0 .. f (n-1)`, first most significant -/
def bitsValue (f : Nat → Bool) : Nat → Nat
  | 0 => 0
  | n + 1 => 2 * bitsValue f n + (f n).toNat

theorem bitsValue_eq_sum (f : Nat → Bool) (n : Nat) :
    ((List.range n).map fun k => (f k).toNat * 2 ^ (n - 1 - k)).sum = bitsValue f n := by
  induction n with
  | zero => rfl
  | succ n ih =>
    rw [List.range_succ, List.map_append, List.sum_append, bitsValue, ← ih]
    have : ((List.range n).map fun k => (f k).toNat * 2 ^ (n + 1 - 1 - k)) =
        (List.range n).map fun k => 2 * ((f k).toNat * 2 ^ (n - 1 - k)) := by
      apply List.map_congr_left
      intro k hk
      have := List.mem_range.mp hk
      rw [show n + 1 - 1 - k = (n - 1 - k) + 1 by omega, Nat.pow_succ]; ring
    rw [this, List.sum_map_mul_left]
    simp

theorem testBit_bitsValue (f : Nat → Bool) (n i : Nat) :
    (bitsValue f n).testBit i = (decide (i < n) && f (n - 1 - i)) := by
  induction n generalizing i with
  | zero => simp [bitsValue]
  | succ n ih =>
    cases i with
    | zero =>
      rw [bitsValue, Nat.testBit_zero]
      cases hn : f n <;> simp [hn]
    | succ i =>
      rw [bitsValue, Nat.testBit_succ]
      have : (2 * bitsValue f n + (f n).toNat) / 2 = bitsValue f n := by
        have hb := (f n).toNat_lt
        omega
      rw [this, ih]
      by_cases h : i < n
      · simp [h, show n - (i+1) = n - 1 - i by omega]
      · simp [h]

theorem bitsValue_lt (f : Nat → Bool) (n : Nat) : bitsValue f n < 2 ^ n := by
  induction n with
  | zero => simp [bitsValue]
  | succ n ih =>
    rw [bitsValue, Nat.pow_succ]
    have hb := (f n).toNat_lt
    omega

theorem bitsValue_congr {f g : Nat → Bool} : ∀ {n : Nat}, (∀ k, k < n → f k = g k) → bitsValue f n = bitsValue g n := by
  intro n
  induction n with
  | zero => intro _; rfl
  | succ n ih =>
    intro h
    rw [bitsValue, bitsValue, ih (fun k hk => h k (by omega)), h n (by omega)]

theorem Scratch.topByte_eq (x : Scratch) : x.topByte = BitVec.ofNat 8 (bitsValue x.bit 8) := by
  apply BitVec.eq_of_getLsbD_eq
  intro i hi
  rw [Scratch.getLsbD_topByte _ _ hi, BitVec.getLsbD_ofNat, testBit_bitsValue]
  simp [hi]

theorem Scratch.topValue_eq (x : Scratch) (w : Nat) (hw : w ≤ 40) (hw1 : 1 ≤ w) : x.topValue w = sextBits w (bitsValue x.bit w) := by
  have h : (x.acc.extractLsb' (Config.scratchBits - w) w) = BitVec.ofNat w (bitsValue x.bit w) := by
    apply BitVec.eq_of_getLsbD_eq
    intro i hi
    rw [BitVec.getLsbD_extractLsb', BitVec.getLsbD_ofNat, testBit_bitsValue]
    simp only [Config.scratchBits, Scratch.bit, hi, decide_true, Bool.true_and]
    rw [show 39 - (w - 1 - i) = 40 - w + i by omega]
    simp [show w - 1 - i < 40 by omega]
  unfold Scratch.topValue
  rw [h, BitVec.toInt_eq_toNat_cond, BitVec.toNat_ofNat, Nat.mod_eq_of_lt (bitsValue_lt _ _)]
  unfold sextBits
  have : 2 ^ w = 2 * 2 ^ (w - 1) := by rw [← Nat.pow_succ', show (w-1).succ = w by omega]
  by_cases hlt : bitsValue x.bit w < 2 ^ (w - 1)
  · rw [if_pos (by omega), if_pos hlt]
  · rw [if_neg (by omega), if_neg hlt]; simp


/-! ## The loops of R72 -/

/-- The held bits are the bits of the input that end where byte `pos` begins; every other bit of ACC is 0. -/
def Scratch.Reads (x : Scratch) (input : List Byte) (pos : Nat) : Prop :=
  x.held ≤ 8 * pos ∧ ∀ j, x.bit j = (decide (j < x.held) && inputBit input (8 * pos - x.held + j))

theorem inputBit_eq (input : List Byte) (pos : Nat) (b : Byte) (h : input[pos]? = some b) (k : Nat) (hk : k < 8) :
    inputBit input (8 * pos + k) = b.getLsbD (7 - k) := by
  unfold inputBit
  rw [show (8 * pos + k) / 8 = pos by omega, show (8 * pos + k) % 8 = k by omega]
  rw [List.getD_eq_getElem?_getD, h, Option.getD_some, BitVec.testBit_toNat]

theorem Scratch.Reads.addByte {x : Scratch} {input : List Byte} {pos : Nat} {b : Byte} (hx : x.Reads input pos)
    (hb : input[pos]? = some b) (hh : x.held ≤ 31) : (x.addByte b).Reads input (pos + 1) := by
  obtain ⟨h1, h2⟩ := hx
  refine ⟨by simp only [Scratch.addByte]; omega, fun j => ?_⟩
  rw [Scratch.bit_addByte _ _ hh, h2]
  simp only [Scratch.addByte]
  rw [show 8 * (pos + 1) - (x.held + 8) = 8 * pos - x.held by omega]
  by_cases ha : j < x.held
  · simp [ha, show j < x.held + 8 by omega]
  · by_cases hc : j < x.held + 8
    · have := inputBit_eq input pos b hb (j - x.held) (by omega)
      rw [show 8 * pos + (j - x.held) = 8 * pos - x.held + j by omega] at this
      simp [ha, hc, show x.held ≤ j by omega, this]
    · simp [ha, hc]

theorem Scratch.Reads.dropValue {x : Scratch} {input : List Byte} {pos w : Nat} (hx : x.Reads input pos)
    (hh : w ≤ x.held) : (x.dropValue w).Reads input pos := by
  obtain ⟨h1, h2⟩ := hx
  refine ⟨by simp only [Scratch.dropValue]; omega, fun j => ?_⟩
  rw [Scratch.bit_dropValue, h2]
  simp only [Scratch.dropValue]
  rw [show 8 * pos - (x.held - w) + j = 8 * pos - x.held + (j + w) by omega]
  by_cases hj : j + w < x.held
  · simp [hj, show j < x.held - w by omega]
  · simp [hj, show ¬ j < x.held - w by omega]

/-- What `while HELD < w` leaves, when the bytes are there. -/
theorem refill_eq {input : List Byte} (w : Nat) (hw : w ≤ 32) : ∀ (n : Nat) (x : Scratch) (pos : Nat), x.Reads input pos →
    n = (w - x.held + 7) / 8 → pos + n ≤ input.length →
    ∃ y, Scratch.refill input n x pos = .ok (y, pos + n) ∧ y.Reads input (pos + n) ∧ y.held = x.held + 8 * n := by
  intro n
  induction n with
  | zero => intro x pos hx _ _; exact ⟨x, rfl, hx, rfl⟩
  | succ n ih =>
    intro x pos hx hn hl
    have hp : pos < input.length := by omega
    have hb : input[pos]? = some input[pos] := List.getElem?_eq_getElem hp
    have hr := hx.addByte hb (by omega)
    obtain ⟨y, h1, h2, h3⟩ := ih (x.addByte input[pos]) (pos + 1) hr (by simp only [Scratch.addByte]; omega) (by omega)
    refine ⟨y, ?_, by rwa [show pos + (n + 1) = pos + 1 + n by omega], by rw [h3]; simp only [Scratch.addByte]; omega⟩
    simp only [Scratch.refill, memReadByte, hb]
    rw [h1, show pos + (n + 1) = pos + 1 + n by omega]

/-- What the unpacking loop answers from a register with fewer than 8 bits held, when the bytes are there. -/
theorem unpackLoop_eq {input : List Byte} {w : Nat} (hw1 : 1 ≤ w) (hw : w ≤ 32) : ∀ (n : Nat) (x : Scratch) (pos : Nat),
    x.Reads input pos → x.held ≤ 7 → (8 * pos - x.held + n * w + 7) / 8 ≤ input.length →
    unpackLoop input w n x pos = .ok
      ((List.range n).map (fun i => sextBits w (bitsValue (fun k => inputBit input (8 * pos - x.held + i * w + k)) w)),
        (8 * pos - x.held + n * w + 7) / 8) := by
  intro n
  induction n with
  | zero =>
    intro x pos hx hh _
    have := hx.1
    simp only [unpackLoop, List.range_zero, List.map_nil, Nat.zero_mul, Nat.add_zero]
    rw [show (8 * pos - x.held + 7) / 8 = pos by omega]
  | succ n ih =>
    intro x pos hx hh hl
    have h1 := hx.1
    have hmul : (n + 1) * w = n * w + w := by ring
    rw [hmul] at hl ⊢
    obtain ⟨y, hy, hr, hheld⟩ := refill_eq w hw _ x pos hx rfl (by
      have : pos + (w - x.held + 7) / 8 ≤ (8 * pos - x.held + (n * w + w) + 7) / 8 := by omega
      omega)
    have hwy : w ≤ y.held := by omega
    have hd := hr.dropValue hwy
    have hidx : 8 * (pos + (w - x.held + 7) / 8) - (y.held - w) = 8 * pos - x.held + w := by omega
    have := ih (y.dropValue w) _ hd (by simp only [Scratch.dropValue]; omega) (by
      simp only [Scratch.dropValue]; rw [hidx]; omega)
    simp only [Scratch.dropValue] at this
    rw [hidx] at this
    simp only [unpackLoop, ceilDiv_eight, hy]
    simp only [Scratch.dropValue]
    rw [this]
    simp only [Except.ok.injEq, Prod.mk.injEq]
    refine ⟨?_, by congr 1; omega⟩
    rw [List.range_succ_eq_map, List.map_cons, List.map_map]
    congr 1
    · rw [Scratch.topValue_eq _ _ (by omega) hw1]
      congr 1
      have : ∀ m, m ≤ w → bitsValue y.bit m = bitsValue (fun k => inputBit input (8 * pos - x.held + 0 * w + k)) m := by
        intro m hm
        induction m with
        | zero => rfl
        | succ m ihm =>
          rw [bitsValue, bitsValue, ihm (by omega), hr.2 m]
          simp only [show m < y.held by omega, decide_true, Bool.true_and]
          rw [show 8 * (pos + (w - x.held + 7) / 8) - y.held + m = 8 * pos - x.held + 0 * w + m by omega]
      exact this w le_rfl
    · apply List.map_congr_left
      intro i _
      simp only [Function.comp]
      congr 2
      funext k
      congr 1
      have : i.succ * w = i * w + w := Nat.succ_mul i w
      omega

/-- R72: what `unpack` answers when the bytes are there. -/
theorem unpack_eq {input : List Byte} {w n : Nat} (hw1 : 1 ≤ w) (hw : w ≤ 32) (h : ceilDiv (n * w) 8 ≤ input.length) :
    unpack input w n = .ok ((List.range n).map (fun i => sextBits w (inputField input w i)), ceilDiv (n * w) 8) := by
  unfold unpack
  rw [if_neg (by omega)]
  rw [ceilDiv_eight] at h
  have := unpackLoop_eq hw1 hw n Scratch.empty 0 (input := input) ⟨by simp [Scratch.empty], fun j => by rw [Scratch.bit_empty]; simp [Scratch.empty]⟩
    (by simp [Scratch.empty]) (by simpa [Scratch.empty] using h)
  rw [this]
  simp only [Scratch.empty, ceilDiv_eight, Nat.mul_zero, Nat.zero_sub, Nat.zero_add, Except.ok.injEq, Prod.mk.injEq, and_true]
  apply List.map_congr_left
  intro i _
  congr 1
  exact (bitsValue_eq_sum _ _).symm


/-! ## The loops of R70 -/

/-- The bytes of the bit string `f 0 .. f (n-1)`, zero padded. -/
def bytesOf (f : Nat → Bool) (n : Nat) : List Byte :=
  (List.range (ceilDiv n 8)).map fun m => BitVec.ofNat 8 (bitsValue (fun k => decide (8 * m + k < n) && f (8 * m + k)) 8)

/-- What `while HELD >= 8` emits and leaves. -/
theorem emit_eq : ∀ (n : Nat) (x : Scratch), 8 * n ≤ x.held → x.held ≤ 40 →
    (Scratch.emit n x).1 = (List.range n).map (fun m => BitVec.ofNat 8 (bitsValue (fun k => x.bit (8 * m + k)) 8)) ∧
    (Scratch.emit n x).2.held = x.held - 8 * n ∧ ∀ j, (Scratch.emit n x).2.bit j = x.bit (j + 8 * n) := by
  intro n
  induction n with
  | zero => intro x _ _; exact ⟨rfl, rfl, fun j => rfl⟩
  | succ n ih =>
    intro x h1 h2
    obtain ⟨ha, hb, hc⟩ := ih x.dropByte (by simp only [Scratch.dropByte]; omega) (by simp only [Scratch.dropByte]; omega)
    simp only [Scratch.emit]
    refine ⟨?_, by rw [hb]; simp only [Scratch.dropByte]; omega, fun j => ?_⟩
    · rw [ha, List.range_succ_eq_map, List.map_cons, List.map_map, Scratch.topByte_eq]
      refine congrArg₂ _ (congrArg _ (bitsValue_congr fun k _ => by simp)) ?_
      apply List.map_congr_left
      intro m _
      simp only [Function.comp, Scratch.bit_dropByte]
      refine congrArg _ (bitsValue_congr fun k _ => ?_)
      congr 1
      omega
    · rw [hc, Scratch.bit_dropByte]
      congr 1

/-- What the packing loop emits from a register with fewer than 8 bits held. -/
theorem packLoop_eq {w : Nat} (hw1 : 1 ≤ w) (hw : w ≤ 32) : ∀ (vs : List Int) (x : Scratch), x.held ≤ 7 →
    (∀ j, x.held ≤ j → x.bit j = false) →
    packLoop w x vs = bytesOf (fun j => if j < x.held then x.bit j else streamBit w (vs.map (encBits w)) (j - x.held))
      (x.held + vs.length * w) := by
  intro vs
  induction vs with
  | nil =>
    intro x hx hz
    simp only [packLoop, List.length_nil, Nat.zero_mul, Nat.add_zero]
    split
    · have : ceilDiv x.held 8 = 1 := by rw [ceilDiv_eight]; omega
      simp only [bytesOf, this, List.range_one, List.map_cons, List.map_nil, Scratch.topByte_eq]
      refine congrArg (fun b => [b]) (congrArg _ (bitsValue_congr fun k _ => ?_))
      by_cases hk : k < x.held
      · simp [hk]
      · simp [hk, hz k (by omega)]
    · have : ceilDiv x.held 8 = 0 := by rw [ceilDiv_eight]; omega
      simp [bytesOf, this]
  | cons v vs ih =>
    intro x hx hz
    have hadd : (x.add w v).held = x.held + w := rfl
    obtain ⟨ha, hb, hc⟩ := emit_eq ((x.held + w) / 8) (x.add w v) (by rw [hadd]; omega) (by rw [hadd]; omega)
    have hbit := Scratch.bit_add x w v (by omega)
    set z := (Scratch.emit ((x.held + w) / 8) (x.add w v)).2 with hzdef
    have hzh : z.held = (x.held + w) % 8 := by rw [hb, hadd]; omega
    have hzz : ∀ j, z.held ≤ j → z.bit j = false := by
      intro j hj
      rw [hc, hbit, hz _ (by omega)]
      simp; omega
    have := ih z (by omega) hzz
    simp only [packLoop, hadd]
    rw [ha, ← hzdef, this]
    have hlen : x.held + (v :: vs).length * w = 8 * ((x.held + w) / 8) + (z.held + vs.length * w) := by
      rw [List.length_cons, Nat.succ_mul, hzh]; omega
    simp only [bytesOf]
    rw [hlen]
    have hcd : ceilDiv (8 * ((x.held + w) / 8) + (z.held + vs.length * w)) 8 = (x.held + w) / 8 + ceilDiv (z.held + vs.length * w) 8 := by
      simp only [ceilDiv_eight]; omega
    rw [hcd, List.range_add, List.map_append, List.map_map]
    have hstream : ∀ j, streamBit w ((v :: vs).map (encBits w)) j =
        if j < w then (encBits w v).testBit (w - 1 - j) else streamBit w (vs.map (encBits w)) (j - w) := by
      intro j
      unfold streamBit
      simp only [List.length_map, List.length_cons, List.map_cons]
      by_cases hj : j < w
      · have : j < (vs.length + 1) * w := by rw [Nat.succ_mul]; omega
        simp [hj, this, Nat.div_eq_of_lt hj, Nat.mod_eq_of_lt hj]
      · have h1 : (j < (vs.length + 1) * w) ↔ (j - w < vs.length * w) := by rw [Nat.succ_mul]; omega
        have h2 : j / w = (j - w) / w + 1 := by
          rw [← Nat.add_div_right _ (by omega : 0 < w), show j - w + w = j by omega]
        have h3 : j % w = (j - w) % w := by
          rw [← Nat.add_mod_right (j - w) w, show j - w + w = j by omega]
        simp [hj, h1, h2, h3]
    have hnew : ∀ j, j < x.held + w → (x.add w v).bit j =
        if j < x.held then x.bit j else streamBit w ((v :: vs).map (encBits w)) (j - x.held) := by
      intro j hj
      rw [hbit, hstream]
      by_cases h : j < x.held
      · simp [h]
      · rw [hz j (by omega)]
        simp [h, show x.held ≤ j by omega, hj, show j - x.held < w by omega]
    refine congrArg₂ _ ?_ ?_
    · apply List.map_congr_left
      intro m hm
      have hm := List.mem_range.mp hm
      refine congrArg _ (bitsValue_congr fun k hk => ?_)
      rw [hnew _ (by omega)]
      simp [show 8 * m + k < 8 * ((x.held + w) / 8) + (z.held + vs.length * w) by omega]
    · apply List.map_congr_left
      intro m _
      simp only [Function.comp]
      refine congrArg _ (bitsValue_congr fun k hk => ?_)
      have e1 : (8 * m + k < z.held + vs.length * w) ↔
          (8 * ((x.held + w) / 8 + m) + k < 8 * ((x.held + w) / 8) + (z.held + vs.length * w)) := by omega
      simp only [e1]
      refine congrArg _ ?_
      by_cases hk : 8 * m + k < z.held
      · rw [if_pos hk, hc, hnew _ (by omega), show 8 * m + k + 8 * ((x.held + w) / 8) = 8 * ((x.held + w) / 8 + m) + k by omega]
      · rw [if_neg hk, if_neg (by omega), hstream, if_neg (by omega)]
        congr 1; omega

end Sys2Proof.Machine
end

