-- ==== Sys2Proof/Laws/Decode.lean ====
section
/-! SUPPORT. The fields of a command word (R51) and the OPCODE map read back (R52). -/

namespace Sys2Proof

/-- R51: which field a bit of the word is in. -/
theorem getLsbD_wordOf (rsvd : BitVec 16) (arg opcode : Byte) (i : Nat) :
    (wordOf rsvd arg opcode).getLsbD i =
      if i < 8 then opcode.getLsbD i else if i < 16 then arg.getLsbD (i - 8) else rsvd.getLsbD (i - 16) := by
  have h : (wordOf rsvd arg opcode).getLsbD i =
      if i < 8 then opcode.getLsbD i else (rsvd ++ arg : BitVec (16 + 8)).getLsbD (i - 8) :=
    BitVec.getLsbD_append
  rw [h]
  split
  · rfl
  · have h' : (rsvd ++ arg : BitVec (16 + 8)).getLsbD (i - 8) =
        if i - 8 < 8 then arg.getLsbD (i - 8) else rsvd.getLsbD (i - 8 - 8) :=
      BitVec.getLsbD_append
    rw [h']
    by_cases h16 : i < 16
    · rw [if_pos (by omega), if_pos h16]
    · rw [if_neg (by omega), if_neg h16, show i - 8 - 8 = i - 16 by omega]

@[simp] theorem Word.opcode_wordOf (rsvd : BitVec 16) (arg opcode : Byte) :
    Word.opcode (wordOf rsvd arg opcode) = opcode := by
  apply BitVec.eq_of_getLsbD_eq
  intro i hi
  rw [Word.opcode, BitVec.getLsbD_extractLsb', getLsbD_wordOf, Nat.zero_add, if_pos hi]
  simp [hi]

@[simp] theorem Word.arg_wordOf (rsvd : BitVec 16) (arg opcode : Byte) :
    Word.arg (wordOf rsvd arg opcode) = arg := by
  apply BitVec.eq_of_getLsbD_eq
  intro i hi
  rw [Word.arg, BitVec.getLsbD_extractLsb', getLsbD_wordOf, if_neg (by omega), if_pos (by omega),
    Nat.add_sub_cancel_left]
  simp [hi]

@[simp] theorem Word.rsvd_wordOf (rsvd : BitVec 16) (arg opcode : Byte) :
    Word.rsvd (wordOf rsvd arg opcode) = rsvd := by
  apply BitVec.eq_of_getLsbD_eq
  intro i hi
  rw [Word.rsvd, BitVec.getLsbD_extractLsb', getLsbD_wordOf, if_neg (by omega), if_neg (by omega),
    Nat.add_sub_cancel_left]
  simp [hi]

/-- A word is its three fields. -/
theorem Word.eq_wordOf (w : Word) : w = wordOf (Word.rsvd w) (Word.arg w) (Word.opcode w) := by
  apply BitVec.eq_of_getLsbD_eq
  intro i hi
  rw [getLsbD_wordOf]
  simp only [Word.rsvd, Word.arg, Word.opcode, BitVec.getLsbD_extractLsb']
  by_cases h8 : i < 8
  · rw [if_pos h8, Nat.zero_add]
    simp [h8]
  · by_cases h16 : i < 16
    · rw [if_neg h8, if_pos h16, show 8 + (i - 8) = i by omega]
      simp [show i - 8 < 8 by omega]
    · rw [if_neg h8, if_neg h16, show 16 + (i - 16) = i by omega]
      simp [show i - 16 < 16 by omega]

/-- The bits of a word as its value: `RSVD * 2^16 + ARG * 2^8 + OPCODE`. -/
theorem toNat_wordOf (rsvd : BitVec 16) (arg opcode : Byte) :
    (wordOf rsvd arg opcode).toNat = rsvd.toNat * 65536 + arg.toNat * 256 + opcode.toNat := by
  have h : (wordOf rsvd arg opcode).toNat = (rsvd.toNat <<< 8 ||| arg.toNat) <<< 8 ||| opcode.toNat := by
    simp only [wordOf, BitVec.toNat_append]
  rw [h, ← Nat.shiftLeft_add_eq_or_of_lt opcode.isLt, ← Nat.shiftLeft_add_eq_or_of_lt arg.isLt,
    Nat.shiftLeft_eq, Nat.shiftLeft_eq]
  omega

/-- What the OPCODE map selects has the OPCODE and ARG it was selected by. -/
theorem commandOf_eq_some {opcode arg : Byte} {i : Instr} (h : commandOf opcode arg = some i) :
    opcode = i.opcode ∧ arg = i.arg := by
  unfold commandOf at h
  split at h
  all_goals first
    | cases h; refine ⟨BitVec.eq_of_toNat_eq ?_, rfl⟩; assumption
    | cases h

end Sys2Proof
end

