-- ==== Sys2Proof/Laws/PerInstr.lean ====
section
/-!
SUPPORT. Statements made of every command as syntax: the OPCODE map selects each command from its own OPCODE and
ARG (R52), and its word has those fields and RSVD 0 (R51).
-/

namespace Sys2Proof.Laws.OpcodeMap

/-- R51, R52: the fields of the command's word, and what the OPCODE map makes of them. -/
def Statement (i : Instr) : Prop :=
  commandOf i.opcode i.arg = some i ∧ Word.opcode (encode i) = i.opcode ∧ Word.arg (encode i) = i.arg ∧
    Word.rsvd (encode i) = 0#16

/-- The fields hold of every command's word; what is left is the OPCODE map. -/
theorem of_commandOf {i : Instr} (h : commandOf i.opcode i.arg = some i) : Statement i :=
  ⟨h, Word.opcode_wordOf _ _ _, Word.arg_wordOf _ _ _, Word.rsvd_wordOf _ _ _⟩

theorem pack (arg : Byte) : Statement (.pack arg) := of_commandOf rfl
theorem unpack (arg : Byte) : Statement (.unpack arg) := of_commandOf rfl
theorem fieldEnc (arg : Byte) : Statement (.fieldEnc arg) := of_commandOf rfl
theorem fieldDec (arg : Byte) : Statement (.fieldDec arg) := of_commandOf rfl
theorem sectionEnc (arg : Byte) : Statement (.sectionEnc arg) := of_commandOf rfl
theorem sectionDec (arg : Byte) : Statement (.sectionDec arg) := of_commandOf rfl
theorem compress (arg : Byte) : Statement (.compress arg) := of_commandOf rfl
theorem clrEnc (arg : Byte) : Statement (.clrEnc arg) := of_commandOf rfl
theorem reconstruct (arg : Byte) : Statement (.reconstruct arg) := of_commandOf rfl
theorem clrDec (arg : Byte) : Statement (.clrDec arg) := of_commandOf rfl
theorem csrRead (arg : Byte) : Statement (.csrRead arg) := of_commandOf rfl
theorem csrWrite (arg : Byte) : Statement (.csrWrite arg) := of_commandOf rfl
theorem softReset (arg : Byte) : Statement (.softReset arg) := of_commandOf rfl

end Sys2Proof.Laws.OpcodeMap
end

