-- ==== Sys2Proof/Laws/Step.lean ====
section
/-!
SUPPORT. What a command and a step can do, said once: the faults the codec's functions answer with, and the cases
of `exec` and `step`.
-/

namespace Sys2Proof.Machine

/-! ## Which faults the functions answer with -/

theorem refill_error {input : List Byte} {e : FaultCode} : ∀ {n : Nat} {x : Scratch} {pos : Nat},
    Scratch.refill input n x pos = .error e → e = .truncated := by
  intro n
  induction n with
  | zero => intro x pos h; cases h
  | succ n ih =>
    intro x pos h
    simp only [Scratch.refill] at h
    split at h
    · rename_i hm; cases h; exact (memReadByte_eq_error.mp hm).2
    · exact ih h

theorem unpackLoop_error {input : List Byte} {w : Nat} {e : FaultCode} : ∀ {n : Nat} {x : Scratch} {pos : Nat},
    unpackLoop input w n x pos = .error e → e = .truncated := by
  intro n
  induction n with
  | zero => intro x pos h; cases h
  | succ n ih =>
    intro x pos h
    simp only [unpackLoop] at h
    split at h
    · rename_i hm; cases h; exact refill_error hm
    · split at h
      · rename_i hm; cases h; exact ih hm
      · cases h

theorem unpack_error {input : List Byte} {w n : Nat} {e : FaultCode} (h : unpack input w n = .error e) : e = .truncated := by
  unfold unpack at h
  split at h
  · cases h; rfl
  · exact unpackLoop_error h

theorem memRead_error {input : List Byte} {p n : Nat} {e : FaultCode} (h : memRead input p n = .error e) : e = .truncated := by
  unfold memRead at h; split at h <;> cases h; rfl

theorem decodeField_error {ps : Params} {input : List Byte} {p : Nat} {e : FaultCode}
    (h : decodeField ps input p = .error e) : e = .truncated ∨ e = .fieldLength ∨ e = .string := by
  unfold decodeField at h
  cases h1 : memReadByte input p with
  | error x => simp only [h1, bind, Except.bind] at h; cases h; exact .inl (memReadByte_eq_error.mp h1).2
  | ok len =>
    cases h2 : memReadByte input (p+1) with
    | error x => simp only [h1, h2, bind, Except.bind] at h; cases h; exact .inl (memReadByte_eq_error.mp h2).2
    | ok code =>
      simp only [h1, h2, bind, Except.bind] at h
      split at h
      · unfold decodeTimestamp at h
        cases h3 : memRead input (p+2) 8 with
        | error x => simp only [h3, bind, Except.bind] at h; cases h; exact .inl (memRead_error h3)
        | ok vb => simp only [h3, bind, Except.bind] at h; split at h <;> cases h
      · unfold decodePlain at h
        cases h3 : memRead input (p+2) len.toNat with
        | error x => simp only [h3, bind, Except.bind] at h; cases h; exact .inl (memRead_error h3)
        | ok vb =>
          simp only [h3, bind, Except.bind] at h
          cases h4 : checkValue ps (typeOf code) len.toNat vb with
          | none => simp only [h4] at h; cases h
          | some x =>
            simp only [h4] at h
            cases h
            unfold checkValue at h4
            split at h4
            · cases h4; exact .inr (.inl rfl)
            · split at h4 <;> cases h4; exact .inr (.inr rfl)

theorem decodeFields_error {ps : Params} {input : List Byte} {e : FaultCode} : ∀ {n p : Nat},
    decodeFields ps input n p = .error e → e = .truncated ∨ e = .fieldLength ∨ e = .string := by
  intro n
  induction n with
  | zero => intro p h; cases h
  | succ n ih =>
    intro p h
    unfold decodeFields at h
    cases h1 : decodeField ps input p with
    | error x => simp only [h1, bind, Except.bind] at h; cases h; exact decodeField_error h1
    | ok f =>
      cases h2 : decodeFields ps input n f.next with
      | error x => simp only [h1, h2, bind, Except.bind] at h; cases h; exact ih h2
      | ok y => simp only [h1, h2, bind, Except.bind] at h; cases h

theorem encodeFields_error {e : FaultCode} : ∀ {fs : List (Byte × FieldValue)},
    encodeFields fs = .error e → e = .typeMismatch ∨ e = .fieldTooLong := by
  intro fs
  induction fs with
  | nil => intro h; cases h
  | cons f fs ih =>
    intro h
    obtain ⟨c, v⟩ := f
    simp only [encodeFields] at h
    cases h1 : encodeField c v with
    | error x =>
      simp only [h1, bind, Except.bind] at h; cases h
      unfold encodeField at h1
      split at h1
      · cases h1; exact .inl rfl
      · split at h1 <;> cases h1; exact .inr rfl
    | ok y =>
      cases h2 : encodeFields fs with
      | error x => simp only [h1, h2, bind, Except.bind] at h; cases h; exact ih h2
      | ok z => simp only [h1, h2, bind, Except.bind] at h; cases h

theorem encodeSection_error {tag : Byte} {fs : List (Byte × FieldValue)} {e : FaultCode}
    (h : encodeSection tag fs = .error e) : e = .fieldCount ∨ e = .dupField ∨ e = .typeMismatch ∨ e = .fieldTooLong := by
  unfold encodeSection at h
  split at h
  · cases h; exact .inl rfl
  · split at h
    · cases h; exact .inr (.inl rfl)
    · cases h2 : encodeFields fs with
      | error x => simp only [h2, bind, Except.bind] at h; cases h; exact .inr (.inr (encodeFields_error h2))
      | ok z => simp only [h2, bind, Except.bind] at h; cases h

/-! ## Commands and steps -/

/-- Everything a command can do at a state: what state it answers, and when. -/
inductive CommandEffect : Instr → State → State → Prop where
  | rejected {i s} : s.faulted = true → CommandEffect i s s.rejected
  | fault {i s} (e : FaultCode) : s.faulted = false → CommandEffect i s (s.faultEntry e)
  | ended {i s} : s.faulted = false → CommandEffect i s s.endOfStream
  | answered {i s} (o : Outputs) : s.faulted = false → Safety.codecCommand i = true → CommandEffect i s (s.complete o)
  | overflowed {i s} (o : Outputs) : s.faulted = false → Safety.setsTsovf i = true →
      CommandEffect i s ((s.noteOverflow true).complete o)
  | csrRead {s} (n : Byte) (d : Word) : n.toNat ≤ 3 → s.csr? n = some d →
      CommandEffect (.csrRead n) s (s.complete (.data d))
  | compress {s} (a : Byte) (px : List Pixel) (o : Outputs) : s.faulted = false → s.cfgOk = true →
      px.length = s.pixelCount → s.operand = .pixels px →
      CommandEffect (.compress a) s ({ s with encPrev := FrameBuffer.storeFrame s.encPrev px }.complete o)
  | clrEnc {s} (a : Byte) : s.faulted = false → CommandEffect (.clrEnc a) s ({ s with encPrev := [] }.complete .nothing)
  | reconstruct {s} (w : Byte) (px : List Pixel) : s.faulted = false → s.cfgOk = true → px.length = s.pixelCount →
      CommandEffect (.reconstruct w) s
        ({ s with decPrev := FrameBuffer.storeFrame s.decPrev px }.complete (.pixels px))
  | clrDec {s} (a : Byte) : s.faulted = false → CommandEffect (.clrDec a) s ({ s with decPrev := [] }.complete .nothing)
  | writeStatus {s} (d : Word) : s.faulted = false →
      CommandEffect (.csrWrite 0#8) s ((s.writeStatus d).complete .nothing)
  | writeRows {s} (d : Word) : s.faulted = false → CommandEffect (.csrWrite 1#8) s ((s.writeRows d).complete .nothing)
  | writeCols {s} (d : Word) : s.faulted = false → CommandEffect (.csrWrite 2#8) s ((s.writeCols d).complete .nothing)
  | softReset {s} : CommandEffect (.softReset 0#8) s (s.softReset.complete .nothing)

/-- A command that answers has one of the effects above. -/
theorem exec_effect (i : Instr) (s t : State) (h : exec i s = .next t) : CommandEffect i s t := by
  cases i with
  | pack w =>
    rcases command_cases s false s.operand.values? _ with
      ⟨hf, -, h'⟩ | ⟨hf, -, h'⟩ | ⟨a, e, hf, ho, hb, h'⟩ | ⟨a, u, hf, ho, hb, h'⟩ <;>
    cases h.symm.trans h'
    · exact .rejected hf
    · exact .fault _ hf
    · exact .fault _ (by simpa using hf)
    · split at hb
      · cases hb
      · split at hb
        · cases hb
        · cases hb; exact .answered _ (by simpa using hf) rfl
  | unpack w =>
    rcases command_cases s false s.operand.countBytes? _ with
      ⟨hf, -, h'⟩ | ⟨hf, -, h'⟩ | ⟨a, e, hf, ho, hb, h'⟩ | ⟨a, u, hf, ho, hb, h'⟩ <;>
    cases h.symm.trans h'
    · exact .rejected hf
    · exact .fault _ hf
    · exact .fault _ (by simpa using hf)
    · simp only at hb
      split at hb
      · cases hb
      · split at hb
        · cases hb
        · cases hb; exact .answered _ (by simpa using hf) rfl
  | fieldEnc c =>
    rcases command_cases s false s.operand.value? _ with
      ⟨hf, -, h'⟩ | ⟨hf, -, h'⟩ | ⟨a, e, hf, ho, hb, h'⟩ | ⟨a, u, hf, ho, hb, h'⟩ <;>
    cases h.symm.trans h'
    · exact .rejected hf
    · exact .fault _ hf
    · exact .fault _ (by simpa using hf)
    · cases hx : encodeField c a with
      | error x => simp only [hx, bind, Except.bind] at hb; cases hb
      | ok x => simp only [hx, bind, Except.bind] at hb; cases hb; exact .answered _ (by simpa using hf) rfl
  | fieldDec c =>
    rcases command_cases s false s.operand.bytes? _ with
      ⟨hf, -, h'⟩ | ⟨hf, -, h'⟩ | ⟨a, e, hf, ho, hb, h'⟩ | ⟨a, u, hf, ho, hb, h'⟩ <;>
    cases h.symm.trans h'
    · exact .rejected hf
    · exact .fault _ hf
    · exact .fault _ (by simpa using hf)
    · split at hb
      · cases hb
      · cases hx : decodeField s.params a 0 with
        | error x => simp only [hx, bind, Except.bind] at hb; cases hb
        | ok x =>
          simp only [hx, bind, Except.bind] at hb; cases hb
          cases ho : x.overflow with
          | false => exact .answered _ (by simpa using hf) rfl
          | true => exact .overflowed _ (by simpa using hf) rfl
  | sectionEnc c =>
    rcases command_cases s false s.operand.fields? _ with
      ⟨hf, -, h'⟩ | ⟨hf, -, h'⟩ | ⟨a, e, hf, ho, hb, h'⟩ | ⟨a, u, hf, ho, hb, h'⟩ <;>
    cases h.symm.trans h'
    · exact .rejected hf
    · exact .fault _ hf
    · exact .fault _ (by simpa using hf)
    · split at hb
      · cases hb
      · cases hx : encodeSection c a with
        | error x => simp only [hx, bind, Except.bind] at hb; cases hb
        | ok x => simp only [hx, bind, Except.bind] at hb; cases hb; exact .answered _ (by simpa using hf) rfl
  | sectionDec c =>
    rcases command_cases s false s.operand.bytes? _ with
      ⟨hf, -, h'⟩ | ⟨hf, -, h'⟩ | ⟨a, e, hf, ho, hb, h'⟩ | ⟨a, u, hf, ho, hb, h'⟩ <;>
    cases h.symm.trans h'
    · exact .rejected hf
    · exact .fault _ hf
    · exact .fault _ (by simpa using hf)
    · split at hb
      · cases hb
      · cases a with
        | nil => cases hb; exact .ended (by simpa using hf)
        | cons b bs =>
          simp only at hb
          split at hb
          · cases hb
          · cases hx : memReadByte (b :: bs) 1 with
            | error x => simp only [hx, bind, Except.bind] at hb; cases hb
            | ok cnt =>
              cases hy : decodeFields s.params (b :: bs) cnt.toNat 2 with
              | error x => simp only [hx, hy, bind, Except.bind] at hb; cases hb
              | ok x =>
                simp only [hx, hy, bind, Except.bind] at hb; cases hb
                cases ho : x.overflow with
                | false => exact .answered _ (by simpa using hf) rfl
                | true => exact .overflowed _ (by simpa using hf) rfl
  | compress c =>
    rcases command_cases s false s.operand.pixels? _ with
      ⟨hf, -, h'⟩ | ⟨hf, -, h'⟩ | ⟨a, e, hf, ho, hb, h'⟩ | ⟨a, u, hf, ho, hb, h'⟩ <;>
    cases h.symm.trans h'
    · exact .rejected hf
    · exact .fault _ hf
    · exact .fault _ (by simpa using hf)
    · split at hb
      · cases hb
      · split at hb
        · cases hb
        · split at hb
          · cases hb
          · rename_i h1 h2 h3
            cases hb
            refine .compress _ a _ (by simpa using hf) (by simpa using h2) (by simpa using h3) ?_
            cases hop : s.operand <;> rw [hop] at ho <;> cases ho; rfl
  | clrEnc c =>
    rcases command_cases s false s.operand.absent? _ with
      ⟨hf, -, h'⟩ | ⟨hf, -, h'⟩ | ⟨a, e, hf, ho, hb, h'⟩ | ⟨a, u, hf, ho, hb, h'⟩ <;>
    cases h.symm.trans h'
    · exact .rejected hf
    · exact .fault _ hf
    · exact .fault _ (by simpa using hf)
    · split at hb
      · cases hb
      · cases hb
        exact .clrEnc _ (by simpa using hf)
  | clrDec c =>
    rcases command_cases s false s.operand.absent? _ with
      ⟨hf, -, h'⟩ | ⟨hf, -, h'⟩ | ⟨a, e, hf, ho, hb, h'⟩ | ⟨a, u, hf, ho, hb, h'⟩ <;>
    cases h.symm.trans h'
    · exact .rejected hf
    · exact .fault _ hf
    · exact .fault _ (by simpa using hf)
    · split at hb
      · cases hb
      · cases hb
        exact .clrDec _ (by simpa using hf)
  | reconstruct w =>
    rcases command_cases s false s.operand.bytes? _ with
      ⟨hf, -, h'⟩ | ⟨hf, -, h'⟩ | ⟨a, e, hf, ho, hb, h'⟩ | ⟨a, u, hf, ho, hb, h'⟩ <;>
    cases h.symm.trans h'
    · exact .rejected hf
    · exact .fault _ hf
    · exact .fault _ (by simpa using hf)
    · split at hb
      · cases hb
      · split at hb
        · cases hb
        · split at hb
          · cases hb
          · rename_i h1 h2 h3
            cases hx : unpack (a.drop 4) w.toNat (s.pixelCount - 1) with
            | error x => simp only [hx, bind, Except.bind] at hb; cases hb
            | ok x =>
              cases hy : rebuild s.params s.cols.toNat s.pixelCount s.decPrev (initialValue a) x.1 with
              | error y => simp only [hx, hy, bind, Except.bind] at hb; cases hb
              | ok y =>
                simp only [hx, hy, bind, Except.bind] at hb; cases hb
                refine .reconstruct _ _ (by simpa using hf) (by simpa using h2) ?_
                unfold rebuild at hy
                simp only at hy
                split at hy <;> cases hy
                simp
  | csrRead n =>
    rcases command_cases s (readableCsr n) s.operand.absent? _ with
      ⟨hf, -, h'⟩ | ⟨hf, -, h'⟩ | ⟨a, e, hf, ho, hb, h'⟩ | ⟨a, u, hf, ho, hb, h'⟩ <;>
    cases h.symm.trans h'
    · exact .rejected hf
    · exact .fault _ hf
    · simp only [State.csr?] at hb
      split at hb
      · rename_i hn
        cases hb
        refine .fault _ ?_
        rcases hf with hf | hf
        · exact hf
        · exfalso
          simp [readableCsr] at hf
          interval_cases n.toNat <;> simp at hn
      · cases hb
    · split at hb
      · cases hb
      · rename_i hd
        cases hb
        refine .csrRead _ _ ?_ hd
        by_contra hn
        have : s.csr? n = none := by
          unfold State.csr?
          split <;> first | omega | rfl
        rw [this] at hd; cases hd
  | csrWrite n =>
    rcases command_cases s false s.operand.data? _ with
      ⟨hf, -, h'⟩ | ⟨hf, -, h'⟩ | ⟨a, e, hf, ho, hb, h'⟩ | ⟨a, u, hf, ho, hb, h'⟩ <;>
    cases h.symm.trans h'
    · exact .rejected hf
    · exact .fault _ hf
    · exact .fault _ (by simpa using hf)
    · simp only [State.writeCsr?] at hb
      split at hb
      · cases hb
      · rename_i u hu
        cases hb
        split at hu <;> cases hu <;> rename_i hn
        · rw [show n = 0#8 from BitVec.eq_of_toNat_eq hn]
          exact .writeStatus _ (by simpa using hf)
        · rw [show n = 1#8 from BitVec.eq_of_toNat_eq hn]
          exact .writeRows _ (by simpa using hf)
        · rw [show n = 2#8 from BitVec.eq_of_toNat_eq hn]
          exact .writeCols _ (by simpa using hf)
  | softReset n =>
    rcases command_cases s (zeroArg n) s.operand.absent? _ with
      ⟨hf, -, h'⟩ | ⟨hf, -, h'⟩ | ⟨a, e, hf, ho, hb, h'⟩ | ⟨a, u, hf, ho, hb, h'⟩ <;>
    cases h.symm.trans h'
    · exact .rejected hf
    · exact .fault _ hf
    · split at hb
      · rename_i hz
        cases hb
        refine .fault _ ?_
        rcases hf with hf | hf
        · exact hf
        · simp [hf] at hz
      · cases hb
    · split at hb
      · cases hb
      · rename_i hz
        cases hb
        simp [zeroArg] at hz
        subst hz
        exact .softReset

/-- Everything a step can do. -/
theorem step_cases (s t : State) (h : step s = .next t) :
    (s.inputs = [] ∧ t = s) ∨ (∃ c rest, s.inputs = .reset c :: rest ∧ t = { s with inputs := rest }.hardReset) ∨
    (∃ c rest i, s.inputs = .command c :: rest ∧ decode c.word = .ok i ∧ exec i (s.take c rest) = .next t) ∨
    (∃ c rest e, s.inputs = .command c :: rest ∧ decode c.word = .error e ∧ t = (s.take c rest).badWord e) := by
  unfold step at h
  split at h
  · injection h with h; exact .inl ⟨by assumption, h.symm⟩
  · injection h with h; exact .inr (.inl ⟨_, _, by assumption, h.symm⟩)
  · split at h
    · exact .inr (.inr (.inl ⟨_, _, _, by assumption, by assumption, h⟩))
    · injection h with h; exact .inr (.inr (.inr ⟨_, _, _, by assumption, by assumption, h.symm⟩))

end Sys2Proof.Machine
end

