-- ==== Sys2Proof/Tests/Slice0.lean ====
section
/-!
SUPPORT. The model's own tests: words written out from the spec's encodings, ill-formed terms the check refuses,
one or two small steps of each command against the spec's own vectors (spec/95_test_vectors.md), and for each
statement with hypotheses a concrete state and operands that meet them together.
-/

namespace Sys2Proof.Tests

open Sys2Proof.Machine

/-! ## Small states -/

/-- The parameters the vectors of spec/95_test_vectors.md assume. -/
def params : Params := ⟨.fault, 253402300799999999, .unchecked⟩

/-- A block of 19200 pixels right after reset, with ROWS and COLS written. -/
def sized (rows cols : Word) : State := { State.resetOf 19200#32 params with rows := rows, cols := cols }

/-- The same with an operand taken. -/
def given (rows cols : Word) (o : Operand) : State := { sized rows cols with operand := o }

/-- A faulted block: STATUS 0x00000701, E_TRUNCATED. -/
def broken (o : Operand) : State := { given 2#32 2#32 o with status := 0x00000701#32 }

/-- A block whose parameters are `RECON_OVERFLOW = WRAP` and `STRING_CHECK = UTF8`. -/
def strict (rows cols : Word) (o : Operand) : State :=
  { given rows cols o with params := ⟨.wrap, 253402300799999999, .utf8⟩ }

/-- The result record of a step or command. -/
def resultOf (o : Host.Outcome State Fault Refusal) : Option Result :=
  match o with
  | .next t => t.result
  | .fault _ => none
  | .refused _ => none

/-- The state a step or command answers. -/
def stateOf (o : Host.Outcome State Fault Refusal) : State :=
  match o with
  | .next t => t
  | .fault _ => State.resetOf 0#32 params
  | .refused _ => State.resetOf 0#32 params

/-- Result and STATUS of one step on a presented word and operand. -/
def run (s : State) (w : Word) (o : Operand) : Option Result × Word :=
  (resultOf (step (s.present ⟨w, o⟩)), (stateOf (step (s.present ⟨w, o⟩))).status)

/-! ## Ill-formed commands (R53) -/

theorem test_wf_refuses_width_0 : (Instr.pack 0#8).wellFormed = false := by decide
theorem test_wf_refuses_width_33 : (Instr.unpack 33#8).wellFormed = false := by decide
theorem test_wf_refuses_reconstruct_width_255 : (Instr.reconstruct 255#8).wellFormed = false := by decide
theorem test_wf_refuses_field_dec_arg : (Instr.fieldDec 1#8).wellFormed = false := by decide
theorem test_wf_refuses_section_enc_tag_X : (Instr.sectionEnc 0x58#8).wellFormed = false := by decide
theorem test_wf_refuses_section_dec_tag_Q : (Instr.sectionDec 0x51#8).wellFormed = false := by decide
theorem test_wf_refuses_compress_arg : (Instr.compress 1#8).wellFormed = false := by decide
theorem test_wf_refuses_clr_enc_arg : (Instr.clrEnc 1#8).wellFormed = false := by decide
theorem test_wf_refuses_clr_dec_arg : (Instr.clrDec 0x80#8).wellFormed = false := by decide
theorem test_wf_refuses_csr_read_4 : (Instr.csrRead 4#8).wellFormed = false := by decide
theorem test_wf_refuses_csr_write_cap : (Instr.csrWrite 3#8).wellFormed = false := by decide
theorem test_wf_refuses_soft_reset_arg : (Instr.softReset 1#8).wellFormed = false := by decide
theorem test_wf_accepts_bounds :
    ((Instr.pack 1#8).wellFormed && (Instr.pack 32#8).wellFormed && (Instr.fieldEnc 255#8).wellFormed
      && (Instr.sectionEnc 0x48#8).wellFormed && (Instr.sectionDec 0x46#8).wellFormed
      && (Instr.csrRead 3#8).wellFormed && (Instr.csrWrite 2#8).wellFormed) = true := by decide

/-! ## Words written out bit by bit: RSVD, ARG, OPCODE (R51, R52) -/

theorem test_decode_pack : decode 0b0000000000000000_00000011_00000001#32 = .ok (.pack 3#8) := by decide
theorem test_decode_unpack : decode 0b0000000000000000_00100000_00000010#32 = .ok (.unpack 32#8) := by decide
theorem test_decode_field_enc : decode 0b0000000000000000_01011000_00000011#32 = .ok (.fieldEnc 0x58#8) := by decide
theorem test_decode_field_dec : decode 0b0000000000000000_00000000_00000100#32 = .ok (.fieldDec 0#8) := by decide
theorem test_decode_section_enc : decode 0b0000000000000000_01000110_00000101#32 = .ok (.sectionEnc 0x46#8) := by decide
theorem test_decode_section_dec : decode 0b0000000000000000_01001000_00000110#32 = .ok (.sectionDec 0x48#8) := by decide
theorem test_decode_compress : decode 0b0000000000000000_00000000_00000111#32 = .ok (.compress 0#8) := by decide
theorem test_decode_clr_enc : decode 0b0000000000000000_00000000_00001000#32 = .ok (.clrEnc 0#8) := by decide
theorem test_decode_reconstruct : decode 0b0000000000000000_00000100_00001001#32 = .ok (.reconstruct 4#8) := by decide
theorem test_decode_clr_dec : decode 0b0000000000000000_00000000_00001010#32 = .ok (.clrDec 0#8) := by decide
theorem test_decode_csr_read : decode 0b0000000000000000_00000011_00001011#32 = .ok (.csrRead 3#8) := by decide
theorem test_decode_csr_write : decode 0b0000000000000000_00000001_00001100#32 = .ok (.csrWrite 1#8) := by decide
theorem test_decode_soft_reset : decode 0b0000000000000000_00000000_00001101#32 = .ok (.softReset 0#8) := by decide
theorem test_decode_refuses_opcode_0 : decode 0x00000000#32 = .error .illegalOpcode := by decide
theorem test_decode_refuses_opcode_0E : decode 0x0000000E#32 = .error .illegalOpcode := by decide
theorem test_decode_refuses_opcode_FF_first : decode 0x000100FF#32 = .error .illegalOpcode := by decide
theorem test_decode_refuses_rsvd_bit_16 : decode 0x00010401#32 = .error .reservedBits := by decide
theorem test_decode_refuses_rsvd_bit_31 : decode 0x8000000D#32 = .error .reservedBits := by decide
theorem test_decode_table_word : decodeTableWord 32 0x00004805 = some (.sectionEnc 0x48#8) := by decide

/-! ## One step each, against the spec's vectors -/

-- V-P11: the extremes at width 32
theorem test_pack_width_32 : (run (sized 0#32 0#32) 0x00002001#32 (.values [-4294967296#64, 4294967295#64])).1 =
    some (.ok (.out [0#8, 0#8, 0#8, 0#8, 0xFF#8, 0xFF#8, 0xFF#8, 0xFF#8])) := by decide
-- V-P14: a fault after good values gives no output
theorem test_pack_range : run (sized 0#32 0#32) 0x00000401#32 (.values [1#64, 2#64, 99#64, -99#64]) =
    (some (.fault .packRange), 0x00000601#32) := by decide
-- V-U3: padding bits are ignored
theorem test_unpack_padding : (run (sized 0#32 0#32) 0x00000302#32 (.countBytes 3#32 [0x3D#8, 0x9F#8])).1 =
    some (.ok (.values [1, -1, 3] 2)) := by decide
-- V-U9
theorem test_unpack_truncated : run (sized 0#32 0#32) 0x00000302#32 (.countBytes 3#32 [0x3D#8]) =
    (some (.fault .truncated), 0x00000701#32) := by decide
-- V-FE3
theorem test_field_enc_timestamp :
    (run (sized 0#32 0#32) 0x00005403#32 (.value (.ts 1600000000000000#64))).1 =
    some (.ok (.out [0x08#8, 0x54#8, 0#8, 0#8, 0xA4#8, 0x07#8, 0x31#8, 0xAF#8, 0x05#8, 0#8])) := by decide
-- V-FE12
theorem test_field_enc_u64_matches_no_code : run (sized 0#32 0#32) 0x00004903#32 (.value (.u64 1#64)) =
    (some (.fault .typeMismatch), 0x00000E01#32) := by decide
-- V-FD10: one above TS_MAX_US
theorem test_field_dec_epoch : run (sized 0#32 0#32) 0x00000004#32
    (.bytes [0x08#8, 0x54#8, 0x00#8, 0x60#8, 0x73#8, 0xCC#8, 0x0C#8, 0x44#8, 0x84#8, 0x03#8]) =
    (some (.ok (.field ⟨0x54#8, .ts, .ts 0#64⟩ 10)), 0x00000002#32) := by decide
-- V-FD14: truncation is found before the wrong length
theorem test_field_dec_truncated_first : run (sized 0#32 0#32) 0x00000004#32 (.bytes [3#8, 0x58#8, 0xA0#8, 0#8]) =
    (some (.fault .truncated), 0x00000701#32) := by decide
-- E17
theorem test_section_enc_frame :
    (run (sized 0#32 0#32) 0x00004605#32 (.fields [(0x77#8, .u8 1#8), (0x66#8, .u32 5#32)])).1 =
    some (.ok (.out [0x46#8, 2#8, 1#8, 0x77#8, 1#8, 4#8, 0x66#8, 5#8, 0#8, 0#8, 0#8])) := by decide
-- V-SE5
theorem test_section_enc_duplicate :
    run (sized 0#32 0#32) 0x00004605#32 (.fields [(0x77#8, .u8 1#8), (0x77#8, .u8 2#8)]) =
    (some (.fault .dupField), 0x00001001#32) := by decide
-- E18: bytes after the section are not read
theorem test_section_dec_frame : (run (sized 0#32 0#32) 0x00004606#32
    (.bytes [0x46#8, 2#8, 1#8, 0x77#8, 1#8, 4#8, 0x66#8, 5#8, 0#8, 0#8, 0#8, 0x64#8])).1 =
    some (.ok (.fields 0x46#8 [⟨0x77#8, .u8, .u8 1#8⟩, ⟨0x66#8, .u32, .u32 5#32⟩] 11)) := by decide
-- V-SD3
theorem test_section_dec_end : run (sized 0#32 0#32) 0x00004606#32 (.bytes []) = (some .endOfStream, 0#32) := by
  decide
-- V-C8
theorem test_compress_snake :
    (run (sized 3#32 3#32) 0x00000007#32 (.pixels [1#16, 2#16, 3#16, 4#16, 5#16, 6#16, 7#16, 8#16, 9#16])).1 =
    some (.ok (.compressed 3 [1#8, 0#8, 0#8, 0#8, 0x25#8, 0xFE#8, 0xC9#8] 7)) := by decide
-- V-C5: previous frame [0, 1], the widest delta and a negative last one
theorem test_compress_width_18 :
    (run { sized 1#32 2#32 with encPrev := [(1, 1#16)] } 0x00000007#32 (.pixels [65535#16, 0#16])).1 =
    some (.ok (.compressed 18 [0xFF#8, 0xFF#8, 0#8, 0#8, 0xC0#8, 0#8, 0#8] 7)) := by decide
theorem test_clr_enc_leaves_decoder :
    let t := stateOf (exec (.clrEnc 0#8) { sized 1#32 2#32 with encPrev := [(1, 1#16)], decPrev := [(0, 7#16)] })
    t.encPrev = [] ∧ t.decPrev = [(0, 7#16)] := by decide
-- V-R8: previous frame [0, 1]
theorem test_reconstruct_width_18 : (run { sized 1#32 2#32 with decPrev := [(1, 1#16)] } 0x00001209#32
    (.bytes [0xFF#8, 0xFF#8, 0#8, 0#8, 0xC0#8, 0#8, 0#8])).1 = some (.ok (.pixels [65535#16, 0#16])) := by decide
-- V-R12: pixel 1 would be 65536
theorem test_reconstruct_range : run (sized 1#32 2#32) 0x00000209#32
    (.bytes [0xFF#8, 0xFF#8, 0#8, 0#8, 0x40#8]) = (some (.fault .pixelRange), 0x00000B01#32) := by decide
theorem test_clr_dec_leaves_encoder :
    let t := stateOf (exec (.clrDec 0#8) { sized 1#32 2#32 with encPrev := [(1, 1#16)], decPrev := [(0, 7#16)] })
    t.encPrev = [(1, 1#16)] ∧ t.decPrev = [] := by decide
-- control sequence, step 5
theorem test_csr_read_while_faulted : run (broken .noOperand) 0x0000000B#32 .noOperand =
    (some (.ok (.data 0x00000701#32)), 0x00000701#32) := by decide
-- control sequence, step 7
theorem test_csr_read_reserved_while_faulted : run (broken .noOperand) 0x0000040B#32 .noOperand =
    (some .rejected, 0x00000701#32) := by decide
-- V-K3: a write of the same value clears both buffers
theorem test_csr_write_rows_clears :
    let t := stateOf (exec (.csrWrite 1#8) { given 3#32 4#32 (.data 3#32) with encPrev := [(0, 9#16)] })
    t.rows = 3#32 ∧ t.cols = 4#32 ∧ t.encPrev = [] := by decide
-- V-K1: FAULTED is not writable and a write of 1 leaves TSOVF
theorem test_csr_write_status_bit_0 : run { sized 0#32 0#32 with status := 0x00000002#32 } 0x0000000C#32
    (.data 0x00000001#32) = (some (.ok .nothing), 0x00000002#32) := by decide
-- P3, step 8
theorem test_soft_reset_keeps_resolution :
    let t := stateOf (exec (.softReset 0#8) { broken .noOperand with encPrev := [(0, 5#16)] })
    t.status = 0#32 ∧ t.rows = 2#32 ∧ t.encPrev = [] := by decide
-- control sequence, step 8
theorem test_soft_reset_arg_while_faulted : run (broken .noOperand) 0x0000010D#32 .noOperand =
    (some .rejected, 0x00000701#32) := by decide
-- V-FD6 and the Unicode definition: an unpaired surrogate
theorem test_utf8 : wellFormedUtf8 [0xFF#8, 0xFE#8, 0x41#8] = false ∧ wellFormedUtf8 [0xED#8, 0xA0#8, 0x80#8] = false ∧
    wellFormedUtf8 [0x41#8, 0xE2#8, 0x82#8, 0xAC#8] = true := by decide
-- E7
theorem test_snake_order_3_by_2 : snakeOrder 2 6 = [0, 1, 3, 2, 4, 5] := by decide
-- R65: the text of a line
theorem test_assemble_pack : assembleLine "pack 3, [1, -1, 3] ; fields".toList =
    some [⟨0x00000301#32, .values [1#64, -1#64, 3#64]⟩] := by decide
theorem test_assemble_unpack : assembleLine "unpack 3, 3, hex\"3D 80\"".toList =
    some [⟨0x00000302#32, .countBytes 3#32 [0x3D#8, 0x80#8]⟩] := by decide

/-! ## Witnesses: states and operands that meet a statement's hypotheses -/

/-- A state that takes the given word and operand next. -/
def asked (s : State) (w : Word) (o : Operand) : State := s.present ⟨w, o⟩

theorem witness_IllegalOpcodesFault :
    (sized 2#32 2#32).faulted = false ∧ (asked (sized 2#32 2#32) 0#32 .noOperand).inputs = [.command ⟨0#32, .noOperand⟩] ∧
    ((0x00000000#32 : Word).toNat % 256 = 0 ∧ 0x0E ≤ (0x0001000E#32 : Word).toNat % 256 ∧
      0x0E ≤ (0x000000FF#32 : Word).toNat % 256) := by decide

theorem witness_ReservedBitsFault :
    (sized 2#32 2#32).faulted = false ∧
    (asked (sized 2#32 2#32) 0x00010001#32 .noOperand).inputs = [.command ⟨0x00010001#32, .noOperand⟩] ∧
    1 ≤ (0x00010001#32 : Word).toNat % 256 ∧ (0x8000000D#32 : Word).toNat % 256 ≤ 0x0D ∧
    (0x00010001#32 : Word).toNat / 65536 ≠ 0 ∧ (0x8000000D#32 : Word).toNat / 65536 ≠ 0 := by decide

theorem witness_StepRunsDecodedCommand :
    (asked (sized 2#32 2#32) 0x00000301#32 (.values [])).inputs = [.command ⟨0x00000301#32, .values []⟩] ∧
    decode 0x00000301#32 = .ok (.pack 3#8) := by decide

theorem witness_ResetValues : 1 ≤ (1#8 : Byte).toNat ∧ (32#8 : Byte).toNat ≤ 32 := by decide

theorem witness_ResetInputRestoresResetState :
    ({ broken .noOperand with inputs := [.reset (some ⟨0x00000007#32, .pixels []⟩)] } : State).inputs =
      [.reset (some ⟨0x00000007#32, .pixels []⟩)] := by decide

theorem witness_ResetMeetsInvariant : 19200 ≤ (19200#32 : Word).toNat ∧ 19200 ≤ (0xFFFFFFFF#32 : Word).toNat := by
  decide

theorem witness_StepKeepsInvariant :
    Safety.inv (asked { sized 2#32 2#32 with encPrev := [(3, 7#16)] } 0x00000007#32
      (.pixels [0#16, 1#16, 2#16, 0#16])) = true ∧
    ∃ t, step (asked { sized 2#32 2#32 with encPrev := [(3, 7#16)] } 0x00000007#32
      (.pixels [0#16, 1#16, 2#16, 0#16])) = .next t ∧ t.encPrev = [(1, 1#16), (2, 2#16)] :=
  ⟨by decide, _, rfl, by decide⟩

theorem witness_StepKeepsInvariant_fault :
    Safety.inv (asked (sized 2#32 2#32) 0x00000000#32 .noOperand) = true ∧
    ∃ t, step (asked (sized 2#32 2#32) 0x00000000#32 .noOperand) = .next t ∧ t.status = 0x00000101#32 :=
  ⟨by decide, _, rfl, by decide⟩

theorem witness_CapAndParametersAreFixed :
    (∃ t, step (asked (sized 2#32 2#32) 0x0000030B#32 .noOperand) = .next t) ∧
    (given 2#32 2#32 .noOperand).operand = .noOperand ∧
    (given 2#32 2#32 (.data 7#32)).faulted = false ∧ (given 2#32 2#32 (.data 7#32)).operand = .data 7#32 :=
  ⟨⟨_, rfl⟩, by decide⟩

theorem witness_FaultEntryIsPrecise :
    (asked (sized 2#32 2#32) 0x00000302#32 (.countBytes 3#32 [])).inputs =
      [.command ⟨0x00000302#32, .countBytes 3#32 []⟩] ∧
    ∃ t, step (asked (sized 2#32 2#32) 0x00000302#32 (.countBytes 3#32 [])) = .next t ∧
      t.result = some (.fault .truncated) := ⟨by decide, _, rfl, by decide⟩

theorem witness_FaultedBlockRejects :
    (broken .noOperand).faulted = true ∧ (0x03#8 : Byte).toNat ≤ 3 ∧
    (⟨0x0000030B#32, .noOperand⟩ : Command) = ⟨encode (.csrRead 0x03#8), .noOperand⟩ ∧
    (⟨0x0000000D#32, .noOperand⟩ : Command) = ⟨encode (.softReset 0#8), .noOperand⟩ ∧
    (∀ n : Byte, n.toNat ≤ 3 → (⟨0x00000301#32, .values []⟩ : Command) ≠ ⟨encode (.csrRead n), .noOperand⟩) ∧
    (⟨0x00000301#32, .values []⟩ : Command) ≠ ⟨encode (.softReset 0#8), .noOperand⟩ :=
  ⟨by decide, by decide, by decide, by decide, fun n _ h => (by injection h with _ k; cases k),
    fun h => (by injection h with _ k; cases k)⟩

theorem witness_OnlySoftResetOrResetLeavesFaulted :
    (asked (broken .noOperand) 0x0000000D#32 .noOperand).faulted = true ∧
    ∃ t, step (asked (broken .noOperand) 0x0000000D#32 .noOperand) = .next t ∧ t.faulted = false :=
  ⟨by decide, _, rfl, by decide⟩

theorem witness_OnlySoftResetOrResetLeavesFaulted_reset :
    (broken .noOperand).faulted = true ∧
    ({ broken .noOperand with inputs := [.reset none] } : State).inputs = [.reset none] ∧
    ∃ t, step (asked (broken .noOperand) 0x00000301#32 .noOperand) = .next t ∧ t.result = some .rejected :=
  ⟨by decide, rfl, _, rfl, by decide⟩

theorem witness_WrongOperandKindFaults :
    (given 2#32 2#32 (.values [])).faulted = false ∧
    Safety.kindOk (.clrEnc 0#8) (given 2#32 2#32 (.values [])).operand = false ∧
    Safety.kindOk (.pack 1#8) (given 2#32 2#32 (.values [])).operand = true ∧
    ∃ t, exec (.pack 1#8) (given 2#32 2#32 (.values [])) = .next t := ⟨by decide, by decide, by decide, _, rfl⟩

theorem witness_IllegalArgumentsFault :
    (given 2#32 2#32 (.values [])).faulted = false ∧
    Safety.kindOk (.pack 0#8) (given 2#32 2#32 (.values [])).operand = true ∧ (Instr.pack 0#8).wellFormed = false ∧
    (Instr.pack 33#8).wellFormed = false ∧ (Instr.pack 32#8).wellFormed = true ∧
    Safety.kindOk (.csrWrite 3#8) (given 2#32 2#32 (.data 0#32)).operand = true ∧
    (Instr.csrWrite 3#8).wellFormed = false ∧
    ∃ t, exec (.pack 32#8) (given 2#32 2#32 (.values [])) = .next t :=
  ⟨by decide, by decide, by decide, by decide, by decide, by decide, by decide, _, rfl⟩

theorem witness_FaultsRaisedOnlyByTheirCommands :
    ∃ t, exec (.reconstruct 1#8) (given 2#32 2#32 (.bytes [])) = .next t ∧ t.result = some (.fault .payloadLength) :=
  ⟨_, rfl, by decide⟩

theorem witness_FaultCodeNumbers : FaultCode.string.number = 0x12#8 := by decide

theorem witness_StatusFieldsWrittenOnlyByTheirCommands :
    (∃ t, exec (.clrEnc 1#8) (given 2#32 2#32 .noOperand) = .next t ∧
      t.faulted ≠ (given 2#32 2#32 .noOperand).faulted) ∧
    (given 2#32 2#32 (.bytes [8#8, 0x54#8, 255#8, 255#8, 255#8, 255#8, 255#8, 255#8, 255#8, 255#8])).tsovf = false ∧
    (∃ t, exec (.fieldDec 0#8)
      (given 2#32 2#32 (.bytes [8#8, 0x54#8, 255#8, 255#8, 255#8, 255#8, 255#8, 255#8, 255#8, 255#8])) = .next t ∧
      t.tsovf = true) ∧
    ∃ t, exec (.csrWrite 0#8) { given 2#32 2#32 (.data 2#32) with status := 2#32 } = .next t ∧ t.tsovf = false :=
  ⟨⟨_, rfl, by decide⟩, by decide, ⟨_, rfl, by decide⟩, _, rfl, by decide⟩

theorem witness_CodecCommandsFrame : Safety.codecCommand (.unpack 3#8) = true ∧
    ∃ t, exec (.unpack 3#8) (given 2#32 2#32 (.countBytes 0#32 [])) = .next t := ⟨by decide, _, rfl⟩

theorem witness_FrameCommandsFrame :
    (∃ t, exec (.compress 0#8) (given 1#32 2#32 (.pixels [1#16, 2#16])) = .next t ∧
      (given 1#32 2#32 (.pixels [1#16, 2#16])).pixelCount ≤ 2) ∧
    (∃ t, exec (.compress 0#8) (given 1#32 2#32 (.pixels [1#16])) = .next t ∧ ∀ o, t.result ≠ some (.ok o)) ∧
    ∃ t, exec (.clrDec 0#8) (given 1#32 2#32 .noOperand) = .next t :=
  ⟨⟨_, rfl, by decide⟩, ⟨_, rfl, fun o h => (by cases h)⟩, _, rfl⟩

theorem witness_ControlCommandsFrame :
    (∃ t, exec (.csrWrite 0#8) (given 1#32 2#32 (.data 2#32)) = .next t) ∧ (0x00#8 : Byte) ≠ 0x01#8 ∧
    (0x00#8 : Byte) ≠ 0x02#8 ∧ (∃ t, exec (.softReset 1#8) (given 1#32 2#32 .noOperand) = .next t) ∧
    (1#8 : Byte) ≠ 0#8 := ⟨⟨_, rfl⟩, by decide, by decide, ⟨_, rfl⟩, by decide⟩

theorem witness_FrameBuffersAreSeparate :
    (∀ w, Instr.compress 0#8 ≠ .reconstruct w) ∧ (∀ a, Instr.reconstruct 1#8 ≠ .compress a) ∧
    (∃ t, exec (.compress 0#8) (given 1#32 2#32 (.pixels [1#16, 2#16])) = .next t) ∧
    ∃ t, exec (.reconstruct 1#8) (given 1#32 2#32 (.bytes [0#8, 0#8, 0#8, 0#8, 0#8])) = .next t :=
  ⟨fun w h => (by cases h), fun a h => (by cases h), ⟨_, rfl⟩, _, rfl⟩

theorem witness_PackCompletes :
    (given 0#32 0#32 (.values [-2#64, 1#64])).faulted = false ∧ ¬ (1 ≤ (0#8 : Byte).toNat ∧ (0#8 : Byte).toNat ≤ 32) ∧
    ¬ (1 ≤ (33#8 : Byte).toNat ∧ (33#8 : Byte).toNat ≤ 32) ∧ 1 ≤ (1#8 : Byte).toNat ∧ (1#8 : Byte).toNat ≤ 32 ∧
    (∃ v ∈ [2#64, -3#64], v.toInt < -(2 : Int) ^ (1#8 : Byte).toNat ∨ (2 : Int) ^ (1#8 : Byte).toNat - 1 < v.toInt) ∧
    (∀ v ∈ [-2#64, 1#64], -(2 : Int) ^ (1#8 : Byte).toNat ≤ v.toInt ∧ v.toInt ≤ (2 : Int) ^ (1#8 : Byte).toNat - 1) :=
  ⟨by decide, by decide, by decide, by decide, by decide, ⟨2#64, by decide, Or.inr (by decide)⟩, fun v hv => by
    simp only [List.mem_cons, List.not_mem_nil, or_false] at hv
    rcases hv with rfl | rfl <;> exact ⟨by decide, by decide⟩⟩

theorem witness_UnpackCompletes :
    (given 0#32 0#32 (.countBytes 3#32 [0x3D#8, 0x80#8])).faulted = false ∧
    1 ≤ (3#8 : Byte).toNat ∧ (32#8 : Byte).toNat ≤ 32 ∧
    [0x3D#8].length < ceilDiv ((3#32 : Word).toNat * (3#8 : Byte).toNat) 8 ∧
    ceilDiv ((3#32 : Word).toNat * (3#8 : Byte).toNat) 8 ≤ [0x3D#8, 0x80#8].length ∧
    ¬ (1 ≤ (0#8 : Byte).toNat ∧ (0#8 : Byte).toNat ≤ 32) := by decide

theorem witness_PackMatchesPackedStream : pack 5 [-16, 15] = packedStream 5 ([-16, 15].map (encBits 5)) := by decide

theorem witness_PackUnpackRoundTrip :
    (∀ v ∈ [-(4 : Int), 3], -(2 : Int) ^ (3 - 1) ≤ v ∧ v ≤ (2 : Int) ^ (3 - 1) - 1) ∧
    (sized 0#32 0#32).faulted = false ∧ (2#32 : Word).toNat = [-4#64, 3#64].length ∧
    (∀ v ∈ [-4#64, 3#64], -(2 : Int) ^ ((3#8 : Byte).toNat - 1) ≤ v.toInt ∧
      v.toInt ≤ (2 : Int) ^ ((3#8 : Byte).toNat - 1) - 1) ∧
    ∃ t, exec (.pack 3#8) { sized 0#32 0#32 with operand := .values [-4#64, 3#64] } = .next t ∧
      t.result = some (.ok (.out [0x8C#8])) := by
  refine ⟨by decide, by decide, by decide, fun v hv => ?_, _, rfl, by decide⟩
  simp only [List.mem_cons, List.not_mem_nil, or_false] at hv
  rcases hv with rfl | rfl <;> exact ⟨by decide, by decide⟩

theorem witness_PaddingBitsIgnored :
    [0x3D#8, 0x80#8].length = [0x3D#8, 0xFF#8].length ∧
    ∀ j, j < 3 * 3 → inputBit [0x3D#8, 0x80#8] j = inputBit [0x3D#8, 0xFF#8] j := by decide

theorem witness_UnrepresentableValuesWrap :
    ∀ v ∈ [-(16 : Int), -9, -8, 7, 8, 15], -(2 : Int) ^ 4 ≤ v ∧ v ≤ (2 : Int) ^ 4 - 1 := by decide

theorem witness_FieldEncCompletes :
    (given 0#32 0#32 (.value (.u8 1#8))).faulted = false ∧ (FieldValue.u8 1#8).rawType ≠ typeOf 0x58#8 ∧
    (FieldValue.u8 1#8).rawType = typeOf 0x77#8 ∧ (FieldValue.u8 1#8).bytes.length ≤ 255 ∧
    (FieldValue.str (List.replicate 256 0x61#8)).rawType = typeOf 0x44#8 ∧
    255 < (FieldValue.str (List.replicate 256 0x61#8)).bytes.length ∧
    (FieldValue.str (List.replicate 255 0x61#8)).bytes.length ≤ 255 :=
  ⟨by decide, by decide, by decide, by decide, rfl, by rw [FieldValue.bytes, List.length_replicate]; decide,
    by rw [FieldValue.bytes, List.length_replicate]⟩

theorem witness_FieldDecCompletes :
    (given 0#32 0#32 (.bytes [1#8])).faulted = false ∧ [1#8].length < 2 ∧ typeOf 0x54#8 = .ts ∧
    fromLe (([0xFF#8, 0x5F#8, 0x73#8, 0xCC#8, 0x0C#8, 0x44#8, 0x84#8, 0x03#8] : List Byte).take 8) ≤ params.tsMaxUs ∧
    params.tsMaxUs < fromLe (([0x00#8, 0x60#8, 0x73#8, 0xCC#8, 0x0C#8, 0x44#8, 0x84#8, 0x03#8] : List Byte).take 8) ∧
    typeOf 0x58#8 ≠ .ts ∧ (typeOf 0x58#8).size? = some 4 ∧ (4 : Nat) ≠ (2#8 : Byte).toNat ∧
    [0xA0#8].length < (2#8 : Byte).toNat ∧ (2#8 : Byte).toNat ≤ [0xA0#8, 0#8].length ∧
    typeOf 0x44#8 = .str ∧ (strict 0#32 0#32 (.bytes [])).params.stringCheck = .utf8 ∧
    wellFormedUtf8 (([0xFF#8, 0xFE#8] : List Byte).take (2#8 : Byte).toNat) = false ∧
    (∀ n, (typeOf 0x44#8).size? = some n → n = (2#8 : Byte).toNat) ∧
    wellFormedUtf8 (([0xC2#8, 0x80#8] : List Byte).take (2#8 : Byte).toNat) = true :=
  ⟨by decide, by decide, by decide, by decide, by decide, by decide, by decide, by decide, by decide, by decide,
    by decide, by decide, by decide, fun n h => (by cases h), by decide⟩

theorem witness_SectionEncCompletes :
    (given 0#32 0#32 (.fields [(0x77#8, .u8 1#8), (0x66#8, .u8 5#8)])).faulted = false ∧
    (0x58#8 : Byte) ≠ 0x48#8 ∧ (0x58#8 : Byte) ≠ 0x46#8 ∧ 255 < (List.replicate 256 (0x5A#8, FieldValue.blob [])).length ∧
    ¬ (([(0x77#8, .u8 1#8), (0x77#8, .u8 2#8)] : List (Byte × FieldValue)).map Prod.fst).Nodup ∧
    (([(0x77#8, .u8 1#8), (0x66#8, .u8 5#8)] : List (Byte × FieldValue)).map Prod.fst).Nodup ∧
    Safety.encodable (0x77#8, .u8 1#8) ∧ (FieldValue.u8 5#8).rawType ≠ typeOf 0x66#8 ∧
    (FieldValue.blob (List.replicate 256 0#8)).rawType = typeOf 0x5A#8 ∧
    255 < (FieldValue.blob (List.replicate 256 0#8)).bytes.length :=
  ⟨by decide, by decide, by decide, by rw [List.length_replicate]; decide, by decide, by decide,
    ⟨by decide, by decide⟩, by decide, by decide, by rw [FieldValue.bytes, List.length_replicate]; decide⟩

/-- The pieces of a frame section of width 1 and size 5. -/
def pieces : List (List Byte × FieldRead) :=
  [ ([1#8, 0x77#8, 1#8], ⟨⟨0x77#8, .u8, .u8 1#8⟩, 3, false⟩),
    ([4#8, 0x66#8, 5#8, 0#8, 0#8, 0#8], ⟨⟨0x66#8, .u32, .u32 5#32⟩, 6, false⟩) ]

theorem witness_decodesAs : ∀ p ∈ pieces, Safety.decodesAs params p := by
  intro p hp
  simp only [pieces, List.mem_cons, List.not_mem_nil, or_false] at hp
  rcases hp with rfl | rfl
  · exact ⟨by decide, by decide⟩
  · exact ⟨by decide, by decide⟩

theorem witness_SectionDecCompletes :
    (given 0#32 0#32 (.bytes [0x46#8, 2#8])).faulted = false ∧ (0x51#8 : Byte) ≠ 0x48#8 ∧ (0x51#8 : Byte) ≠ 0x46#8 ∧
    (2#8 : Byte).toNat = pieces.length ∧ (∀ p ∈ pieces, Safety.decodesAs params p) ∧ pieces.length < (3#8 : Byte).toNat ∧
    decodeField params [] 0 = .error .truncated ∧ decodeField params [2#8, 0x58#8, 0#8, 0#8] 0 = .error .fieldLength :=
  ⟨by decide, by decide, by decide, by decide, witness_decodesAs, by decide, by decide, by decide⟩

theorem witness_SectionRoundTrip :
    (sized 0#32 0#32).faulted = false ∧
    (∃ t, exec (.sectionEnc 0x48#8) { sized 0#32 0#32 with operand := .fields [(0x54#8, .ts 0#64)] } = .next t ∧
      t.result = some (.ok (.out [0x48#8, 1#8, 8#8, 0x54#8, 0#8, 0#8, 0#8, 0#8, 0#8, 0#8, 0#8, 0#8]))) ∧
    (0#64 : DoubleWord).toNat ≤ params.tsMaxUs := ⟨by decide, ⟨_, rfl, by decide⟩, by decide⟩

theorem witness_UnknownFieldTolerated :
    (sized 0#32 0#32).faulted = false ∧ typeOf 0x5A#8 = .blob ∧ ([1#8, 2#8, 3#8] : List Byte).length ≤ 255 ∧
    pieces.length + ([] : List (List Byte × FieldRead)).length < 255 ∧
    ∀ p ∈ pieces ++ [], Safety.decodesAs params p :=
  ⟨by decide, by decide, by decide, by decide, fun p hp => witness_decodesAs p (by simpa using hp)⟩

theorem witness_TruncatedSectionFaults :
    (sized 0#32 0#32).faulted = false ∧
    (∃ t, exec (.sectionDec 0x46#8) { sized 0#32 0#32 with operand := .bytes [0x46#8, 1#8, 1#8, 0x77#8, 1#8] } = .next t ∧
      t.result = some (.ok (.fields 0x46#8 [⟨0x77#8, .u8, .u8 1#8⟩] 5))) ∧ 0 < 1 ∧ 4 < 5 :=
  ⟨by decide, ⟨_, rfl, by decide⟩, by decide, by decide⟩

theorem witness_TrailingBytesNotRead :
    (∃ t, exec (.fieldDec 0#8) { sized 0#32 0#32 with operand := .bytes [0#8, 0x5A#8] } = .next t ∧
      t.result = some (.ok (.field ⟨0x5A#8, .blob, .blob []⟩ 2))) ∧
    ∃ t, exec (.unpack 32#8) { sized 0#32 0#32 with operand := .countBytes 1#32 [0x80#8, 0#8, 0#8, 0#8] } = .next t ∧
      t.result = some (.ok (.values [-2147483648] 4)) := ⟨⟨_, rfl, by decide⟩, _, rfl, by decide⟩

theorem witness_SnakeOrderVisitsEveryPixelOnce : 1 ≤ 3 ∧ 1 ≤ 2 ∧ 5 < 3 * 2 ∧ snakePos 2 5 < 3 * 2 := by decide

theorem witness_DeltaSequences :
    (0 : Nat) < 2 ∧ 0 + 1 < 2 ∧ snakeDeltas 2 2 [65535#16, 0#16] [(1, 65535#16)] = [65535, -65535] ∧
    adjacentDeltas [65535, -65535] = [-131070] := by decide

theorem witness_FrameBitWidthFormula : ([-4] : List Int) ≠ [] ∧ frameBitWidth [-4] = 4 ∧ frameBitWidth [0, 0] = 1 := by
  decide

theorem witness_DeltasFitBitWidth : (-4 : Int) ∈ [-4, 3] := by decide

theorem witness_BitWidthMinimalExceptNegativePower :
    (maxMagnitude [-4] = 2 ^ 2 ∧ ((2 : Int) ^ 2) ∉ [-4]) ∧ frameBitWidth [-4] = 4 ∧
    (∀ j, j < 4 → ¬ (maxMagnitude [-4, 4] = 2 ^ j ∧ ((2 : Int) ^ j) ∉ [-4, 4])) := by decide

theorem witness_CompressCompletes :
    (given 2#32 2#32 (.pixels [10#16, 12#16, 15#16, 11#16])).faulted = false ∧
    (given 0#32 2#32 (.pixels [])).cfgOk = false ∧
    (given 2#32 2#32 (.pixels [10#16, 12#16, 15#16, 11#16])).cfgOk = true ∧
    [10#16, 12#16, 15#16].length ≠ (given 2#32 2#32 (.pixels [])).pixelCount ∧
    [10#16, 12#16, 15#16, 11#16].length = (given 2#32 2#32 (.pixels [])).pixelCount ∧
    ([10, 12, 11, 15] : List Int).length = (given 2#32 2#32 (.pixels [])).pixelCount ∧
    ∀ k, k < (given 2#32 2#32 (.pixels [])).pixelCount → ([10, 12, 11, 15] : List Int).getD k 0 =
      ((([10#16, 12#16, 15#16, 11#16] : List Pixel).getD (snakePos 2 k) 0#16).toNat : Int)
        - (FrameBuffer.load (given 2#32 2#32 (.pixels [])).encPrev (snakePos 2 k)).toNat := by decide

/-- V-R1's payload. -/
def payload : List Byte := [0x0A#8, 0#8, 0#8, 0#8, 0x2F#8, 0x40#8]

theorem witness_ReconstructCompletes :
    (given 2#32 2#32 (.bytes payload)).faulted = false ∧ (given 2#32 2#32 (.bytes payload)).cfgOk = true ∧
    (given 200#32 200#32 (.bytes payload)).cfgOk = false ∧
    payload.length = 4 + ceilDiv (((given 2#32 2#32 (.bytes payload)).pixelCount - 1) * (4#8 : Byte).toNat) 8 ∧
    payload.length ≠ 4 + ceilDiv (((given 2#32 2#32 (.bytes payload)).pixelCount - 1) * (32#8 : Byte).toNat) 8 ∧
    ((List.range 4).map fun k => ((FrameBuffer.load (given 2#32 2#32 (.bytes payload)).decPrev (snakePos 2 k)).toNat : Int)
      + payloadDelta payload 4 k) = [10, 12, 11, 15] ∧
    (given 2#32 2#32 (.bytes payload)).params.reconOverflow = .fault ∧
    (strict 2#32 2#32 (.bytes payload)).params.reconOverflow = .wrap ∧
    payloadDelta [0xFF#8, 0xFF#8, 0#8, 0#8, 0x40#8] 2 1 = 65536 ∧ payloadDelta [0xFF#8, 0xFF#8, 0xFF#8, 0xFF#8, 0#8] 2 0 = -1 := by
  decide

theorem witness_ClrEncCompletes_ClrDecCompletes :
    (given 0#32 0#32 .noOperand).faulted = false ∧ (given 0#32 0#32 .noOperand).operand = .noOperand ∧
    (1#8 : Byte) ≠ 0#8 := by decide

theorem witness_CsrReadCompletes :
    (given 0#32 0#32 .noOperand).operand = .noOperand ∧ (broken .noOperand).operand = .noOperand ∧
    (given 0#32 0#32 .noOperand).faulted = false ∧ 3 < (4#8 : Byte).toNat := by decide

theorem witness_CsrWriteCompletes :
    (given 0#32 0#32 (.data 2#32)).faulted = false ∧ (2#32 : Word).getLsbD 1 = true ∧
    (0xFFFFFFFD#32 : Word).getLsbD 1 = false ∧ 2 < (3#8 : Byte).toNat := by decide

theorem witness_SoftResetCompletes :
    (given 0#32 0#32 .noOperand).operand = .noOperand ∧ (given 0#32 0#32 .noOperand).faulted = false ∧
    (broken .noOperand).faulted = true ∧ (broken .noOperand).operand = .noOperand ∧ (1#8 : Byte) ≠ 0#8 := by decide

theorem witness_FrameCommandsNeedConfiguration :
    (given 1#32 1#32 (.pixels [7#16])).faulted = false ∧ (given 1#32 1#32 (.pixels [7#16])).cfgOk = false ∧
    (given 120#32 160#32 (.pixels [])).cfgOk = true ∧ (given 1#32 19201#32 (.pixels [])).cfgOk = false ∧
    1 ≤ (1#8 : Byte).toNat ∧ (32#8 : Byte).toNat ≤ 32 := by decide

theorem witness_FrameStreamRoundTrip :
    (sized 1#32 2#32).faulted = false ∧ (sized 1#32 2#32).cfgOk = true ∧
    (∀ j, j < (sized 1#32 2#32).pixelCount →
      FrameBuffer.load (sized 1#32 2#32).encPrev j = FrameBuffer.load (sized 1#32 2#32).decPrev j) ∧
    (∀ f ∈ ([[1#16, 2#16], [65535#16, 0#16]] : List (List Pixel)), f.length = (sized 1#32 2#32).pixelCount) := by decide

/-- An outer compressor that changes nothing. -/
def identity : Outer := ⟨id, id, fun _ => rfl⟩

theorem witness_FileRoundTrip :
    (∃ t file, writeFile identity (sized 0#32 0#32) 1#32 2#32 ⟨0#64, []⟩ [⟨[1#16, 2#16], 1000#32, 500#32⟩] =
      some (t, file)) ∧
    (sized 0#32 0#32).faulted = false ∧ (0#64 : DoubleWord).toNat ≤ (sized 0#32 0#32).params.tsMaxUs ∧
    (sized 0#32 0#32).params.stringCheck ≠ .utf8 := ⟨⟨_, _, rfl⟩, by decide, by decide, by decide⟩

end Sys2Proof.Tests
end

/-!
SUPPORT. The statements of the family spec/10_state.md: what an unconfigured block does with a frame command
(R31), the reset values (R34), what no step changes (R8, R26), and the separation of the frame buffers (R29).
-/

namespace Sys2Proof.Machine

/-! ## The configuration (R31) -/

/-- R67: the legal packing widths, as bounds. -/
theorem legalWidth_iff {w : Byte} : legalWidth w = true ↔ 1 ≤ w.toNat ∧ w.toNat ≤ 32 := by
  simp [legalWidth]

theorem State.cfgOk_iff (s : State) :
    s.cfgOk = true ↔ 1 ≤ s.rows.toNat ∧ 1 ≤ s.cols.toNat ∧ 2 ≤ s.rows.toNat * s.cols.toNat ∧
      s.rows.toNat * s.cols.toNat ≤ s.cap.toNat := by
  simp only [State.cfgOk, Bool.and_eq_true, decide_eq_true_eq, and_assoc]
  rfl

theorem exec_compress_unconfigured {s : State} {px : List Pixel} (hf : s.faulted = false) (hc : s.cfgOk = false)
    (ho : s.operand = .pixels px) : exec (.compress 0#8) s = .next (s.faultEntry .config) := by
  simp only [exec, execCompress, ho]
  exact command_error hf false (by simp [zeroArg, hc])

theorem exec_reconstruct_unconfigured {s : State} {w : Byte} {input : List Byte} (hf : s.faulted = false)
    (hc : s.cfgOk = false) (ho : s.operand = .bytes input) (hw : legalWidth w = true) :
    exec (.reconstruct w) s = .next (s.faultEntry .config) := by
  simp only [exec, execReconstruct, ho]
  exact command_error hf false (by simp [hw, hc])

/-- Settles O53: the bounds are `cfg_ok` read off, and the E_CONFIG check is the first that fails. -/
theorem frameCommandsNeedConfiguration : Obligations.FrameCommandsNeedConfiguration := fun s =>
  ⟨s.cfgOk_iff, fun hf hc =>
    ⟨fun _ ho => exec_compress_unconfigured hf hc ho, fun _ ho _ hlo hhi =>
      exec_reconstruct_unconfigured hf hc ho (legalWidth_iff.mpr ⟨hlo, hhi⟩)⟩⟩

/-! ## Reset (R34) -/

@[simp] theorem State.resetOf_faulted (cap : Word) (ps : Params) : (State.resetOf cap ps).faulted = false := by
  simp [State.faulted, Status.faulted]

@[simp] theorem State.resetOf_tsovf (cap : Word) (ps : Params) : (State.resetOf cap ps).tsovf = false := by
  simp [State.tsovf, Status.tsovf]

@[simp] theorem State.resetOf_faultCode (cap : Word) (ps : Params) : (State.resetOf cap ps).faultCode = 0#8 := by
  simp [State.faultCode, Status.faultCode]

/-- R31, R34: ROWS is 0 after reset, so the block is not configured. -/
theorem State.resetOf_cfgOk (cap : Word) (ps : Params) : (State.resetOf cap ps).cfgOk = false := by
  simp [State.cfgOk]

/-- R8: `MAX_PIXELS` of `Config` is at least its floor. -/
theorem maxPixelsFloor_le_maxPixels : Config.maxPixelsFloor ≤ Config.maxPixels.toNat := by
  unfold Config.maxPixels
  rw [BitVec.toNat_ofNatLT]
  exact Nat.le_add_left _ _

/-- Settles O6: the values are those of `State.resetOf`; the frame commands fault because ROWS is 0. -/
theorem resetValues : Obligations.ResetValues := by
  refine ⟨fun cap ps => ⟨rfl, State.resetOf_faulted cap ps, State.resetOf_tsovf cap ps,
    State.resetOf_faultCode cap ps, rfl, rfl, rfl, rfl, fun _ => rfl, fun _ => rfl, State.resetOf_cfgOk cap ps,
    fun px => ?_, fun w input hlo hhi => ?_⟩, rfl, maxPixelsFloor_le_maxPixels⟩
  · exact exec_compress_unconfigured (State.resetOf_faulted cap ps) (State.resetOf_cfgOk cap ps) rfl
  · exact exec_reconstruct_unconfigured (State.resetOf_faulted cap ps) (State.resetOf_cfgOk cap ps) rfl
      (legalWidth_iff.mpr ⟨hlo, hhi⟩)

/-! ## CAP and the parameters (R8, R26) -/

theorem State.badWord_cap (s : State) (e : DecodeError) : (s.badWord e).cap = s.cap := by
  unfold State.badWord; split <;> rfl

theorem State.badWord_params (s : State) (e : DecodeError) : (s.badWord e).params = s.params := by
  unfold State.badWord; split <;> rfl

/-- Of the effects a command can have, none reaches CAP or a parameter. -/
theorem CommandEffect.cap_params {i : Instr} {s t : State} (h : CommandEffect i s t) :
    t.cap = s.cap ∧ t.params = s.params := by
  cases h <;> simp

theorem step_cap_params {s t : State} (h : step s = .next t) : t.cap = s.cap ∧ t.params = s.params := by
  rcases step_cases s t h with ⟨-, rfl⟩ | ⟨_, _, -, rfl⟩ | ⟨c, rest, i, -, -, hexec⟩ | ⟨c, rest, e, -, -, rfl⟩
  · exact ⟨rfl, rfl⟩
  · exact ⟨rfl, rfl⟩
  · exact (exec_effect i _ t hexec).cap_params
  · exact ⟨State.badWord_cap _ e, State.badWord_params _ e⟩

theorem exec_csrRead_cap {s : State} (ho : s.operand = .noOperand) :
    exec (.csrRead 0x03#8) s = .next (s.complete (.data s.cap)) := by
  simp only [exec, execCsrRead, ho]
  exact command_accepted_ok rfl

theorem exec_csrWrite_cap {s : State} {d : Word} (hf : s.faulted = false) (ho : s.operand = .data d) :
    exec (.csrWrite 0x03#8) s = .next (s.faultEntry .badArg) := by
  simp only [exec, execCsrWrite, ho]
  exact command_error hf false rfl

/-- Settles O11, by the cases of a step; the read answers CAP itself, which `MAX_PIXELS` is the value of. -/
theorem capAndParametersAreFixed : Obligations.CapAndParametersAreFixed := by
  refine ⟨fun s t h => ?_, fun s ho => ?_, fun s d hf ho => exec_csrWrite_cap hf ho⟩
  · obtain ⟨hcap, hparams⟩ := step_cap_params h
    exact ⟨hcap, congrArg BitVec.toNat hcap, hparams⟩
  · rw [State.maxPixels, BitVec.ofNat_toNat, BitVec.setWidth_eq]
    exact exec_csrRead_cap ho

/-! ## The two frame buffers (R29) -/

/-- The two frame buffers of the block (R27, R28). -/
inductive BufferName where
  | enc
  | dec

/-- The state with what the named frame buffer holds replaced. -/
def State.setBuffer (x : BufferName) (b : FrameBuffer) (s : State) : State :=
  match x with
  | .enc => { s with encPrev := b }
  | .dec => { s with decPrev := b }

/-- R29, R102, R106: the one command whose result depends on the named frame buffer. -/
def BufferName.readBy : BufferName → Instr → Bool
  | .enc, .compress _ => true
  | .dec, .reconstruct _ => true
  | _, _ => false

section
variable (x : BufferName) (b : FrameBuffer) (s : State)

@[simp] theorem State.setBuffer_params : (s.setBuffer x b).params = s.params := by cases x <;> rfl
@[simp] theorem State.setBuffer_operand : (s.setBuffer x b).operand = s.operand := by cases x <;> rfl
@[simp] theorem State.setBuffer_faulted : (s.setBuffer x b).faulted = s.faulted := by cases x <;> rfl
@[simp] theorem State.setBuffer_pixelCount : (s.setBuffer x b).pixelCount = s.pixelCount := by cases x <;> rfl
@[simp] theorem State.setBuffer_cfgOk : (s.setBuffer x b).cfgOk = s.cfgOk := by cases x <;> rfl
@[simp] theorem State.setBuffer_csr? (n : Byte) : (s.setBuffer x b).csr? n = s.csr? n := by cases x <;> rfl

@[simp] theorem State.rejected_setBuffer : (s.setBuffer x b).rejected = s.rejected.setBuffer x b := by
  cases x <;> rfl
@[simp] theorem State.faultEntry_setBuffer (e : FaultCode) :
    (s.setBuffer x b).faultEntry e = (s.faultEntry e).setBuffer x b := by cases x <;> rfl
@[simp] theorem State.complete_setBuffer (o : Outputs) :
    (s.setBuffer x b).complete o = (s.complete o).setBuffer x b := by cases x <;> rfl
@[simp] theorem State.endOfStream_setBuffer :
    (s.setBuffer x b).endOfStream = s.endOfStream.setBuffer x b := by cases x <;> rfl
@[simp] theorem State.noteOverflow_setBuffer (ovf : Bool) :
    (s.setBuffer x b).noteOverflow ovf = (s.noteOverflow ovf).setBuffer x b := by cases x <;> cases ovf <;> rfl
@[simp] theorem State.writeStatus_setBuffer (d : Word) :
    (s.setBuffer x b).writeStatus d = (s.writeStatus d).setBuffer x b := by
  unfold State.writeStatus; cases x <;> split <;> rfl

/-! Where a command clears both buffers, what one held is gone. -/

theorem State.softReset_setBuffer : (s.setBuffer x b).softReset = s.softReset.setBuffer x [] := by cases x <;> rfl
theorem State.writeRows_setBuffer (d : Word) :
    (s.setBuffer x b).writeRows d = (s.writeRows d).setBuffer x [] := by cases x <;> rfl
theorem State.writeCols_setBuffer (d : Word) :
    (s.setBuffer x b).writeCols d = (s.writeCols d).setBuffer x [] := by cases x <;> rfl

end

/-- The common checks see no frame buffer: a command whose own checks decide the same but for buffer `x`
answers the same but for buffer `x`. -/
theorem command_setBuffer {α : Type} {x : BufferName} {b : FrameBuffer} {s t : State} {whileFaulted : Bool}
    {kind : Operand → Option α} {body body' : α → Except FaultCode State}
    (hbody : ∀ a, ∃ b', body' a = (body a).map (State.setBuffer x b'))
    (h : command s whileFaulted (kind s.operand) body = .next t) :
    ∃ b', command (s.setBuffer x b) whileFaulted (kind (s.setBuffer x b).operand) body' =
      .next (t.setBuffer x b') := by
  unfold command at h ⊢
  rw [State.setBuffer_faulted, State.setBuffer_operand]
  split at h
  · cases h
    exact ⟨b, by rw [State.rejected_setBuffer]⟩
  · cases h
    exact ⟨b, by rw [State.faultEntry_setBuffer]⟩
  · rename_i a _ _
    obtain ⟨b', hb'⟩ := hbody a
    rw [hb']
    cases hres : body a with
    | ok u =>
      rw [hres] at h
      cases h
      exact ⟨b', rfl⟩
    | error e =>
      rw [hres] at h
      cases h
      exact ⟨b, congrArg Host.Outcome.next (State.faultEntry_setBuffer x b s e)⟩

/-- A computation whose continuations agree up to `f` agrees up to `f`, its first fault being the same. -/
theorem bind_eq_map_bind {α β : Type} {f : β → β} (r : Except FaultCode α) {k k' : α → Except FaultCode β}
    (h : ∀ a, k' a = (k a).map f) : (r >>= k') = (r >>= k).map f := by
  cases r with
  | error e => rfl
  | ok a => exact h a

/-- A CSR write does not see what a buffer holds; ROWS and COLS clear it. -/
theorem State.writeCsr?_setBuffer (x : BufferName) (b : FrameBuffer) (s : State) (n : Byte) (d : Word) :
    ∃ b', (s.setBuffer x b).writeCsr? n d = (s.writeCsr? n d).map (State.setBuffer x b') := by
  unfold State.writeCsr?
  split
  · exact ⟨b, by simp⟩
  · exact ⟨[], by simp [State.writeRows_setBuffer]⟩
  · exact ⟨[], by simp [State.writeCols_setBuffer]⟩
  · exact ⟨b, rfl⟩

/-- R29: a command other than the one that reads buffer `x` answers the same, but for buffer `x`, whatever
`x` holds. -/
theorem exec_setBuffer {x : BufferName} {i : Instr} {s t : State} (b : FrameBuffer)
    (hi : x.readBy i = false) (h : exec i s = .next t) :
    ∃ b', exec i (s.setBuffer x b) = .next (t.setBuffer x b') := by
  cases i with
  | pack w =>
    refine command_setBuffer (fun vs => ⟨b, ?_⟩) h
    rw [State.complete_setBuffer]
    split_ifs <;> rfl
  | unpack w =>
    refine command_setBuffer (fun (n, input) => ⟨b, ?_⟩) h
    simp only [State.complete_setBuffer]
    split
    · rfl
    · cases unpack input w.toNat n <;> rfl
  | fieldEnc code =>
    refine command_setBuffer (fun v => ⟨b, bind_eq_map_bind _ fun bytes => ?_⟩) h
    rw [State.complete_setBuffer]
    rfl
  | fieldDec a =>
    refine command_setBuffer (fun input => ⟨b, ?_⟩) h
    simp only [State.setBuffer_params, State.noteOverflow_setBuffer, State.complete_setBuffer]
    split
    · rfl
    · exact bind_eq_map_bind _ fun f => rfl
  | sectionEnc tag =>
    refine command_setBuffer (fun fs => ⟨b, ?_⟩) h
    simp only [State.complete_setBuffer]
    split
    · rfl
    · exact bind_eq_map_bind _ fun bytes => rfl
  | sectionDec tag =>
    refine command_setBuffer (fun input => ⟨b, ?_⟩) h
    simp only [State.setBuffer_params, State.noteOverflow_setBuffer, State.complete_setBuffer,
      State.endOfStream_setBuffer]
    split
    · rfl
    · cases input with
      | nil => rfl
      | cons first rest =>
        simp only
        split
        · rfl
        · exact bind_eq_map_bind _ fun cnt => bind_eq_map_bind _ fun fs => rfl
  | compress a =>
    cases x with
    | enc => cases hi
    | dec =>
      refine command_setBuffer (fun px => ⟨b, ?_⟩) h
      simp only [State.setBuffer_cfgOk, State.setBuffer_pixelCount]
      split_ifs <;> rfl
  | clrEnc a =>
    cases x with
    | enc => exact command_setBuffer (fun _ => ⟨[], by split_ifs <;> rfl⟩) h
    | dec => exact command_setBuffer (fun _ => ⟨b, by split_ifs <;> rfl⟩) h
  | reconstruct w =>
    cases x with
    | dec => cases hi
    | enc =>
      refine command_setBuffer (fun input => ⟨b, ?_⟩) h
      simp only [State.setBuffer_cfgOk, State.setBuffer_pixelCount, State.setBuffer_params]
      split_ifs
      · rfl
      · rfl
      · rfl
      · exact bind_eq_map_bind _ fun adj => bind_eq_map_bind _ fun pix => rfl
  | clrDec a =>
    cases x with
    | enc => exact command_setBuffer (fun _ => ⟨b, by split_ifs <;> rfl⟩) h
    | dec => exact command_setBuffer (fun _ => ⟨[], by split_ifs <;> rfl⟩) h
  | csrRead n =>
    refine command_setBuffer (fun _ => ⟨b, ?_⟩) h
    simp only [State.setBuffer_csr?, State.complete_setBuffer]
    cases s.csr? n <;> rfl
  | csrWrite n =>
    refine command_setBuffer (fun d => ?_) h
    obtain ⟨b', hb'⟩ := State.writeCsr?_setBuffer x b s n d
    refine ⟨b', ?_⟩
    rw [hb']
    cases s.writeCsr? n d with
    | none => rfl
    | some u => exact congrArg Except.ok (State.complete_setBuffer x b' u _)
  | softReset a =>
    refine command_setBuffer (fun _ => ⟨[], ?_⟩) h
    rw [State.softReset_setBuffer, State.complete_setBuffer]
    split_ifs <;> rfl

/-- R29: RECONSTRUCT writes no frame buffer but DEC_PREV. -/
theorem exec_reconstruct_encPrev {w : Byte} {s t : State} (h : exec (.reconstruct w) s = .next t) :
    t.encPrev = s.encPrev := by
  cases exec_effect _ s t h <;> simp

/-- R29: COMPRESS writes no frame buffer but ENC_PREV. -/
theorem exec_compress_decPrev {a : Byte} {s t : State} (h : exec (.compress a) s = .next t) :
    t.decPrev = s.decPrev := by
  cases exec_effect _ s t h <;> simp

/-- Settles O23: no command but RECONSTRUCT reads DEC_PREV and none but COMPRESS reads ENC_PREV, and each of
the two writes its own buffer only. -/
theorem frameBuffersAreSeparate : Obligations.FrameBuffersAreSeparate := by
  refine ⟨fun i s t b hi h => exec_setBuffer (x := .dec) b ?_ h, fun w s t => exec_reconstruct_encPrev,
    fun i s t b hi h => exec_setBuffer (x := .enc) b ?_ h, fun a s t => exec_compress_decPrev⟩
  · cases i with
    | reconstruct w => exact absurd rfl (hi w)
    | _ => rfl
  · cases i with
    | compress a => exact absurd rfl (hi a)
    | _ => rfl

end Sys2Proof.Machine

/-!
SUPPORT. The statements of the family spec/30_encoding.md: which words are no command and what they fault with
(R56, R57), the operand kinds (R54), and the pseudo-instructions (R66).
-/

namespace Sys2Proof.Machine

/-! ## Words that are no command (R56, R57) -/

theorem Word.toNat_opcode (w : Word) : (Word.opcode w).toNat = w.toNat % 256 := by
  simp [Word.opcode]

theorem Word.toNat_rsvd (w : Word) : (Word.rsvd w).toNat = w.toNat / 65536 := by
  have hw := w.isLt
  simp only [Word.rsvd, BitVec.extractLsb'_toNat, Nat.shiftRight_eq_div_pow]
  omega

/-- R52, R56: the OPCODE map selects no command exactly for the illegal OPCODE values. -/
theorem commandOf_eq_none {opcode arg : Byte} :
    commandOf opcode arg = none ↔ opcode.toNat = 0 ∨ 0x0E ≤ opcode.toNat := by
  unfold commandOf
  split <;> simp_all
  -- the last arm: an OPCODE that is none of 1 to 13
  omega

theorem decode_eq_illegalOpcode {w : Word} (h : w.toNat % 256 = 0 ∨ 0x0E ≤ w.toNat % 256) :
    decode w = .error .illegalOpcode := by
  rw [← Word.toNat_opcode] at h
  rw [decode, commandOf_eq_none.mpr h]

theorem decode_eq_reservedBits {w : Word} (hlo : 1 ≤ w.toNat % 256) (hhi : w.toNat % 256 ≤ 0x0D)
    (hr : w.toNat / 65536 ≠ 0) : decode w = .error .reservedBits := by
  rw [← Word.toNat_opcode] at hlo hhi
  rw [← Word.toNat_rsvd] at hr
  have hrsvd : Word.rsvd w ≠ 0#16 := fun h0 => hr (by rw [h0]; rfl)
  unfold decode
  cases hc : commandOf (Word.opcode w) (Word.arg w) with
  | none => have := commandOf_eq_none.mp hc; omega
  | some i => exact if_neg hrsvd

/-- R115: a step with a command presented executes what its word decodes to. -/
theorem step_of_decode_ok {s : State} {c : Command} {rest : List HostInput} {i : Instr}
    (hin : s.inputs = .command c :: rest) (hd : decode c.word = .ok i) : step s = exec i (s.take c rest) := by
  simp only [step, hin, hd]

/-- R115: a step with a word that is no command faults when the block is not faulted. -/
theorem step_of_decode_error {s : State} {c : Command} {rest : List HostInput} {e : DecodeError}
    (hf : s.faulted = false) (hin : s.inputs = .command c :: rest) (hd : decode c.word = .error e) :
    step s = .next ((s.take c rest).faultEntry (faultOfDecodeError e)) := by
  have hft : (s.take c rest).faulted = false := hf
  simp [step, hin, hd, State.badWord, hft]

/-- Settles O3: the decoder finds no command for such an OPCODE, and the step enters the decoder's fault. -/
theorem illegalOpcodesFault : Obligations.IllegalOpcodesFault := fun _ _ _ hf hin hop =>
  step_of_decode_error (e := .illegalOpcode) hf hin (decode_eq_illegalOpcode hop)

/-- Settles O4: with a legal OPCODE the decoder rejects RSVD, and the step enters the decoder's fault. -/
theorem reservedBitsFault : Obligations.ReservedBitsFault := fun _ _ _ hf hin hlo hhi hr =>
  step_of_decode_error (e := .reservedBits) hf hin (decode_eq_reservedBits hlo hhi hr)

/-! ## Operand kinds and a command's own checks (R54, R112, R115) -/

/-- What a command's own checks decide: they raise only the codes of its row in R112, never E_OPERAND, and a
command that passes them reports no fault. -/
def OwnChecks (i : Instr) : Except FaultCode State → Prop
  | .error e => e ≠ .operand ∧ Safety.mayRaise i e = true
  | .ok t => ∀ e, t.result ≠ some (.fault e)

theorem OwnChecks.complete (i : Instr) (s : State) (o : Outputs) : OwnChecks i (.ok (s.complete o)) := nofun

theorem OwnChecks.endOfStream (i : Instr) (s : State) : OwnChecks i (.ok s.endOfStream) := nofun

theorem OwnChecks.bind {α : Type} {i : Instr} {r : Except FaultCode α} {k : α → Except FaultCode State}
    (herr : ∀ e, r = .error e → e ≠ .operand ∧ Safety.mayRaise i e = true)
    (hok : ∀ a, OwnChecks i (k a)) : OwnChecks i (r >>= k) := by
  cases r with
  | error e => exact herr e rfl
  | ok a => exact hok a

theorem encodeField_error {code : Byte} {v : FieldValue} {e : FaultCode} (h : encodeField code v = .error e) :
    e = .typeMismatch ∨ e = .fieldTooLong := by
  unfold encodeField at h
  split_ifs at h <;> cases h
  · exact .inl rfl
  · exact .inr rfl

theorem rebuild_error {ps : Params} {cols n : Nat} {prev : FrameBuffer} {init : Int} {adj : List Int}
    {e : FaultCode} (h : rebuild ps cols n prev init adj = .error e) : e = .pixelRange := by
  unfold rebuild at h
  simp only at h
  split at h <;> cases h
  rfl

/-- R106: a payload of the length a frame needs holds all its deltas, so that unpacking it raises nothing. -/
theorem unpack_payload_ne_error {w : Byte} {n : Nat} {input : List Byte} (hw : legalWidth w = true)
    (hlen : input.length = payloadLength n w.toNat) (e : FaultCode) :
    unpack (input.drop 4) w.toNat (n - 1) ≠ .error e := by
  obtain ⟨hlo, hhi⟩ := legalWidth_iff.mp hw
  rw [unpack_eq hlo hhi (by rw [List.length_drop, hlen, payloadLength]; omega)]
  nofun

/-- A command of R115: the common checks, of which the operand check passes exactly for an operand of the
command's kind, then the command's own checks. -/
inductive CheckedCommand (i : Instr) (s : State) : Host.Outcome State Fault Refusal → Prop where
  | mk {α : Type} (whileFaulted : Bool) (contents : Option α) (body : α → Except FaultCode State) :
      contents.isSome = Safety.kindOk i s.operand → (∀ a, OwnChecks i (body a)) →
      CheckedCommand i s (command s whileFaulted contents body)

/-- Every command is one of R115, with own checks that raise what R112 says. -/
theorem exec_checked (i : Instr) (s : State) : CheckedCommand i s (exec i s) := by
  cases i <;> refine .mk _ _ _ (by cases s.operand <;> rfl) fun a => ?_
  case pack w =>
    split_ifs
    · exact ⟨nofun, rfl⟩
    · exact ⟨nofun, rfl⟩
    · exact .complete _ _ _
  case unpack w =>
    obtain ⟨n, input⟩ := a
    simp only
    split
    · exact ⟨nofun, rfl⟩
    · cases hu : unpack input w.toNat n with
      | error e => rw [unpack_error hu]; exact ⟨nofun, rfl⟩
      | ok r => exact .complete _ _ _
  case fieldEnc code =>
    refine .bind (fun e he => ?_) fun bytes => .complete _ _ _
    rcases encodeField_error he with rfl | rfl <;> exact ⟨nofun, rfl⟩
  case fieldDec z =>
    split
    · exact ⟨nofun, rfl⟩
    · refine .bind (fun e he => ?_) fun f => .complete _ _ _
      rcases decodeField_error he with rfl | rfl | rfl <;> exact ⟨nofun, rfl⟩
  case sectionEnc tag =>
    split
    · exact ⟨nofun, rfl⟩
    · refine .bind (fun e he => ?_) fun bytes => .complete _ _ _
      rcases encodeSection_error he with rfl | rfl | rfl | rfl <;> exact ⟨nofun, rfl⟩
  case sectionDec tag =>
    split
    · exact ⟨nofun, rfl⟩
    · cases a with
      | nil => exact .endOfStream _ _
      | cons first input =>
        simp only
        split
        · exact ⟨nofun, rfl⟩
        · refine .bind (fun e he => ?_) fun cnt => .bind (fun e he => ?_) fun fs => .complete _ _ _
          · rw [(memReadByte_eq_error.mp he).2]; exact ⟨nofun, rfl⟩
          · rcases decodeFields_error he with rfl | rfl | rfl <;> exact ⟨nofun, rfl⟩
  case compress z =>
    split_ifs
    · exact ⟨nofun, rfl⟩
    · exact ⟨nofun, rfl⟩
    · exact ⟨nofun, rfl⟩
    · exact .complete _ _ _
  case reconstruct w =>
    split_ifs with hw hc hlen
    · exact ⟨nofun, rfl⟩
    · exact ⟨nofun, rfl⟩
    · exact ⟨nofun, rfl⟩
    · refine .bind (fun e he => ?_) fun adj => .bind (fun e he => ?_) fun pix => .complete _ _ _
      · exact absurd he (unpack_payload_ne_error (by simpa using hw) (by simpa using hlen) e)
      · rw [rebuild_error he]; exact ⟨nofun, rfl⟩
  case csrRead n =>
    cases s.csr? n with
    | none => exact ⟨nofun, rfl⟩
    | some d => exact .complete _ _ _
  case csrWrite n =>
    cases s.writeCsr? n a with
    | none => exact ⟨nofun, rfl⟩
    | some t => exact .complete _ _ _
  case clrEnc z | clrDec z | softReset z =>
    split
    · exact ⟨nofun, rfl⟩
    · exact .complete _ _ _

/-- R54: of the common checks of an unfaulted block, the operand check is the one that can fail. -/
theorem CheckedCommand.wrong_kind {i : Instr} {s : State} {r : Host.Outcome State Fault Refusal}
    (h : CheckedCommand i s r) (hf : s.faulted = false) (hk : Safety.kindOk i s.operand = false) :
    r = .next (s.faultEntry .operand) := by
  obtain ⟨wf, contents, body, hkind, -⟩ := h
  rw [hk, Option.isSome_eq_false_iff, Option.isNone_iff_eq_none] at hkind
  rw [hkind, command_operand hf]

/-- R54, R112: with an operand of its kind, a command of an unfaulted block reports no fault but one of its own
checks. -/
theorem CheckedCommand.fault_of_right_kind {i : Instr} {s t : State} {e : FaultCode}
    (h : CheckedCommand i s (.next t)) (hf : s.faulted = false) (hk : Safety.kindOk i s.operand = true)
    (he : t.result = some (.fault e)) : e ≠ .operand ∧ Safety.mayRaise i e = true := by
  generalize hr : Host.Outcome.next t = r at h
  obtain ⟨wf, contents, body, hkind, hown⟩ := h
  obtain ⟨a, rfl⟩ := Option.isSome_iff_exists.mp (hkind.trans hk)
  have hbody := hown a
  cases hb : body a with
  | error e' =>
    rw [command_error hf wf hb] at hr
    cases hr
    cases he
    rwa [hb] at hbody
  | ok u =>
    rw [command_ok hf wf hb] at hr
    cases hr
    rw [hb] at hbody
    exact absurd he (hbody e)

/-- Settles O15: the operand check comes before a command's own checks, and these never raise E_OPERAND. -/
theorem wrongOperandKindFaults : Obligations.WrongOperandKindFaults := fun i s hf =>
  ⟨(exec_checked i s).wrong_kind hf, fun hk _ ht he =>
    ((ht ▸ exec_checked i s).fault_of_right_kind hf hk he).1 rfl⟩

/-! ## The pseudo-instructions (R66) -/

/-- R109: a read of a CSR that has a value, with no operand, changes nothing but the result, faulted or not. -/
theorem exec_csrRead_ok {s : State} {n : Byte} {d : Word} (ho : s.operand = .noOperand)
    (hn : readableCsr n = true) (hd : s.csr? n = some d) :
    exec (.csrRead n) s = .next (s.complete (.data d)) := by
  simp only [exec, execCsrRead, ho, hn]
  exact command_accepted_ok (by simp [hd])

/-- Settles O56: the expansions are computed; `nop` reads STATUS. -/
theorem pseudoInstructionsExpand : Obligations.PseudoInstructionsExpand := by
  refine ⟨fun r c => rfl, rfl, rfl, by decide, fun s => ⟨Status.read s.status, ?_⟩⟩
  rw [step_of_decode_ok (i := .csrRead 0x00#8) (State.present_inputs _ _) (by decide)]
  exact exec_csrRead_ok rfl rfl rfl

end Sys2Proof.Machine

/-!
SUPPORT. The statements of the family spec/40_bit_packing.md: the check of ARG (R53, R67) and the commands PACK
(R74) and UNPACK (R75), whose padding bits no value sees (R73).
-/

namespace Sys2Proof.Machine

/-! ## The check of ARG (R53, R67) -/

theorem legalTag_iff {t : Byte} : legalTag t = true ↔ t = 0x48#8 ∨ t = 0x46#8 := by
  simp [legalTag, tagHeader, tagFrame]

theorem readableCsr_iff {n : Byte} : readableCsr n = true ↔ n.toNat ≤ 3 := decide_eq_true_iff

theorem writableCsr_iff {n : Byte} : writableCsr n = true ↔ n.toNat ≤ 2 := decide_eq_true_iff

theorem zeroArg_iff {a : Byte} : zeroArg a = true ↔ a = 0#8 := beq_iff_eq

/-- R109: the CSR numbers that read as something are the legal ARG values of `CSR_READ`. -/
theorem State.csr?_isSome (s : State) (n : Byte) : (s.csr? n).isSome = readableCsr n := by
  unfold State.csr? readableCsr
  split <;> simp_all
  -- the last arm: a number that is none of 0 to 3
  omega

/-- R110: the CSR numbers a write is made to are the legal ARG values of `CSR_WRITE`. -/
theorem State.writeCsr?_isSome (s : State) (n : Byte) (d : Word) : (s.writeCsr? n d).isSome = writableCsr n := by
  unfold State.writeCsr? writableCsr
  split <;> simp_all
  -- the last arm: a number that is none of 0 to 2
  omega

/-- What the own checks after the one of ARG decide: they raise neither of the faults of an illegal ARG, and a
command that passes them reports no fault. -/
def NoArgumentFault : Except FaultCode State → Prop
  | .error e => e ≠ .width ∧ e ≠ .badArg
  | .ok t => ∀ e, t.result ≠ some (.fault e)

theorem NoArgumentFault.complete (s : State) (o : Outputs) : NoArgumentFault (.ok (s.complete o)) := nofun

theorem NoArgumentFault.endOfStream (s : State) : NoArgumentFault (.ok s.endOfStream) := nofun

theorem NoArgumentFault.bind {α : Type} {r : Except FaultCode α} {k : α → Except FaultCode State}
    (herr : ∀ e, r = .error e → e ≠ .width ∧ e ≠ .badArg) (hok : ∀ a, NoArgumentFault (k a)) :
    NoArgumentFault (r >>= k) := by
  cases r with
  | error e => exact herr e rfl
  | ok a => exact hok a

/-- R115: a command's own checks begin with the check of ARG. -/
def ChecksArgumentFirst (i : Instr) (r : Except FaultCode State) : Prop :=
  (i.wellFormed = false → r = .error (Safety.argumentFault i)) ∧ (i.wellFormed = true → NoArgumentFault r)

theorem ChecksArgumentFirst.illegal {i : Instr} (hw : i.wellFormed = false) :
    ChecksArgumentFirst i (.error (Safety.argumentFault i)) :=
  ⟨fun _ => rfl, fun h => absurd (hw.symm.trans h) nofun⟩

theorem ChecksArgumentFirst.legal {i : Instr} {r : Except FaultCode State} (hw : i.wellFormed = true)
    (hr : NoArgumentFault r) : ChecksArgumentFirst i r :=
  ⟨fun h => absurd (hw.symm.trans h) nofun, fun _ => hr⟩

/-- The usual form of the check: a fault unless ARG is legal, before everything else. -/
theorem ChecksArgumentFirst.ifLegal {i : Instr} {e : FaultCode} {r : Except FaultCode State}
    (he : Safety.argumentFault i = e) (hr : NoArgumentFault r) :
    ChecksArgumentFirst i (if !i.wellFormed then .error e else r) := by
  subst he
  cases hw : i.wellFormed with
  | false => exact .illegal hw
  | true => exact .legal hw hr

/-- A command of R115 whose own checks, made on an operand of the command's kind, begin with the check of ARG. -/
inductive ArgumentCheckedCommand (i : Instr) (s : State) : Host.Outcome State Fault Refusal → Prop where
  | mk {α : Type} (whileFaulted : Bool) (contents : Option α) (body : α → Except FaultCode State) :
      contents.isSome = Safety.kindOk i s.operand → (∀ a, ChecksArgumentFirst i (body a)) →
      ArgumentCheckedCommand i s (command s whileFaulted contents body)

/-- Every command checks ARG before anything else of its own. -/
theorem exec_argumentChecked (i : Instr) (s : State) : ArgumentCheckedCommand i s (exec i s) := by
  cases i <;> refine .mk _ _ _ (by cases s.operand <;> rfl) fun a => ?_
  case pack w =>
    refine .ifLegal rfl ?_
    split
    · exact ⟨nofun, nofun⟩
    · exact .complete _ _
  case unpack w =>
    obtain ⟨n, input⟩ := a
    refine .ifLegal rfl ?_
    cases hu : unpack input w.toNat n with
    | error e => rw [unpack_error hu]; exact ⟨nofun, nofun⟩
    | ok r => exact .complete _ _
  case fieldEnc code =>
    refine ⟨nofun, fun _ => .bind (fun e he => ?_) fun bytes => .complete _ _⟩
    rcases encodeField_error he with rfl | rfl <;> exact ⟨nofun, nofun⟩
  case fieldDec z =>
    refine .ifLegal rfl (.bind (fun e he => ?_) fun f => .complete _ _)
    rcases decodeField_error he with rfl | rfl | rfl <;> exact ⟨nofun, nofun⟩
  case sectionEnc tag =>
    refine .ifLegal rfl (.bind (fun e he => ?_) fun bytes => .complete _ _)
    rcases encodeSection_error he with rfl | rfl | rfl | rfl <;> exact ⟨nofun, nofun⟩
  case sectionDec tag =>
    refine .ifLegal rfl ?_
    cases a with
    | nil => exact .endOfStream _
    | cons first input =>
      simp only
      split
      · exact ⟨nofun, nofun⟩
      · refine .bind (fun e he => ?_) fun cnt => .bind (fun e he => ?_) fun fs => .complete _ _
        · rw [(memReadByte_eq_error.mp he).2]; exact ⟨nofun, nofun⟩
        · rcases decodeFields_error he with rfl | rfl | rfl <;> exact ⟨nofun, nofun⟩
  case compress z =>
    refine .ifLegal rfl ?_
    split_ifs
    · exact ⟨nofun, nofun⟩
    · exact ⟨nofun, nofun⟩
    · exact .complete _ _
  case reconstruct w =>
    refine .ifLegal rfl ?_
    split_ifs
    · exact ⟨nofun, nofun⟩
    · exact ⟨nofun, nofun⟩
    · refine .bind (fun e he => ?_) fun adj => .bind (fun e he => ?_) fun pix => .complete _ _
      · rw [unpack_error he]; exact ⟨nofun, nofun⟩
      · rw [rebuild_error he]; exact ⟨nofun, nofun⟩
  case csrRead n =>
    have hn := s.csr?_isSome n
    cases hc : s.csr? n with
    | none => exact .illegal (i := .csrRead n) (hn.symm.trans (by rw [hc]; rfl))
    | some d => exact .legal (hn.symm.trans (by rw [hc]; rfl)) (.complete _ _)
  case csrWrite n =>
    have hn := s.writeCsr?_isSome n a
    cases hc : s.writeCsr? n a with
    | none => exact .illegal (i := .csrWrite n) (hn.symm.trans (by rw [hc]; rfl))
    | some t => exact .legal (hn.symm.trans (by rw [hc]; rfl)) (.complete _ _)
  case clrEnc z | clrDec z | softReset z => exact .ifLegal rfl (.complete _ _)

theorem ArgumentCheckedCommand.illegal {i : Instr} {s : State} {r : Host.Outcome State Fault Refusal}
    (h : ArgumentCheckedCommand i s r) (hf : s.faulted = false) (hk : Safety.kindOk i s.operand = true)
    (hw : i.wellFormed = false) : r = .next (s.faultEntry (Safety.argumentFault i)) := by
  obtain ⟨wf, contents, body, hkind, hown⟩ := h
  obtain ⟨a, rfl⟩ := Option.isSome_iff_exists.mp (hkind.trans hk)
  exact command_error hf wf ((hown a).1 hw)

theorem ArgumentCheckedCommand.legal {i : Instr} {s t : State} {e : FaultCode}
    (h : ArgumentCheckedCommand i s (.next t)) (hf : s.faulted = false) (hk : Safety.kindOk i s.operand = true)
    (hw : i.wellFormed = true) (he : t.result = some (.fault e)) : e ≠ .width ∧ e ≠ .badArg := by
  generalize hr : Host.Outcome.next t = r at h
  obtain ⟨wf, contents, body, hkind, hown⟩ := h
  obtain ⟨a, rfl⟩ := Option.isSome_iff_exists.mp (hkind.trans hk)
  have hbody := (hown a).2 hw
  cases hb : body a with
  | error e' =>
    rw [command_error hf wf hb] at hr
    cases hr
    cases he
    rwa [hb] at hbody
  | ok u =>
    rw [command_ok hf wf hb] at hr
    cases hr
    rw [hb] at hbody
    exact absurd he (hbody e)

/-- Settles O16: the legal values are read off `wellFormed`, and the check of ARG is the first of a command's own
checks and the only one that raises E_WIDTH or E_BAD_ARG. -/
theorem illegalArgumentsFault : Obligations.IllegalArgumentsFault := by
  refine ⟨fun a => ⟨legalWidth_iff, legalWidth_iff, legalWidth_iff, rfl, legalTag_iff, legalTag_iff,
    readableCsr_iff, writableCsr_iff, ?_⟩, fun i s hf hk => ⟨(exec_argumentChecked i s).illegal hf hk,
      fun hw t ht => ?_⟩⟩
  · rintro i (rfl | rfl | rfl | rfl | rfl) <;> exact zeroArg_iff
  · have hlegal := fun {e} => (ht ▸ exec_argumentChecked i s).legal (e := e) hf hk hw
    exact ⟨fun he => (hlegal he).1 rfl, fun he => (hlegal he).2 rfl⟩

/-! ## PACK (R59, R68, R70, R74) -/

theorem toNat_encode (i : Instr) : (encode i).toNat = i.arg.toNat * 256 + i.opcode.toNat := by
  rw [encode, toNat_wordOf]
  simp

/-- R59: the packed stream is the bytes of its bit string. -/
theorem packedStream_eq_bytesOf (w : Nat) (us : List Nat) :
    packedStream w us = bytesOf (streamBit w us) (us.length * w) := by
  refine List.map_congr_left fun m _ => ?_
  rw [streamByte, bitsValue_eq_sum (fun k => streamBit w us (8 * m + k)) 8]
  exact congrArg _ (bitsValue_congr fun k _ => by simp [streamBit])

/-- R59, R70: packing from the empty register gives the packed stream. -/
theorem pack_eq_packedStream {w : Nat} (hlo : 1 ≤ w) (hhi : w ≤ 32) (vs : List Int) :
    pack w vs = packedStream w (vs.map (encBits w)) := by
  have hloop := packLoop_eq hlo hhi vs Scratch.empty (Nat.zero_le 7) fun j _ => Scratch.bit_empty j
  rw [pack, hloop, packedStream_eq_bytesOf]
  simp [Scratch.empty]

theorem packable_iff {w : Nat} {v : Int} : packable w v = true ↔
    -(2 : Int) ^ w ≤ v ∧ v ≤ (2 : Int) ^ w - 1 := by
  simp [packable]

theorem all_packable_iff {w : Nat} {vs : List DoubleWord} :
    (vs.map BitVec.toInt).all (packable w) = true ↔
      ∀ v ∈ vs, -(2 : Int) ^ w ≤ v.toInt ∧ v.toInt ≤ (2 : Int) ^ w - 1 := by
  simp [packable_iff]

/-- R74: a value outside the range faults at every legal width. -/
theorem exec_pack_range {w : Byte} {vs : List DoubleWord} {s : State} (hf : s.faulted = false)
    (ho : s.operand = .values vs) (hw : legalWidth w = true)
    (hv : (vs.map BitVec.toInt).all (packable w.toNat) = false) :
    exec (.pack w) s = .next (s.faultEntry .packRange) := by
  simp only [exec, execPack, ho]
  exact command_error hf false (by simp only [hw, hv]; rfl)

theorem exec_pack_ok {w : Byte} {vs : List DoubleWord} {s : State} (hf : s.faulted = false)
    (ho : s.operand = .values vs) (hw : legalWidth w = true)
    (hv : (vs.map BitVec.toInt).all (packable w.toNat) = true) :
    exec (.pack w) s = .next (s.complete (.out (pack w.toNat (vs.map BitVec.toInt)))) := by
  simp only [exec, execPack, ho]
  exact command_ok hf false (by simp only [hw, hv]; rfl)

/-- Settles O24: the checks in their order, and the packer's bytes are the packed stream. -/
theorem packCompletes : Obligations.PackCompletes := by
  intro w vs s hf ho
  have hk : Safety.kindOk (.pack w) s.operand = true := by rw [ho]; rfl
  refine ⟨toNat_encode (.pack w), fun hw => ?_, fun hlo hhi hv => ?_, fun hlo hhi hv => ?_⟩
  · exact (exec_argumentChecked (.pack w) s).illegal hf hk
      (Bool.eq_false_iff.mpr (mt legalWidth_iff.mp hw))
  · refine exec_pack_range hf ho (legalWidth_iff.mpr ⟨hlo, hhi⟩) (Bool.eq_false_iff.mpr fun hall => ?_)
    obtain ⟨v, hmem, hout⟩ := hv
    have := all_packable_iff.mp hall v hmem
    omega
  · rw [exec_pack_ok hf ho (legalWidth_iff.mpr ⟨hlo, hhi⟩) (all_packable_iff.mpr hv),
      pack_eq_packedStream hlo hhi, List.map_map]
    rfl

/-! ## UNPACK (R72, R73, R75) -/

theorem exec_unpack_error {w : Byte} {n : Word} {input : List Byte} {s : State} {e : FaultCode}
    (hf : s.faulted = false) (ho : s.operand = .countBytes n input) (hw : legalWidth w = true)
    (hu : unpack input w.toNat n.toNat = .error e) : exec (.unpack w) s = .next (s.faultEntry e) := by
  simp only [exec, execUnpack, ho]
  exact command_error hf false (by simp only [hw, hu]; rfl)

theorem exec_unpack_ok {w : Byte} {n : Word} {input : List Byte} {s : State} {vs : List Int} {pos : Nat}
    (hf : s.faulted = false) (ho : s.operand = .countBytes n input) (hw : legalWidth w = true)
    (hu : unpack input w.toNat n.toNat = .ok (vs, pos)) :
    exec (.unpack w) s = .next (s.complete (.values vs pos)) := by
  simp only [exec, execUnpack, ho]
  exact command_ok hf false (by simp only [hw, hu]; rfl)

/-- Settles O25: the checks in their order, and the unpacker answers the sign-extended fields of the input. -/
theorem unpackCompletes : Obligations.UnpackCompletes := by
  intro w n input s hf ho
  have hk : Safety.kindOk (.unpack w) s.operand = true := by rw [ho]; rfl
  refine ⟨toNat_encode (.unpack w), fun hw => ?_, fun hlo hhi hlen => ?_, fun hlo hhi hlen => ?_⟩
  · exact (exec_argumentChecked (.unpack w) s).illegal hf hk
      (Bool.eq_false_iff.mpr (mt legalWidth_iff.mp hw))
  · exact exec_unpack_error hf ho (legalWidth_iff.mpr ⟨hlo, hhi⟩) (unpack_truncated hlen)
  · exact exec_unpack_ok hf ho (legalWidth_iff.mpr ⟨hlo, hhi⟩) (unpack_eq hlo hhi hlen)

/-- R72: field `i` of an input is read from its bits `i*w .. i*w+w`. -/
theorem inputField_congr {a b : List Byte} {w i : Nat}
    (h : ∀ k, k < w → inputBit a (i * w + k) = inputBit b (i * w + k)) : inputField a w i = inputField b w i := by
  refine congrArg List.sum (List.map_congr_left fun k hk => ?_)
  rw [h k (List.mem_range.mp hk)]

/-- Settles O28: whether the input is too short depends on its length, and the `n` fields are read from its first
`n*w` bits. -/
theorem paddingBitsIgnored : Obligations.PaddingBitsIgnored := by
  intro w n a b hlo hhi hlen hbits
  by_cases hshort : a.length < ceilDiv (n * w) 8
  · rw [unpack_truncated hshort, unpack_truncated (hlen ▸ hshort)]
  · have hfield : ∀ i, i < n → inputField a w i = inputField b w i := fun i hi =>
      inputField_congr fun k hk => hbits _ <| calc
        i * w + k < (i + 1) * w := by rw [Nat.succ_mul]; omega
        _ ≤ n * w := Nat.mul_le_mul_right w hi
    rw [unpack_eq hlo hhi (not_lt.mp hshort), unpack_eq hlo hhi (hlen ▸ not_lt.mp hshort)]
    have hvalues := List.map_congr_left fun i hi => congrArg (sextBits w) (hfield i (List.mem_range.mp hi))
    rw [hvalues]

end Sys2Proof.Machine

/-!
SUPPORT. The statements of the family spec/41_tagged_fields.md: the field and section commands FIELD_ENC (R88),
FIELD_DEC (R89), SECTION_ENC (R90) and SECTION_DEC (R91), each with its faults in order and what it answers.
-/

namespace Sys2Proof.Machine

/-! ## FIELD_ENC (R86, R88) -/

theorem encodeField_typeMismatch {code : Byte} {v : FieldValue} (ht : v.rawType ≠ typeOf code) :
    encodeField code v = .error .typeMismatch := if_pos ht

theorem encodeField_fieldTooLong {code : Byte} {v : FieldValue} (ht : v.rawType = typeOf code)
    (hlen : 255 < v.bytes.length) : encodeField code v = .error .fieldTooLong :=
  (if_neg (not_not_intro ht)).trans (if_pos hlen)

theorem encodeField_fieldFormat {code : Byte} {v : FieldValue} (ht : v.rawType = typeOf code)
    (hlen : v.bytes.length ≤ 255) : encodeField code v = .ok (fieldFormat code v.bytes) :=
  encodeField_eq_ok.mpr ⟨ht, hlen, rfl⟩

theorem exec_fieldEnc_error {code : Byte} {v : FieldValue} {s : State} {e : FaultCode} (hf : s.faulted = false)
    (ho : s.operand = .value v) (hv : encodeField code v = .error e) :
    exec (.fieldEnc code) s = .next (s.faultEntry e) := by
  simp only [exec, execFieldEnc, ho]
  exact command_error hf false (by simp only [hv]; rfl)

theorem exec_fieldEnc_ok {code : Byte} {v : FieldValue} {s : State} {bytes : List Byte} (hf : s.faulted = false)
    (ho : s.operand = .value v) (hv : encodeField code v = .ok bytes) :
    exec (.fieldEnc code) s = .next (s.complete (.out bytes)) := by
  simp only [exec, execFieldEnc, ho]
  exact command_ok hf false (by simp only [hv]; rfl)

/-- Settles O30: the command's checks and its output are those of `encodeField`. -/
theorem fieldEncCompletes : Obligations.FieldEncCompletes := fun code _ _ hf ho =>
  ⟨toNat_encode (.fieldEnc code),
    fun ht => exec_fieldEnc_error hf ho (encodeField_typeMismatch ht),
    fun ht hlen => exec_fieldEnc_error hf ho (encodeField_fieldTooLong ht hlen),
    fun ht hlen => exec_fieldEnc_ok hf ho (encodeField_fieldFormat ht hlen)⟩

/-! ## FIELD_DEC (R84, R85, R87, R89) -/

/-- R15: a read of the value bytes of a field at the front of the input. -/
theorem memRead_value_ok {len code : Byte} {rest : List Byte} {n : Nat} (h : n ≤ rest.length) :
    memRead (len :: code :: rest) 2 n = .ok (rest.take n) :=
  if_pos (by simp only [List.length_cons]; omega)

theorem memRead_value_truncated {len code : Byte} {rest : List Byte} {n : Nat} (h : rest.length < n) :
    memRead (len :: code :: rest) 2 n = .error .truncated :=
  if_neg (by simp only [List.length_cons]; omega)

theorem decodeTimestamp_error {ps : Params} {input : List Byte} {p : Nat} {code : Byte} {e : FaultCode}
    (hr : memRead input (p + 2) 8 = .error e) : decodeTimestamp ps input p code = .error e := by
  rw [decodeTimestamp, hr]; rfl

theorem decodePlain_error_of_memRead {ps : Params} {input : List Byte} {p len : Nat} {code : Byte} {e : FaultCode}
    (hr : memRead input (p + 2) len = .error e) : decodePlain ps input p len code = .error e := by
  rw [decodePlain, hr]; rfl

theorem decodePlain_error_of_checkValue {ps : Params} {input vb : List Byte} {p len : Nat} {code : Byte}
    {e : FaultCode} (hr : memRead input (p + 2) len = .ok vb) (hc : checkValue ps (typeOf code) len vb = some e) :
    decodePlain ps input p len code = .error e := by
  simp only [decodePlain, hr, bind, Except.bind, hc]
  rfl

theorem checkValue_fieldLength {ps : Params} {t : RawType} {len : Nat} {vb : List Byte}
    (h : ∃ n, t.size? = some n ∧ n ≠ len) : checkValue ps t len vb = some .fieldLength := by
  obtain ⟨n, hn, hne⟩ := h
  simp [checkValue, hn, hne]

theorem checkValue_string {ps : Params} {len : Nat} {vb : List Byte} (hs : ps.stringCheck = .utf8)
    (hw : wellFormedUtf8 vb = false) : checkValue ps .str len vb = some .string := by
  simp [checkValue, RawType.size?, hs, hw]

theorem checkValue_eq_none {ps : Params} {t : RawType} {len : Nat} {vb : List Byte}
    (hlen : ∀ n, t.size? = some n → n = len)
    (hs : t = .str → ps.stringCheck = .utf8 → wellFormedUtf8 vb = true) : checkValue ps t len vb = none := by
  have hany : t.size?.any (fun n => n != len) = false := by
    cases ht : t.size? with
    | none => rfl
    | some n => simp [hlen n ht]
  have hstr : ¬ (t = .str ∧ ps.stringCheck = .utf8 ∧ wellFormedUtf8 vb = false) := by
    rintro ⟨ht, hu, hw⟩
    simp [hs ht hu] at hw
  simp only [checkValue, hany, if_neg hstr, Bool.false_eq_true, if_false]

/-- R89: truncation of the two header bytes is found first. -/
theorem decodeField_header_truncated {ps : Params} {input : List Byte} (h : input.length < 2) :
    decodeField ps input 0 = .error .truncated := by
  match input, h with
  | [], _ => rfl
  | [_], _ => rfl

theorem decodeField_timestamp {ps : Params} {len code : Byte} {rest : List Byte} (ht : typeOf code = .ts) :
    decodeField ps (len :: code :: rest) 0 = decodeTimestamp ps (len :: code :: rest) 0 code := if_pos ht

theorem decodeField_plain {ps : Params} {len code : Byte} {rest : List Byte} (ht : typeOf code ≠ .ts) :
    decodeField ps (len :: code :: rest) 0 = decodePlain ps (len :: code :: rest) 0 len.toNat code := if_neg ht

theorem exec_fieldDec_error {input : List Byte} {s : State} {e : FaultCode} (hf : s.faulted = false)
    (ho : s.operand = .bytes input) (hd : decodeField s.params input 0 = .error e) :
    exec (.fieldDec 0#8) s = .next (s.faultEntry e) := by
  simp only [exec, execFieldDec, ho]
  exact command_error hf false (by simp only [hd]; rfl)

theorem exec_fieldDec_ok {input : List Byte} {s : State} {r : FieldRead} (hf : s.faulted = false)
    (ho : s.operand = .bytes input) (hd : decodeField s.params input 0 = .ok r) :
    exec (.fieldDec 0#8) s = .next ((s.noteOverflow r.overflow).complete (.field r.field r.next)) := by
  simp only [exec, execFieldDec, ho]
  exact command_ok hf false (by simp only [hd]; rfl)

/-- R87: a timestamp whose 8 bytes are there. -/
theorem exec_fieldDec_timestamp {len code : Byte} {rest : List Byte} {s : State} (hf : s.faulted = false)
    (ho : s.operand = .bytes (len :: code :: rest)) (ht : typeOf code = .ts) (hlen : 8 ≤ rest.length) :
    exec (.fieldDec 0#8) s = .next (if s.params.tsMaxUs < fromLe (rest.take 8)
      then (s.noteOverflow true).complete (.field ⟨code, .ts, .ts 0#64⟩ 10)
      else s.complete (.field ⟨code, .ts, valueOf .ts (rest.take 8)⟩ 10)) := by
  rw [exec_fieldDec_ok hf ho ((decodeField_timestamp ht).trans
    (decodeTimestamp_eq_ok.mpr ⟨_, memRead_value_ok hlen, rfl⟩))]
  split <;> rfl

/-- R87: any other field whose value bytes are there and pass the checks. -/
theorem exec_fieldDec_plain_ok {len code : Byte} {rest : List Byte} {s : State} (hf : s.faulted = false)
    (ho : s.operand = .bytes (len :: code :: rest)) (ht : typeOf code ≠ .ts) (hlen : len.toNat ≤ rest.length)
    (hc : checkValue s.params (typeOf code) len.toNat (rest.take len.toNat) = none) :
    exec (.fieldDec 0#8) s = .next (s.complete
      (.field ⟨code, typeOf code, valueOf (typeOf code) (rest.take len.toNat)⟩ (2 + len.toNat))) := by
  have hd := (decodeField_plain ht).trans (decodePlain_eq_ok.mpr ⟨_, memRead_value_ok hlen, hc, rfl⟩)
  rw [exec_fieldDec_ok hf ho hd, State.noteOverflow_false, Nat.zero_add]

theorem exec_fieldDec_plain_fault {len code : Byte} {rest : List Byte} {s : State} {e : FaultCode}
    (hf : s.faulted = false) (ho : s.operand = .bytes (len :: code :: rest)) (ht : typeOf code ≠ .ts)
    (hlen : len.toNat ≤ rest.length)
    (hc : checkValue s.params (typeOf code) len.toNat (rest.take len.toNat) = some e) :
    exec (.fieldDec 0#8) s = .next (s.faultEntry e) :=
  exec_fieldDec_error hf ho
    ((decodeField_plain ht).trans (decodePlain_error_of_checkValue (memRead_value_ok hlen) hc))

/-- Settles O31: the header bytes, then the value bytes, then the checks on them, in the timestamp branch and in
the branch of the other fields. -/
theorem fieldDecCompletes : Obligations.FieldDecCompletes := by
  refine ⟨rfl, fun input s hf ho hshort => exec_fieldDec_error hf ho (decodeField_header_truncated hshort),
    fun len code rest s hf ho => ⟨fun ht hlen => ?_, fun ht hlen hle => ?_, fun ht hlen hgt => ?_,
      fun ht hlen => ?_, fun ht hlen hsize => ?_, fun ht hlen hu hbad => ?_, fun ht hlen hsize hgood => ?_⟩⟩
  · exact exec_fieldDec_error hf ho
      ((decodeField_timestamp ht).trans (decodeTimestamp_error (memRead_value_truncated hlen)))
  · rw [exec_fieldDec_timestamp hf ho ht hlen, if_neg (not_lt.mpr hle)]
    rfl
  · rw [exec_fieldDec_timestamp hf ho ht hlen, if_pos hgt]
    rfl
  · exact exec_fieldDec_error hf ho
      ((decodeField_plain ht).trans (decodePlain_error_of_memRead (memRead_value_truncated hlen)))
  · exact exec_fieldDec_plain_fault hf ho ht hlen (checkValue_fieldLength hsize)
  · exact exec_fieldDec_plain_fault hf ho (by simp [ht]) hlen (ht ▸ checkValue_string hu hbad)
  · exact exec_fieldDec_plain_ok hf ho ht hlen (checkValue_eq_none hsize hgood)

/-! ## SECTION_ENC (R90) -/

/-- R90: fields that can be encoded put their bytes in front of what the fields after them give, and leave the
first fault to these. -/
theorem encodeFields_append_of_encodable {pre : List (Byte × FieldValue)} (hpre : ∀ f ∈ pre, Safety.encodable f)
    (post : List (Byte × FieldValue)) : encodeFields (pre ++ post) =
      (encodeFields post).map ((pre.map fun f => fieldFormat f.1 f.2.bytes).flatten ++ ·) := by
  induction pre with
  | nil => cases h : encodeFields post <;> simp [h, Except.map]
  | cons f fs ih =>
    obtain ⟨code, v⟩ := f
    obtain ⟨hf, hfs⟩ := List.forall_mem_cons.mp hpre
    obtain ⟨ht, hlen⟩ := hf
    rw [List.cons_append, encodeFields, encodeField_fieldFormat ht hlen, ih hfs]
    cases encodeFields post <;> simp [Except.map, bind, Except.bind, pure, Except.pure]

theorem encodeFields_ok {fs : List (Byte × FieldValue)} (h : ∀ f ∈ fs, Safety.encodable f) :
    encodeFields fs = .ok (fs.map fun f => fieldFormat f.1 f.2.bytes).flatten := by
  simpa [encodeFields, Except.map] using encodeFields_append_of_encodable h []

/-- R90: the fault of the first field that fails. -/
theorem encodeFields_first_error {pre post : List (Byte × FieldValue)} {code : Byte} {v : FieldValue}
    {e : FaultCode} (hpre : ∀ f ∈ pre, Safety.encodable f) (hv : encodeField code v = .error e) :
    encodeFields (pre ++ (code, v) :: post) = .error e := by
  rw [encodeFields_append_of_encodable hpre, encodeFields, hv]
  rfl

theorem encodeSection_fieldCount {tag : Byte} {fs : List (Byte × FieldValue)} (h : 255 < fs.length) :
    encodeSection tag fs = .error .fieldCount := if_pos h

theorem encodeSection_dupField {tag : Byte} {fs : List (Byte × FieldValue)} (hlen : fs.length ≤ 255)
    (hdup : ¬ (fs.map Prod.fst).Nodup) : encodeSection tag fs = .error .dupField := by
  rw [← hasDuplicate_eq_false, Bool.not_eq_false] at hdup
  exact (if_neg (not_lt.mpr hlen)).trans (if_pos hdup)

/-- R90: past the checks of the count and the codes, a section is its two header bytes and its fields. -/
theorem encodeSection_of_nodup {tag : Byte} {fs : List (Byte × FieldValue)} (hlen : fs.length ≤ 255)
    (hnodup : (fs.map Prod.fst).Nodup) :
    encodeSection tag fs = (encodeFields fs).map (tag :: BitVec.ofNat 8 fs.length :: ·) := by
  rw [← hasDuplicate_eq_false] at hnodup
  rw [encodeSection, if_neg (not_lt.mpr hlen), hnodup]
  cases encodeFields fs <;> rfl

theorem exec_sectionEnc_error {tag : Byte} {fs : List (Byte × FieldValue)} {s : State} {e : FaultCode}
    (hf : s.faulted = false) (ho : s.operand = .fields fs) (htag : legalTag tag = true)
    (hs : encodeSection tag fs = .error e) : exec (.sectionEnc tag) s = .next (s.faultEntry e) := by
  simp only [exec, execSectionEnc, ho]
  exact command_error hf false (by simp only [htag, hs]; rfl)

theorem exec_sectionEnc_ok {tag : Byte} {fs : List (Byte × FieldValue)} {s : State} {bytes : List Byte}
    (hf : s.faulted = false) (ho : s.operand = .fields fs) (htag : legalTag tag = true)
    (hs : encodeSection tag fs = .ok bytes) : exec (.sectionEnc tag) s = .next (s.complete (.out bytes)) := by
  simp only [exec, execSectionEnc, ho]
  exact command_ok hf false (by simp only [htag, hs]; rfl)

theorem legalTag_eq_false {tag : Byte} (hh : tag ≠ 0x48#8) (hfr : tag ≠ 0x46#8) : legalTag tag = false :=
  Bool.eq_false_iff.mpr (mt legalTag_iff.mp (not_or.mpr ⟨hh, hfr⟩))

/-- Settles O32: the checks in their order, the first failing field decides, and the section is the concatenation
of the encoded fields behind its two header bytes. -/
theorem sectionEncCompletes : Obligations.SectionEncCompletes := by
  intro tag fs s hf ho
  have hk : Safety.kindOk (.sectionEnc tag) s.operand = true := by rw [ho]; rfl
  refine ⟨toNat_encode (.sectionEnc tag), fun hh hfr => ?_, fun ht hlen => ?_, fun ht hlen hdup => ?_,
    fun ht hlen hnodup pre post code v hsplit hpre => ?_, fun ht hlen hnodup hall => ?_⟩
  · exact (exec_argumentChecked (.sectionEnc tag) s).illegal hf hk (legalTag_eq_false hh hfr)
  · exact exec_sectionEnc_error hf ho (legalTag_iff.mpr ht) (encodeSection_fieldCount hlen)
  · exact exec_sectionEnc_error hf ho (legalTag_iff.mpr ht) (encodeSection_dupField hlen hdup)
  · have hfault : ∀ e, encodeField code v = .error e → exec (.sectionEnc tag) s = .next (s.faultEntry e) :=
      fun e hv => exec_sectionEnc_error hf ho (legalTag_iff.mpr ht) (by
        rw [encodeSection_of_nodup hlen hnodup, hsplit, encodeFields_first_error hpre hv]
        rfl)
    exact ⟨fun hty => hfault _ (encodeField_typeMismatch hty),
      fun hty hlong => hfault _ (encodeField_fieldTooLong hty hlong)⟩
  · have hs : encodeSection tag fs = .ok (sectionFormat tag (fs.map fun f => fieldFormat f.1 f.2.bytes)) := by
      rw [encodeSection_of_nodup hlen hnodup, encodeFields_ok hall, sectionFormat, List.length_map]
      rfl
    exact exec_sectionEnc_ok hf ho (legalTag_iff.mpr ht) hs

/-! ## Fields at an offset of the input (R43, R87) -/

theorem memRead_append_left (pre input : List Byte) (p n : Nat) :
    memRead (pre ++ input) (pre.length + p) n = memRead input p n := by
  simp only [memRead_eq, List.length_append, List.drop_length_add_append, Nat.add_assoc, Nat.add_le_add_iff_left]

theorem memReadByte_append_left (pre input : List Byte) (p : Nat) :
    memReadByte (pre ++ input) (pre.length + p) = memReadByte input p := by
  rw [memReadByte, List.getElem?_append_right (Nat.le_add_right _ _), Nat.add_sub_cancel_left]
  rfl

theorem getElem?_append_eq_some {input : List Byte} {p : Nat} {b : Byte} (rest : List Byte)
    (h : input[p]? = some b) : (input ++ rest)[p]? = some b := by
  rw [List.getElem?_append_left (List.getElem?_eq_some_iff.mp h).1, h]

/-- What is read of a field that begins `k` bytes later. -/
def FieldRead.shift (k : Nat) (r : FieldRead) : FieldRead := { r with next := k + r.next }

theorem decodeTimestamp_append_left (ps : Params) (pre input : List Byte) (p : Nat) (code : Byte) :
    decodeTimestamp ps (pre ++ input) (pre.length + p) code =
      (decodeTimestamp ps input p code).map (FieldRead.shift pre.length) := by
  rw [decodeTimestamp, decodeTimestamp, Nat.add_assoc, memRead_append_left]
  cases memRead input (p + 2) 8 with
  | error e => rfl
  | ok vb =>
    simp only [bind, Except.bind]
    split <;> simp [FieldRead.shift, Except.map, pure, Except.pure, Nat.add_assoc]

theorem decodePlain_append_left (ps : Params) (pre input : List Byte) (p len : Nat) (code : Byte) :
    decodePlain ps (pre ++ input) (pre.length + p) len code =
      (decodePlain ps input p len code).map (FieldRead.shift pre.length) := by
  rw [decodePlain, decodePlain, Nat.add_assoc, memRead_append_left]
  cases memRead input (p + 2) len with
  | error e => rfl
  | ok vb =>
    simp only [bind, Except.bind]
    split <;> simp [FieldRead.shift, Except.map, pure, Except.pure, Nat.add_assoc, throw, throwThe,
      MonadExceptOf.throw]

/-- R87: a field is read alike wherever it begins. -/
theorem decodeField_append_left (ps : Params) (pre input : List Byte) (p : Nat) :
    decodeField ps (pre ++ input) (pre.length + p) =
      (decodeField ps input p).map (FieldRead.shift pre.length) := by
  rw [decodeField, decodeField, Nat.add_assoc, memReadByte_append_left, memReadByte_append_left]
  cases memReadByte input p with
  | error e => rfl
  | ok len =>
    cases memReadByte input (p + 1) with
    | error e => rfl
    | ok code =>
      simp only [bind, Except.bind]
      split
      · exact decodeTimestamp_append_left ps pre input p code
      · exact decodePlain_append_left ps pre input p len.toNat code

/-- R43: a field that decodes is read without the bytes after it. -/
theorem decodeField_append {ps : Params} {input : List Byte} {p : Nat} {r : FieldRead} (rest : List Byte)
    (h : decodeField ps input p = .ok r) : decodeField ps (input ++ rest) p = .ok r := by
  obtain ⟨len, code, hlen, hcode, hr⟩ := decodeField_eq_ok.mp h
  refine decodeField_eq_ok.mpr ⟨len, code, getElem?_append_eq_some rest hlen, getElem?_append_eq_some rest hcode, ?_⟩
  split at hr
  · obtain ⟨vb, hvb, hres⟩ := decodeTimestamp_eq_ok.mp hr
    rw [if_pos ‹_›]
    exact decodeTimestamp_eq_ok.mpr ⟨vb, memRead_append rest hvb, hres⟩
  · obtain ⟨vb, hvb, hres⟩ := decodePlain_eq_ok.mp hr
    rw [if_neg ‹_›]
    exact decodePlain_eq_ok.mpr ⟨vb, memRead_append rest hvb, hres⟩

/-- R87: the bytes of one field, read behind `pre` and before `rest`. -/
theorem decodeField_piece {ps : Params} {piece : List Byte × FieldRead} (h : Safety.decodesAs ps piece)
    (pre rest : List Byte) : decodeField ps (pre ++ (piece.1 ++ rest)) pre.length =
      .ok ⟨piece.2.field, (pre ++ piece.1).length, piece.2.overflow⟩ := by
  obtain ⟨hdec, hnext⟩ := h
  have hshift := decodeField_append_left ps pre (piece.1 ++ rest) 0
  rw [Nat.add_zero, decodeField_append rest hdec] at hshift
  rw [hshift, List.length_append, ← hnext]
  rfl

/-! ## SECTION_DEC (R91) -/

/-- What is read of a run of fields that the given pieces come before. -/
def FieldsRead.after (pieces : List (List Byte × FieldRead)) (r : FieldsRead) : FieldsRead :=
  ⟨(pieces.map fun p => p.2.field) ++ r.fields, r.next, pieces.any (fun p => p.2.overflow) || r.overflow⟩

/-- R91: fields that decode, read before `n` more. -/
theorem decodeFields_pieces {ps : Params} {pieces : List (List Byte × FieldRead)}
    (hp : ∀ p ∈ pieces, Safety.decodesAs ps p) (pre rest : List Byte) (n : Nat) :
    decodeFields ps (pre ++ ((pieces.map Prod.fst).flatten ++ rest)) (pieces.length + n) pre.length =
      (decodeFields ps (pre ++ ((pieces.map Prod.fst).flatten ++ rest)) n
        (pre.length + (pieces.map Prod.fst).flatten.length)).map (FieldsRead.after pieces) := by
  induction pieces generalizing pre with
  | nil =>
    simp only [List.map_nil, List.flatten_nil, List.nil_append, List.length_nil, Nat.zero_add, Nat.add_zero]
    cases decodeFields ps (pre ++ rest) n pre.length <;> rfl
  | cons p pieces ih =>
    obtain ⟨hhead, htail⟩ := List.forall_mem_cons.mp hp
    have hrest := ih htail (pre ++ p.1)
    simp only [List.append_assoc, List.length_append, Nat.add_assoc] at hrest
    have hcount : (p :: pieces).length + n = (pieces.length + n) + 1 := by rw [List.length_cons]; omega
    simp only [List.map_cons, List.flatten_cons, List.append_assoc]
    rw [hcount, decodeFields, decodeField_piece hhead]
    simp only [bind, Except.bind, List.length_append, hrest]
    cases decodeFields ps _ n _ <;>
      simp [FieldsRead.after, Except.map, pure, Except.pure, Bool.or_assoc]

/-- R91: as many fields as there are pieces. -/
theorem decodeFields_pieces_ok {ps : Params} {pieces : List (List Byte × FieldRead)}
    (hp : ∀ p ∈ pieces, Safety.decodesAs ps p) (pre rest : List Byte) :
    decodeFields ps (pre ++ ((pieces.map Prod.fst).flatten ++ rest)) pieces.length pre.length =
      .ok ⟨pieces.map fun p => p.2.field, pre.length + (pieces.map Prod.fst).flatten.length,
        pieces.any fun p => p.2.overflow⟩ := by
  have hall := decodeFields_pieces hp pre rest 0
  rw [Nat.add_zero] at hall
  rw [hall]
  simp [decodeFields, FieldsRead.after, Except.map]

/-- R91: the fault of the first field that has one. -/
theorem decodeFields_pieces_error {ps : Params} {pieces : List (List Byte × FieldRead)} {rest : List Byte} {n : Nat}
    {e : FaultCode} (hp : ∀ p ∈ pieces, Safety.decodesAs ps p) (hn : pieces.length < n)
    (he : decodeField ps rest 0 = .error e) (pre : List Byte) :
    decodeFields ps (pre ++ ((pieces.map Prod.fst).flatten ++ rest)) n pre.length = .error e := by
  obtain ⟨m, rfl⟩ : ∃ m, n = pieces.length + (m + 1) := Nat.exists_eq_add_of_lt hn
  have hfirst := decodeField_append_left ps (pre ++ (pieces.map Prod.fst).flatten) rest 0
  rw [he, List.append_assoc, List.length_append, Nat.add_zero] at hfirst
  rw [decodeFields_pieces hp, decodeFields, hfirst]
  rfl

theorem exec_sectionDec_error {tag cnt : Byte} {body : List Byte} {s : State} {e : FaultCode}
    (hf : s.faulted = false) (ho : s.operand = .bytes (tag :: cnt :: body)) (htag : legalTag tag = true)
    (hd : decodeFields s.params (tag :: cnt :: body) cnt.toNat 2 = .error e) :
    exec (.sectionDec tag) s = .next (s.faultEntry e) := by
  simp only [exec, execSectionDec, ho]
  exact command_error hf false (by simp [htag, memReadByte, hd, bind, Except.bind])

theorem exec_sectionDec_ok {tag cnt : Byte} {body : List Byte} {s : State} {r : FieldsRead}
    (hf : s.faulted = false) (ho : s.operand = .bytes (tag :: cnt :: body)) (htag : legalTag tag = true)
    (hd : decodeFields s.params (tag :: cnt :: body) cnt.toNat 2 = .ok r) :
    exec (.sectionDec tag) s = .next ((s.noteOverflow r.overflow).complete (.fields tag r.fields r.next)) := by
  simp only [exec, execSectionDec, ho]
  exact command_ok hf false (by simp [htag, memReadByte, hd, bind, Except.bind, pure, Except.pure])

/-- R91: END, before any byte is read. -/
theorem exec_sectionDec_end {tag : Byte} {s : State} (hf : s.faulted = false) (ho : s.operand = .bytes [])
    (htag : legalTag tag = true) : exec (.sectionDec tag) s = .next s.endOfStream := by
  simp only [exec, execSectionDec, ho]
  exact command_ok hf false (by simp only [htag]; rfl)

theorem exec_sectionDec_sectionType {tag b : Byte} {rest : List Byte} {s : State} (hf : s.faulted = false)
    (ho : s.operand = .bytes (b :: rest)) (htag : legalTag tag = true) (hb : b ≠ tag) :
    exec (.sectionDec tag) s = .next (s.faultEntry .sectionType) := by
  simp only [exec, execSectionDec, ho]
  exact command_error hf false (by simp [htag, hb])

/-- R91: the count byte is beyond the end of an input of the tag alone. -/
theorem exec_sectionDec_tagAlone {tag : Byte} {s : State} (hf : s.faulted = false) (ho : s.operand = .bytes [tag])
    (htag : legalTag tag = true) : exec (.sectionDec tag) s = .next (s.faultEntry .truncated) := by
  simp only [exec, execSectionDec, ho]
  exact command_error hf false (by simp [htag, memReadByte, bind, Except.bind])

theorem State.complete_noteOverflow (s : State) (ovf : Bool) (o : Outputs) : (s.noteOverflow ovf).complete o =
    { s with status := if ovf then s.status ||| 0x00000002#32 else s.status, result := some (.ok o) } := by
  cases ovf <;> rfl

/-- Settles O33: the checks on the tag and the count, then the fields one after the other, each read at its own
offset as it is read alone. -/
theorem sectionDecCompletes : Obligations.SectionDecCompletes := by
  refine ⟨fun tag input s hf ho => ⟨toNat_encode (.sectionDec tag), fun hh hfr => ?_, fun ht hin => ?_,
    fun ht b rest hin hb => ?_, fun ht hin => ?_⟩,
    fun tag cnt pieces rest s hf ht ho hp => ⟨fun hcnt => ?_, fun hcnt e he => ?_⟩⟩
  · have hk : Safety.kindOk (.sectionDec tag) s.operand = true := by rw [ho]; rfl
    exact (exec_argumentChecked (.sectionDec tag) s).illegal hf hk (legalTag_eq_false hh hfr)
  · exact exec_sectionDec_end hf (hin ▸ ho) (legalTag_iff.mpr ht)
  · exact exec_sectionDec_sectionType hf (hin ▸ ho) (legalTag_iff.mpr ht) hb
  · exact exec_sectionDec_tagAlone hf (hin ▸ ho) (legalTag_iff.mpr ht)
  · have hd := decodeFields_pieces_ok hp [tag, cnt] rest
    rw [← hcnt] at hd
    exact (exec_sectionDec_ok hf ho (legalTag_iff.mpr ht) hd).trans
      (congrArg _ (State.complete_noteOverflow _ _ _))
  · exact exec_sectionDec_error hf ho (legalTag_iff.mpr ht) (decodeFields_pieces_error hp hcnt he [tag, cnt])

end Sys2Proof.Machine

/-!
SUPPORT. The statements of the family spec/42_frame_compress.md: the deltas of a frame (R96, R97), their bit width
(R98), and the commands COMPRESS (R102) and CLR_ENC (R103).
-/

namespace Sys2Proof.Machine

/-! ## Deltas and bit width (R96 to R98) -/

@[simp] theorem adjacentDeltas_length (d : List Int) : (adjacentDeltas d).length = d.length - 1 := by
  induction d using adjacentDeltas.induct with
  | case1 => rfl
  | case2 a => rfl
  | case3 a b ds ih => rw [adjacentDeltas, List.length_cons, ih]; rfl

/-- R96: the delta at snake index `k`. -/
theorem snakeDeltas_getD {cols n k : Nat} (cur : List Pixel) (prev : FrameBuffer) (hk : k < n) :
    (snakeDeltas cols n cur prev).getD k 0 =
      ((cur.getD (snakePos cols k) 0#16).toNat : Int) - (FrameBuffer.load prev (snakePos cols k)).toNat := by
  simp [snakeDeltas, snakeOrder, List.getD_eq_getElem?_getD, hk]

/-- R96: the deltas of a frame are the sequence with its element at each snake index. -/
theorem eq_snakeDeltas {cols n : Nat} {cur : List Pixel} {prev : FrameBuffer} {d : List Int} (hlen : d.length = n)
    (hd : ∀ k, k < n → d.getD k 0 =
      ((cur.getD (snakePos cols k) 0#16).toNat : Int) - (FrameBuffer.load prev (snakePos cols k)).toNat) :
    d = snakeDeltas cols n cur prev := by
  refine List.ext_getElem (by rw [hlen, snakeDeltas_length]) fun k hk hk' => ?_
  rw [List.getElem_eq_getD 0, List.getElem_eq_getD 0, hd k (hlen ▸ hk), snakeDeltas_getD cur prev (hlen ▸ hk)]

/-- R96: a delta is the difference of two pixels. -/
theorem natAbs_le_of_mem_snakeDeltas {cols n : Nat} {cur : List Pixel} {prev : FrameBuffer} {a : Int}
    (h : a ∈ snakeDeltas cols n cur prev) : a.natAbs ≤ 65535 := by
  obtain ⟨j, -, rfl⟩ := List.mem_map.mp h
  have hcur := (cur.getD j 0#16).isLt
  have hprev := (FrameBuffer.load prev j).isLt
  omega

/-- R97: an adjacent delta is the difference of two deltas. -/
theorem natAbs_le_of_mem_adjacentDeltas {d : List Int} {m : Nat} (hd : ∀ a ∈ d, a.natAbs ≤ m) :
    ∀ a ∈ adjacentDeltas d, a.natAbs ≤ 2 * m := by
  induction d using adjacentDeltas.induct with
  | case1 => nofun
  | case2 a => nofun
  | case3 a b ds ih =>
    obtain ⟨ha, hrest⟩ := List.forall_mem_cons.mp hd
    refine List.forall_mem_cons.mpr ⟨?_, ih hrest⟩
    have hb := hrest b List.mem_cons_self
    omega

theorem maxMagnitude_le {adj : List Int} {m : Nat} (h : ∀ a ∈ adj, a.natAbs ≤ m) : maxMagnitude adj ≤ m := by
  induction adj with
  | nil => exact Nat.zero_le m
  | cons a as ih =>
    obtain ⟨ha, has⟩ := List.forall_mem_cons.mp h
    exact max_le ha (ih has)

theorem bitLength_le_of_lt_two_pow {m b : Nat} (h : m < 2 ^ b) : bitLength m ≤ b := by
  by_cases hm : m = 0
  · rw [hm, bitLength_zero]
    exact Nat.zero_le b
  · rw [bitLength_of_pos hm]
    exact (Nat.log2_lt hm).mpr h

theorem one_le_frameBitWidth (adj : List Int) : 1 ≤ frameBitWidth adj := Nat.le_add_left 1 _

/-- R98: the bit width of a frame: the largest magnitude is at most 131070, which is below `2^17`. -/
theorem frameBitWidth_snakeDeltas_le (cols n : Nat) (cur : List Pixel) (prev : FrameBuffer) :
    frameBitWidth (adjacentDeltas (snakeDeltas cols n cur prev)) ≤ 18 := by
  have hmax := maxMagnitude_le (natAbs_le_of_mem_adjacentDeltas fun _ h =>
    natAbs_le_of_mem_snakeDeltas (cols := cols) (n := n) (cur := cur) (prev := prev) h)
  have hlen : bitLength (maxMagnitude (adjacentDeltas (snakeDeltas cols n cur prev))) ≤ 17 :=
    bitLength_le_of_lt_two_pow (by omega)
  exact Nat.succ_le_succ hlen

/-! ## The payload (R60, R101) -/

@[simp] theorem packedStream_length (w : Nat) (us : List Nat) :
    (packedStream w us).length = ceilDiv (us.length * w) 8 := by
  simp [packedStream]

@[simp] theorem framePayload_length (w : Nat) (init : Int) (adj : List Int) :
    (framePayload w init adj).length = 4 + ceilDiv (adj.length * w) 8 := by
  simp [framePayload]

/-- R60, R101: the initial value and the packed deltas are the payload. -/
theorem initialBytes_append_pack {w : Nat} (hlo : 1 ≤ w) (hhi : w ≤ 32) (init : Int) (adj : List Int) :
    initialBytes init ++ pack w adj = framePayload w init adj := by
  rw [pack_eq_packedStream hlo hhi]
  rfl

/-- R102: the outputs of `COMPRESS` as R60 and R101 write them, where the width is one the packer takes. -/
theorem compressDeltas_eq {d : List Int} (hw : frameBitWidth (adjacentDeltas d) ≤ 32) :
    compressDeltas d = .compressed (frameBitWidth (adjacentDeltas d))
      (framePayload (frameBitWidth (adjacentDeltas d)) (d.getD 0 0) (adjacentDeltas d))
      (4 + ceilDiv ((d.length - 1) * frameBitWidth (adjacentDeltas d)) 8) := by
  have hhead : d.headD 0 = d.getD 0 0 := by cases d <;> rfl
  simp only [compressDeltas]
  rw [initialBytes_append_pack (one_le_frameBitWidth _) hw, framePayload_length, adjacentDeltas_length, hhead]

/-! ## COMPRESS (R102) -/

theorem zeroArg_eq_false {a : Byte} (h : a ≠ 0#8) : zeroArg a = false := Bool.eq_false_iff.mpr (mt zeroArg_iff.mp h)

theorem exec_compress_dimension {s : State} {px : List Pixel} (hf : s.faulted = false) (ho : s.operand = .pixels px)
    (hc : s.cfgOk = true) (hn : px.length ≠ s.pixelCount) :
    exec (.compress 0#8) s = .next (s.faultEntry .dimension) := by
  simp only [exec, execCompress, ho]
  exact command_error hf false (by simp [zeroArg, hc, hn])

theorem exec_compress_ok {s : State} {px : List Pixel} (hf : s.faulted = false) (ho : s.operand = .pixels px)
    (hc : s.cfgOk = true) (hn : px.length = s.pixelCount) :
    exec (.compress 0#8) s = .next ({ s with encPrev := FrameBuffer.storeFrame s.encPrev px }.complete
      (compressDeltas (snakeDeltas s.cols.toNat s.pixelCount px s.encPrev))) := by
  simp only [exec, execCompress, ho]
  exact command_ok hf false (by simp [zeroArg, hc, hn])

/-- Settles O46: the checks in their order; the deltas are those of the snake order, their width is one the packer
takes, and so the bytes are the payload. -/
theorem compressCompletes : Obligations.CompressCompletes := by
  refine ⟨rfl, fun a px s hf ho => ?_⟩
  have hk : Safety.kindOk (.compress a) s.operand = true := by rw [ho]; rfl
  refine ⟨fun ha => ?_, fun hc => exec_compress_unconfigured hf hc ho, exec_compress_dimension hf ho,
    fun hc hn d hlen hd => ⟨FrameBuffer.storeFrame s.encPrev px, fun j => ?_, ?_, ?_⟩⟩
  · exact (exec_argumentChecked (.compress a) s).illegal hf hk (zeroArg_eq_false ha)
  · rw [FrameBuffer.load_storeFrame, hn]
  · have hdeltas : d = snakeDeltas s.cols.toNat s.pixelCount px s.encPrev := eq_snakeDeltas hlen hd
    have hw : frameBitWidth (adjacentDeltas d) ≤ 32 := by
      rw [hdeltas]
      exact (frameBitWidth_snakeDeltas_le ..).trans (by decide)
    rw [exec_compress_ok hf ho hc hn, ← hdeltas, compressDeltas_eq hw, hlen]
    rfl
  · rw [framePayload_length, adjacentDeltas_length, hlen]

/-! ## CLR_ENC (R103) -/

theorem exec_clrEnc_ok {s : State} (hf : s.faulted = false) (ho : s.operand = .noOperand) :
    exec (.clrEnc 0#8) s = .next ({ s with encPrev := [] }.complete .nothing) := by
  simp only [exec, execClrEnc, ho]
  exact command_ok hf false rfl

/-- Settles O48: the check of ARG, then the buffer of no entries, which holds 0 everywhere. -/
theorem clrEncCompletes : Obligations.ClrEncCompletes := by
  refine ⟨rfl, fun a s hf ho => ⟨fun ha => ?_, [], FrameBuffer.load_nil, exec_clrEnc_ok hf ho⟩⟩
  have hk : Safety.kindOk (.clrEnc a) s.operand = true := by rw [ho]; rfl
  exact (exec_argumentChecked (.clrEnc a) s).illegal hf hk (zeroArg_eq_false ha)

end Sys2Proof.Machine

/-!
SUPPORT. The statements of the family spec/43_frame_reconstruct.md: the snake order as a map of positions (R94), the
running sum (R104), the pixels (R105), and the commands RECONSTRUCT (R106) and CLR_DEC (R107).
-/

namespace Sys2Proof.Machine

/-! ## The snake order (R94) -/

/-- R94: the column of a snake index: counted from the right in every second row. -/
theorem snakeColumn_lt {cols : Nat} (hc : 1 ≤ cols) (k : Nat) :
    (if k / cols % 2 = 0 then k % cols else cols - 1 - k % cols) < cols := by
  have hmod := Nat.mod_lt k hc
  split_ifs <;> omega

theorem snakePos_div {cols : Nat} (hc : 1 ≤ cols) (k : Nat) : snakePos cols k / cols = k / cols := by
  simp only [snakePos]
  rw [Nat.mul_comm, Nat.mul_add_div hc, Nat.div_eq_of_lt (snakeColumn_lt hc k), Nat.add_zero]

theorem snakePos_mod {cols : Nat} (hc : 1 ≤ cols) (k : Nat) :
    snakePos cols k % cols = if k / cols % 2 = 0 then k % cols else cols - 1 - k % cols := by
  simp only [snakePos]
  rw [Nat.mul_comm, Nat.mul_add_mod, Nat.mod_eq_of_lt (snakeColumn_lt hc k)]

/-- R94: turning every second row around twice gives every position back. -/
theorem snakePos_involutive {cols : Nat} (hc : 1 ≤ cols) : Function.Involutive (snakePos cols) := by
  intro k
  have hmod := Nat.mod_lt k hc
  have hk := Nat.div_add_mod' k cols
  rw [snakePos, snakePos_div hc, snakePos_mod hc]
  split_ifs <;> omega

/-- R94: a position lies in the row of its snake index. -/
theorem snakePos_lt {rows cols k : Nat} (hc : 1 ≤ cols) (hk : k < rows * cols) : snakePos cols k < rows * cols := by
  rw [← Nat.div_lt_iff_lt_mul hc] at hk ⊢
  rwa [snakePos_div hc]

theorem snakeOrder_nodup {cols : Nat} (hc : 1 ≤ cols) (n : Nat) : (snakeOrder cols n).Nodup :=
  List.nodup_range.map (snakePos_involutive hc).injective

/-! ## The running sum (R104) -/

/-- R104: the running sum at index `k` is the initial value plus the first `k` values. -/
theorem runningSums_eq (init : Int) (adj : List Int) :
    runningSums init adj = (List.range (adj.length + 1)).map fun k => init + (adj.take k).sum := by
  induction adj generalizing init with
  | nil => simp [runningSums]
  | cons a as ih =>
    rw [runningSums, ih, List.length_cons, List.range_succ_eq_map (n := as.length + 1)]
    simp [Function.comp_def, add_assoc]

/-- R106: the 4-byte initial value is signed. -/
theorem initialValue_eq (input : List Byte) : initialValue input = sextBits 32 (fromLe (input.take 4)) := by
  have hlt := fromLe_lt (input.take 4)
  have hpow := Nat.pow_le_pow_right (show 0 < 256 by decide) (List.length_take_le 4 input)
  rw [initialValue, sextBits, BitVec.toInt_eq_toNat_cond, BitVec.toNat_ofNat, Nat.mod_eq_of_lt (by omega)]
  split_ifs <;> omega

/-- R104: the running sums of an unpacked payload are the deltas it gives. -/
theorem runningSums_payload (input : List Byte) (w m : Nat) :
    runningSums (initialValue input) ((List.range m).map fun i => sextBits w (inputField (input.drop 4) w i)) =
      (List.range (m + 1)).map (payloadDelta input w) := by
  rw [runningSums_eq, List.length_map, List.length_range]
  refine List.map_congr_left fun k hk => ?_
  have hkm : min k m = k := Nat.min_eq_left (Nat.le_of_lt_succ (List.mem_range.mp hk))
  rw [← List.map_take, List.take_range, hkm, initialValue_eq]
  rfl

/-! ## The pixels (R105) -/

/-- R105: the sums of a frame, in snake order. -/
theorem pixelSums_range (cols n : Nat) (prev : FrameBuffer) (d : Nat → Int) :
    pixelSums (snakeOrder cols n) prev ((List.range n).map d) =
      (List.range n).map fun k => ((FrameBuffer.load prev (snakePos cols k)).toNat : Int) + d k := by
  rw [pixelSums, snakeOrder, List.zipWith_map, List.zipWith_self]

/-- R104, R105: the sums a payload gives for a frame of `n` pixels, written as a function of the snake index. -/
theorem pixelSums_payload {input : List Byte} {w cols n : Nat} {prev : FrameBuffer} {v : Nat → Int} (hn : 1 ≤ n)
    (hv : ∀ k, v k = (FrameBuffer.load prev (snakePos cols k)).toNat + payloadDelta input w k) :
    pixelSums (snakeOrder cols n) prev (runningSums (initialValue input)
      ((List.range (n - 1)).map fun i => sextBits w (inputField (input.drop 4) w i))) = (List.range n).map v := by
  rw [runningSums_payload, Nat.sub_add_cancel hn, pixelSums_range, funext hv]

theorem pixelAllowed_iff {ps : Params} {v : Int} :
    pixelAllowed ps v = true ↔ ps.reconOverflow = .wrap ∨ 0 ≤ v ∧ v ≤ 65535 := by
  simp [pixelAllowed, or_comm]

theorem toNat_pixelOf (v : Int) : ((pixelOf v).toNat : Int) = v % 65536 := by
  rw [pixelOf, BitVec.toNat_ofInt]
  omega

/-- An element no pair names keeps its value. -/
theorem scatter_getD_of_not_mem {xs : List (Nat × Pixel)} {j : Nat} (hj : j ∉ xs.map Prod.fst) (pix : List Pixel) :
    (scatter xs pix).getD j 0#16 = pix.getD j 0#16 := by
  induction xs generalizing pix with
  | nil => rfl
  | cons x xs ih =>
    obtain ⟨i, p⟩ := x
    obtain ⟨hi, hrest⟩ := not_or.mp (mt List.mem_cons.mpr hj)
    rw [scatter, ih hrest, List.getD_eq_getElem?_getD, List.getElem?_set_ne (Ne.symm hi),
      ← List.getD_eq_getElem?_getD]

/-- Where no index is named twice, a named element holds the pixel named with it. -/
theorem scatter_getD_of_mem {xs : List (Nat × Pixel)} (hnodup : (xs.map Prod.fst).Nodup) {j : Nat} {p : Pixel}
    (hmem : (j, p) ∈ xs) {pix : List Pixel} (hj : j < pix.length) : (scatter xs pix).getD j 0#16 = p := by
  induction xs generalizing pix with
  | nil => cases hmem
  | cons x xs ih =>
    obtain ⟨hx, hrest⟩ := List.nodup_cons.mp hnodup
    rcases List.mem_cons.mp hmem with rfl | hmem
    · rw [scatter, scatter_getD_of_not_mem hx]
      simp [List.getD_eq_getElem?_getD, hj]
    · exact ih hrest hmem (by rwa [List.length_set])

/-- R106: the frame of given sums in snake order. -/
def frameOfSums (cols n : Nat) (v : Nat → Int) : List Pixel :=
  scatter ((snakeOrder cols n).zip (((List.range n).map v).map pixelOf)) (List.replicate n 0#16)

@[simp] theorem frameOfSums_length (cols n : Nat) (v : Nat → Int) : (frameOfSums cols n v).length = n := by
  simp [frameOfSums]

/-- R106: the pixel at the position of each snake index is the one of its sum: no two indices share a position. -/
theorem frameOfSums_getD {rows cols k : Nat} (hc : 1 ≤ cols) (v : Nat → Int) (hk : k < rows * cols) :
    (frameOfSums cols (rows * cols) v).getD (snakePos cols k) 0#16 = pixelOf (v k) := by
  refine scatter_getD_of_mem ?_ ?_ (by simpa using snakePos_lt hc hk)
  · rw [List.map_fst_zip (by simp)]
    exact snakeOrder_nodup hc _
  · rw [snakeOrder, List.map_map, List.zip_map', List.mem_map]
    exact ⟨k, List.mem_range.mpr hk, rfl⟩

section Rebuild

variable {ps : Params} {cols n : Nat} {prev : FrameBuffer} {init : Int} {adj : List Int} {v : Nat → Int}
  (hsums : pixelSums (snakeOrder cols n) prev (runningSums init adj) = (List.range n).map v)

include hsums

/-- R106: rebuilding faults when some sum is not allowed. -/
theorem rebuild_pixelRange {k : Nat} (hk : k < n) (hv : ¬ pixelAllowed ps (v k) = true) :
    rebuild ps cols n prev init adj = .error .pixelRange := by
  have hall : ((List.range n).map v).all (pixelAllowed ps) = false :=
    List.all_eq_false.mpr ⟨v k, List.mem_map_of_mem (List.mem_range.mpr hk), hv⟩
  simp only [rebuild, hsums, hall]
  rfl

/-- R106: rebuilding answers the frame when every sum is allowed. -/
theorem rebuild_ok (hv : ∀ k, k < n → pixelAllowed ps (v k) = true) :
    rebuild ps cols n prev init adj = .ok (frameOfSums cols n v) := by
  have hall : ((List.range n).map v).all (pixelAllowed ps) = true := by
    simpa using hv
  simp only [rebuild, hsums, hall]
  rfl

end Rebuild

/-! ## RECONSTRUCT (R106) -/

theorem exec_reconstruct_payloadLength {w : Byte} {input : List Byte} {s : State} (hf : s.faulted = false)
    (ho : s.operand = .bytes input) (hw : legalWidth w = true) (hc : s.cfgOk = true)
    (hlen : input.length ≠ payloadLength s.pixelCount w.toNat) :
    exec (.reconstruct w) s = .next (s.faultEntry .payloadLength) := by
  simp only [exec, execReconstruct, ho]
  exact command_error hf false (by simp [hw, hc, hlen])

section Payload

variable {w : Byte} {input : List Byte} {s : State} {adj : List Int} {pos : Nat} (hf : s.faulted = false)
  (ho : s.operand = .bytes input) (hw : legalWidth w = true) (hc : s.cfgOk = true)
  (hlen : input.length = payloadLength s.pixelCount w.toNat)
  (hu : unpack (input.drop 4) w.toNat (s.pixelCount - 1) = .ok (adj, pos))

include hf ho hw hc hlen hu

theorem exec_reconstruct_error {e : FaultCode}
    (hr : rebuild s.params s.cols.toNat s.pixelCount s.decPrev (initialValue input) adj = .error e) :
    exec (.reconstruct w) s = .next (s.faultEntry e) := by
  simp only [exec, execReconstruct, ho]
  exact command_error hf false (by simp [hw, hc, hlen, hu, hr, bind, Except.bind])

theorem exec_reconstruct_ok {pix : List Pixel}
    (hr : rebuild s.params s.cols.toNat s.pixelCount s.decPrev (initialValue input) adj = .ok pix) :
    exec (.reconstruct w) s =
      .next ({ s with decPrev := FrameBuffer.storeFrame s.decPrev pix }.complete (.pixels pix)) := by
  simp only [exec, execReconstruct, ho]
  exact command_ok hf false (by simp [hw, hc, hlen, hu, hr, bind, Except.bind, pure, Except.pure])

end Payload

/-- Settles O47: the checks in their order; the unpacked payload's running sums are its deltas, and each position
takes the pixel of its own snake index. -/
theorem reconstructCompletes : Obligations.ReconstructCompletes := by
  intro w input s hf ho
  have hk : Safety.kindOk (.reconstruct w) s.operand = true := by rw [ho]; rfl
  refine ⟨toNat_encode (.reconstruct w), fun hw => ?_, fun hlo hhi hc => ?_, fun hlo hhi hc hlen => ?_,
    fun hlo hhi hc hlen v hv => ?_⟩
  · exact (exec_argumentChecked (.reconstruct w) s).illegal hf hk (Bool.eq_false_iff.mpr (mt legalWidth_iff.mp hw))
  · exact exec_reconstruct_unconfigured hf hc ho (legalWidth_iff.mpr ⟨hlo, hhi⟩)
  · exact exec_reconstruct_payloadLength hf ho (legalWidth_iff.mpr ⟨hlo, hhi⟩) hc hlen
  · have hw := legalWidth_iff.mpr ⟨hlo, hhi⟩
    obtain ⟨-, hcols, hcount, -⟩ := s.cfgOk_iff.mp hc
    have hunpack := unpack_eq (input := input.drop 4) hlo hhi (n := s.pixelCount - 1)
      (by rw [List.length_drop, hlen]; omega)
    have hsums := pixelSums_payload (Nat.le_of_succ_le hcount) hv
    refine ⟨fun hfault ⟨k, hkn, hout⟩ => ?_, fun hok => ⟨frameOfSums s.cols.toNat s.pixelCount v,
      FrameBuffer.storeFrame s.decPrev (frameOfSums s.cols.toNat s.pixelCount v), frameOfSums_length ..,
      fun k hkn => ?_, fun j => ?_, ?_⟩⟩
    · have hbad : ¬ pixelAllowed s.params (v k) = true := by
        rw [pixelAllowed_iff, hfault]
        rintro (hwrap | hin)
        · cases hwrap
        · omega
      exact exec_reconstruct_error hf ho hw hc hlen hunpack (rebuild_pixelRange hsums hkn hbad)
    · rw [← toNat_pixelOf, State.pixelCount, frameOfSums_getD hcols v hkn]
    · rw [FrameBuffer.load_storeFrame, frameOfSums_length]
    · exact exec_reconstruct_ok hf ho hw hc hlen hunpack
        (rebuild_ok hsums fun k hkn => pixelAllowed_iff.mpr (hok.imp_right fun hin => hin k hkn))

/-! ## CLR_DEC (R107) -/

theorem exec_clrDec_ok {s : State} (hf : s.faulted = false) (ho : s.operand = .noOperand) :
    exec (.clrDec 0#8) s = .next ({ s with decPrev := [] }.complete .nothing) := by
  simp only [exec, execClrDec, ho]
  exact command_ok hf false rfl

/-- Settles O49: the check of ARG, then the buffer of no entries, which holds 0 everywhere. -/
theorem clrDecCompletes : Obligations.ClrDecCompletes := by
  refine ⟨rfl, fun a s hf ho => ⟨fun ha => ?_, [], FrameBuffer.load_nil, exec_clrDec_ok hf ho⟩⟩
  have hk : Safety.kindOk (.clrDec a) s.operand = true := by rw [ho]; rfl
  exact (exec_argumentChecked (.clrDec a) s).illegal hf hk (zeroArg_eq_false ha)

end Sys2Proof.Machine

/-!
SUPPORT. The statements of the family spec/44_control.md: what the commands that touch no frame leave alone, and
the commands CSR_READ (R109), CSR_WRITE (R110, R32) and SOFT_RESET (R111).
-/

namespace Sys2Proof.Machine

/-! ## What the codec and the control commands leave alone -/

/-- A codec command writes STATUS and the result only, and STATUS only by fault entry or TSOVF. -/
theorem CommandEffect.codec_cases {i : Instr} {s t : State} (h : CommandEffect i s t)
    (hi : Safety.codecCommand i = true) :
    ∃ st r, t = { s with status := st, result := r } ∧
      (st = s.status ∨ (∃ e, r = some (.fault e) ∧ st = Status.setFault s.status e) ∨
        (Safety.setsTsovf i = true ∧ st = Status.setTsovf s.status)) := by
  cases h with
  | rejected | ended | answered | csrRead => exact ⟨_, _, rfl, .inl rfl⟩
  | fault e => exact ⟨_, _, rfl, .inr (.inl ⟨e, rfl, rfl⟩)⟩
  | overflowed o _ hset => exact ⟨_, _, rfl, .inr (.inr ⟨hset, rfl⟩)⟩
  | compress | clrEnc | reconstruct | clrDec | writeStatus | writeRows | writeCols | softReset => cases hi

/-- Settles O20: the command's effect writes STATUS and the result only. -/
theorem codecCommandsFrame : Obligations.CodecCommandsFrame := by
  intro i s t hi h
  obtain ⟨st, r, rfl, hst⟩ := (exec_effect i s t h).codec_cases hi
  exact ⟨rfl, rfl, rfl, rfl, rfl, rfl, fun _ => rfl, fun _ => rfl, hst⟩

/-- A CSR_WRITE writes STATUS and the result only, unless it is a write of ROWS or of COLS. -/
theorem CommandEffect.csrWrite_cases {n : Byte} {s t : State} (h : CommandEffect (.csrWrite n) s t) :
    (∃ st r, t = { s with status := st, result := r } ∧
      (st = s.status ∨ (n = 0x00#8 ∧ st = Status.clearTsovf s.status) ∨
        ∃ e, r = some (.fault e) ∧ st = Status.setFault s.status e)) ∨
    (∃ d, n = 0x01#8 ∧ t = (s.writeRows d).complete .nothing) ∨
    ∃ d, n = 0x02#8 ∧ t = (s.writeCols d).complete .nothing := by
  cases h with
  | rejected | ended => exact .inl ⟨_, _, rfl, .inl rfl⟩
  | fault e => exact .inl ⟨_, _, rfl, .inr (.inr ⟨e, rfl, rfl⟩)⟩
  | answered _ _ hi | overflowed _ _ hi => cases hi
  | writeStatus d =>
    unfold State.writeStatus
    split
    · exact .inl ⟨_, _, rfl, .inr (.inl ⟨rfl, rfl⟩)⟩
    · exact .inl ⟨_, _, rfl, .inl rfl⟩
  | writeRows d => exact .inr (.inl ⟨d, rfl, rfl⟩)
  | writeCols d => exact .inr (.inr ⟨d, rfl, rfl⟩)

/-- A SOFT_RESET writes STATUS and the result only, unless it resets, which it does with ARG 0. -/
theorem CommandEffect.softReset_cases {a : Byte} {s t : State} (h : CommandEffect (.softReset a) s t) :
    (∃ st r, t = { s with status := st, result := r }) ∨ (a = 0#8 ∧ t = s.softReset.complete .nothing) := by
  cases h with
  | rejected | ended | fault => exact .inl ⟨_, _, rfl⟩
  | answered _ _ hi | overflowed _ _ hi => cases hi
  | softReset => exact .inr ⟨rfl, rfl⟩

/-- Settles O22: of the two commands' effects, only the writes of ROWS and COLS and the reset reach anything but
STATUS and the result. -/
theorem controlCommandsFrame : Obligations.ControlCommandsFrame := by
  refine ⟨fun n s t h => ?_, fun a s t h => ?_⟩
  · rcases (exec_effect _ s t h).csrWrite_cases with ⟨st, r, rfl, hst⟩ | ⟨d, rfl, rfl⟩ | ⟨d, rfl, rfl⟩
    · exact ⟨rfl, rfl, rfl, rfl, fun _ => rfl, fun _ => rfl, fun _ _ => ⟨fun _ => rfl, fun _ => rfl⟩, hst⟩
    · exact ⟨rfl, rfl, rfl, rfl, fun hn => absurd rfl hn, fun _ => rfl, fun hn _ => absurd rfl hn, .inl rfl⟩
    · exact ⟨rfl, rfl, rfl, rfl, fun _ => rfl, fun hn => absurd rfl hn, fun _ hn => absurd rfl hn, .inl rfl⟩
  · rcases (exec_effect _ s t h).softReset_cases with ⟨st, r, rfl⟩ | ⟨rfl, rfl⟩
    · exact ⟨rfl, rfl, rfl, rfl, rfl, rfl, fun _ => ⟨fun _ => rfl, fun _ => rfl⟩⟩
    · exact ⟨rfl, rfl, rfl, rfl, rfl, rfl, fun ha => absurd rfl ha⟩

/-! ## CSR_READ (R109) -/

/-- R109: the three fields of STATUS lie in bits that do not overlap, so a read of it is their sum. -/
theorem Status.toNat_read (st : Word) :
    (Status.read st).toNat =
      (Status.faulted st).toNat + 2 * (Status.tsovf st).toNat + 256 * (Status.faultCode st).toNat := by
  have hcode : ((Status.faultCode st).setWidth 32 <<< 8).toNat = (Status.faultCode st).toNat <<< 8 := by
    have := (Status.faultCode st).isLt
    rw [BitVec.toNat_shiftLeft, BitVec.toNat_setWidth, Nat.shiftLeft_eq]
    omega
  have hlow : ((BitVec.ofBool (Status.faulted st)).setWidth 32 |||
      ((BitVec.ofBool (Status.tsovf st)).setWidth 32 <<< 1)).toNat =
        (Status.faulted st).toNat + 2 * (Status.tsovf st).toNat := by
    cases Status.faulted st <;> cases Status.tsovf st <;> rfl
  have hlt : (Status.faulted st).toNat + 2 * (Status.tsovf st).toNat < 2 ^ 8 := by
    have := (Status.faulted st).toNat_lt
    have := (Status.tsovf st).toNat_lt
    omega
  rw [Status.read, BitVec.toNat_or, hlow, hcode, Nat.or_comm, ← Nat.shiftLeft_add_eq_or_of_lt hlt, Nat.shiftLeft_eq]
  omega

/-- Settles O50: each register that reads as something is answered; the others are no legal ARG. -/
theorem csrReadCompletes : Obligations.CsrReadCompletes := by
  intro s ho
  obtain ⟨-, hcap, -⟩ := capAndParametersAreFixed
  refine ⟨fun n => toNat_encode (.csrRead n),
    ⟨Status.read s.status, Status.toNat_read s.status, exec_csrRead_ok ho rfl rfl⟩,
    exec_csrRead_ok ho rfl rfl, exec_csrRead_ok ho rfl rfl, hcap s ho, fun hf n hn => ?_⟩
  have hk : Safety.kindOk (.csrRead n) s.operand = true := by rw [ho]; rfl
  exact (exec_argumentChecked (.csrRead n) s).illegal hf hk
    (Bool.eq_false_iff.mpr (mt readableCsr_iff.mp (not_le.mpr hn)))

/-! ## CSR_WRITE (R110) -/

/-- R110: a write to a CSR that takes it, in a block that is not faulted. -/
theorem exec_csrWrite_ok {s t : State} {n : Byte} {d : Word} (hf : s.faulted = false) (ho : s.operand = .data d)
    (ht : s.writeCsr? n d = some t) : exec (.csrWrite n) s = .next (t.complete .nothing) := by
  simp only [exec, execCsrWrite, ho]
  exact command_ok hf false (by simp only [ht])

/-- Settles O51: each register that can be written takes the write; the others are no legal ARG. -/
theorem csrWriteCompletes : Obligations.CsrWriteCompletes := by
  intro s d hf ho
  have hstatus : exec (.csrWrite 0x00#8) s = .next ((s.writeStatus d).complete .nothing) :=
    exec_csrWrite_ok hf ho rfl
  refine ⟨fun n => toNat_encode (.csrWrite n), fun hd => ?_, fun hd => ?_,
    ⟨[], [], FrameBuffer.load_nil, FrameBuffer.load_nil, exec_csrWrite_ok (t := s.writeRows d) hf ho rfl,
      exec_csrWrite_ok (t := s.writeCols d) hf ho rfl⟩, fun n hn => ?_⟩
  · rw [hstatus, State.writeStatus, if_pos hd]
    rfl
  · rw [hstatus, State.writeStatus, hd]
    rfl
  · have hk : Safety.kindOk (.csrWrite n) s.operand = true := by rw [ho]; rfl
    exact (exec_argumentChecked (.csrWrite n) s).illegal hf hk
      (Bool.eq_false_iff.mpr (mt writableCsr_iff.mp (not_le.mpr hn)))

/-! ## SOFT_RESET (R111) -/

/-- R111, R117: SOFT_RESET with ARG 0 and no operand resets, faulted or not. -/
theorem exec_softReset_ok {s : State} (ho : s.operand = .noOperand) :
    exec (.softReset 0#8) s = .next (s.softReset.complete .nothing) := by
  simp only [exec, execSoftReset, ho]
  exact command_accepted_ok rfl

/-- R117: with another ARG the faulted block does not accept it. -/
theorem exec_softReset_rejected {s : State} {a : Byte} (hf : s.faulted = true) (ha : a ≠ 0#8) :
    exec (.softReset a) s = .next s.rejected := by
  simp only [exec, execSoftReset, zeroArg_eq_false ha]
  exact command_rejected hf _ _

/-- Settles O52: the reset itself, and the check of ARG, which comes before it, faulted or not. -/
theorem softResetCompletes : Obligations.SoftResetCompletes := by
  refine ⟨rfl, fun s ho => ⟨⟨[], [], FrameBuffer.load_nil, FrameBuffer.load_nil, exec_softReset_ok ho⟩,
    fun a ha => ⟨fun hf => ?_, fun hf => exec_softReset_rejected hf ha⟩⟩⟩
  have hk : Safety.kindOk (.softReset a) s.operand = true := by rw [ho]; rfl
  exact (exec_argumentChecked (.softReset a) s).illegal hf hk (zeroArg_eq_false ha)

end Sys2Proof.Machine

/-!
SUPPORT. The statements of the family spec/60_exceptions.md: what fault entry changes (R116), what the block does
while faulted (R117), and what leaves the faulted state (R118).
-/

namespace Sys2Proof.Machine

/-! ## The words of the commands (R51, R52) -/

theorem commandOf_opcode_arg (i : Instr) : commandOf i.opcode i.arg = some i := by cases i <;> rfl

theorem decode_encode (i : Instr) : decode (encode i) = .ok i := by
  simp [decode, encode, commandOf_opcode_arg]

theorem eq_encode_of_decode_ok {w : Word} {i : Instr} (h : decode w = .ok i) : w = encode i := by
  unfold decode at h
  split at h
  · cases h
  next j hj =>
    split at h <;> cases h
    next hrsvd =>
      obtain ⟨hop, harg⟩ := commandOf_eq_some hj
      rw [Word.eq_wordOf w, hrsvd, hop, harg, encode]

/-! ## Fault entry (R116) -/

/-- Of the effects a command can have, the one that reports a fault is fault entry, in a block not yet faulted. -/
theorem CommandEffect.eq_faultEntry {i : Instr} {s t : State} {e : FaultCode} (h : CommandEffect i s t)
    (he : t.result = some (.fault e)) : s.faulted = false ∧ t = s.faultEntry e := by
  cases h with
  | fault e' hf => cases he; exact ⟨hf, rfl⟩
  | rejected | ended | answered | overflowed | csrRead | compress | clrEnc | reconstruct | clrDec | writeStatus
  | writeRows | writeCols | softReset => cases he

theorem State.badWord_eq_faultEntry {s : State} {d : DecodeError} {e : FaultCode}
    (he : (s.badWord d).result = some (.fault e)) : s.faulted = false ∧ s.badWord d = s.faultEntry e := by
  unfold State.badWord at he ⊢
  split at he
  · cases he
  next hf => cases he; exact ⟨Bool.eq_false_iff.mpr hf, if_neg hf⟩

/-- R116: a step that takes a command and reports a fault is fault entry, in a block not yet faulted. -/
theorem step_eq_faultEntry {s t : State} {c : Command} {rest : List HostInput} {e : FaultCode}
    (hin : s.inputs = .command c :: rest) (h : step s = .next t) (he : t.result = some (.fault e)) :
    s.faulted = false ∧ t = (s.take c rest).faultEntry e := by
  simp only [step, hin] at h
  split at h
  next i _ => exact (exec_effect i _ t h).eq_faultEntry he
  next d _ => cases h; exact State.badWord_eq_faultEntry he

/-- Settles O12: the step is fault entry, which writes STATUS and the result only, and of STATUS two fields. -/
theorem faultEntryIsPrecise : Obligations.FaultEntryIsPrecise := by
  intro s t c rest e hin h he
  obtain ⟨-, rfl⟩ := step_eq_faultEntry hin h he
  exact ⟨Status.faulted_setFault _ e, Status.faultCode_setFault _ e, Status.tsovf_setFault _ e,
    Status.reserved_setFault _ e, rfl, rfl, rfl, rfl, rfl, rfl, rfl, rfl⟩

/-! ## The faulted block (R117) -/

theorem State.softReset_complete_faulted (s : State) (o : Outputs) : (s.softReset.complete o).faulted = false := by
  simp [State.faulted, Status.faulted]

theorem State.hardReset_faulted (s : State) : s.hardReset.faulted = false := by
  simp [State.faulted, Status.faulted]

theorem kindOk_csrRead_iff {n : Byte} {o : Operand} : Safety.kindOk (.csrRead n) o = true ↔ o = .noOperand := by
  cases o <;> simp [Safety.kindOk]

theorem kindOk_softReset_iff {a : Byte} {o : Operand} :
    Safety.kindOk (.softReset a) o = true ↔ o = .noOperand := by
  cases o <;> simp [Safety.kindOk]

theorem CheckedCommand.answers_next {i : Instr} {s : State} {r : Host.Outcome State Fault Refusal}
    (h : CheckedCommand i s r) : ∃ t, r = .next t := by
  obtain ⟨wf, contents, body, -, -⟩ := h
  exact command_answers_next s wf contents body

/-- R117: the faulted block accepts no command with an operand of another kind. -/
theorem CheckedCommand.wrong_kind_rejected {i : Instr} {s : State} {r : Host.Outcome State Fault Refusal}
    (h : CheckedCommand i s r) (hf : s.faulted = true) (hk : Safety.kindOk i s.operand = false) :
    r = .next s.rejected := by
  obtain ⟨wf, contents, body, hkind, -⟩ := h
  rw [hk, Option.isSome_eq_false_iff, Option.isNone_iff_eq_none] at hkind
  simp [hkind, command, hf]

/-- R117: everything a command can do in a faulted block. -/
theorem exec_faulted_cases {i : Instr} {s t : State} (hf : s.faulted = true) (h : exec i s = .next t) :
    t = s.rejected ∨
    (∃ n d, n.toNat ≤ 3 ∧ i = .csrRead n ∧ s.operand = .noOperand ∧ t = s.complete (.data d)) ∨
    (i = .softReset 0#8 ∧ s.operand = .noOperand ∧ t = s.softReset.complete .nothing) := by
  cases hk : Safety.kindOk i s.operand with
  | false =>
    have hr := (exec_checked i s).wrong_kind_rejected hf hk
    exact .inl (Host.Outcome.next.inj (h.symm.trans hr))
  | true =>
    cases exec_effect i s t h with
    | rejected => exact .inl rfl
    | csrRead n d hn => exact .inr (.inl ⟨n, d, hn, rfl, kindOk_csrRead_iff.mp hk, rfl⟩)
    | softReset => exact .inr (.inr ⟨rfl, kindOk_softReset_iff.mp hk, rfl⟩)
    | fault _ hf' | ended hf' | answered _ hf' | overflowed _ hf' | compress _ _ _ hf' | clrEnc _ hf'
    | reconstruct _ _ hf' | clrDec _ hf' | writeStatus _ hf' | writeRows _ hf' | writeCols _ hf' =>
      exact absurd (hf.symm.trans hf') nofun

/-- R117: everything a step that takes a command can do in a faulted block. -/
theorem step_faulted_cases {s : State} {c : Command} {rest : List HostInput} (hf : s.faulted = true)
    (hin : s.inputs = .command c :: rest) :
    step s = .next (s.take c rest).rejected ∨
    (∃ n d, n.toNat ≤ 3 ∧ c = ⟨encode (.csrRead n), .noOperand⟩ ∧
      step s = .next ((s.take c rest).complete (.data d))) ∨
    (c = ⟨encode (.softReset 0#8), .noOperand⟩ ∧
      step s = .next ((s.take c rest).softReset.complete .nothing)) := by
  have hft : (s.take c rest).faulted = true := hf
  cases hd : decode c.word with
  | error e => exact .inl (by simp [step, hin, hd, State.badWord, hft])
  | ok i =>
    rw [step_of_decode_ok hin hd]
    have hw : ∀ {j}, i = j → c.operand = .noOperand → c = ⟨encode j, .noOperand⟩ := by
      rintro _ rfl ho
      rw [← eq_encode_of_decode_ok hd, ← ho]
    obtain ⟨t, ht⟩ := (exec_checked i (s.take c rest)).answers_next
    rw [ht]
    rcases exec_faulted_cases hft ht with rfl | ⟨n, d, hn, hi, ho, rfl⟩ | ⟨hi, ho, rfl⟩
    · exact .inl rfl
    · exact .inr (.inl ⟨n, d, hn, hw hi ho, rfl⟩)
    · exact .inr (.inr ⟨hw hi ho, rfl⟩)

/-- R117, R118: a step that takes a command in a faulted block leaves STATUS alone, unless it is the SOFT_RESET that
ends the faulted state. -/
theorem step_faulted_status {s t : State} {c : Command} {rest : List HostInput} (hf : s.faulted = true)
    (hin : s.inputs = .command c :: rest) (h : step s = .next t) :
    t.status = s.status ∨ (c = ⟨encode (.softReset 0#8), .noOperand⟩ ∧ t.faulted = false) := by
  rcases step_faulted_cases hf hin with h' | ⟨n, d, -, -, h'⟩ | ⟨hc, h'⟩ <;> cases h.symm.trans h'
  · exact .inl rfl
  · exact .inl rfl
  · exact .inr ⟨hc, State.softReset_complete_faulted _ _⟩

/-- R109, R117: a legal CSR_READ with no operand executes, faulted or not. -/
theorem step_csrRead {s : State} {n : Byte} {rest : List HostInput} (hn : n.toNat ≤ 3)
    (hin : s.inputs = .command ⟨encode (.csrRead n), .noOperand⟩ :: rest) :
    ∃ d, step s = .next ((s.take ⟨encode (.csrRead n), .noOperand⟩ rest).complete (.data d)) := by
  rw [step_of_decode_ok hin (decode_encode _)]
  have hread := readableCsr_iff.mpr hn
  obtain ⟨d, hd⟩ := Option.isSome_iff_exists.mp ((State.csr?_isSome _ n).trans hread)
  exact ⟨d, exec_csrRead_ok rfl hread hd⟩

/-- R111, R117: SOFT_RESET with ARG 0 and no operand resets, faulted or not. -/
theorem step_softReset {s : State} {rest : List HostInput}
    (hin : s.inputs = .command ⟨encode (.softReset 0#8), .noOperand⟩ :: rest) :
    step s = .next ((s.take ⟨encode (.softReset 0#8), .noOperand⟩ rest).softReset.complete .nothing) := by
  rw [step_of_decode_ok hin (decode_encode _)]
  exact exec_softReset_ok rfl

/-- R118: no command faults while the block is faulted. -/
theorem step_faulted_ne_fault {s t : State} {c : Command} {rest : List HostInput} (hf : s.faulted = true)
    (hin : s.inputs = .command c :: rest) (h : step s = .next t) (e : FaultCode) : t.result ≠ some (.fault e) :=
  fun he => absurd (hf.symm.trans (step_eq_faultEntry hin h he).1) nofun

/-- Settles O13: the two commands that execute, the cases of a step of the faulted block for the words that are
neither, and STATUS, which only the SOFT_RESET that ends the faulted state writes. -/
theorem faultedBlockRejects : Obligations.FaultedBlockRejects := by
  intro s c rest hf hin
  refine ⟨fun n hn hc => ?_, fun hc => ?_, fun hread hreset => ?_, fun t h =>
    ⟨step_faulted_ne_fault hf hin h, fun htf => ?_⟩⟩
  · subst hc
    exact step_csrRead hn hin
  · subst hc
    exact ⟨_, step_softReset hin, State.softReset_complete_faulted _ _, rfl⟩
  · rcases step_faulted_cases hf hin with h | ⟨n, d, hn, hc, -⟩ | ⟨hc, -⟩
    · exact h
    · exact absurd hc (hread n hn)
    · exact absurd hc hreset
  · rcases step_faulted_status hf hin h with hst | ⟨-, htf'⟩
    · exact hst
    · exact absurd (htf.symm.trans htf') nofun

/-! ## Leaving the faulted state (R118) -/

theorem encode_softReset_zero : encode (.softReset 0#8) = 0x0000000D#32 := by decide

/-- R132: a step with the reset input driven resets the block. -/
theorem step_of_reset {s : State} {c : Option Command} {rest : List HostInput}
    (hin : s.inputs = .reset c :: rest) : step s = .next { s with inputs := rest }.hardReset := by
  simp only [step, hin]

/-- R118: a command that leaves the faulted state is SOFT_RESET with ARG 0 and no operand. -/
theorem eq_softReset_of_leaves_faulted {s t : State} {c : Command} {rest : List HostInput} (hf : s.faulted = true)
    (hin : s.inputs = .command c :: rest) (h : step s = .next t) (htf : t.faulted = false) :
    c = ⟨encode (.softReset 0#8), .noOperand⟩ := by
  rcases step_faulted_status hf hin h with hst | ⟨hc, -⟩
  · rw [State.faulted, hst] at htf
    exact absurd (htf.symm.trans hf) nofun
  · exact hc

/-- Settles O14, by what the host presents first: a waiting block stays as it is, and of the commands only
SOFT_RESET leaves the faulted state. -/
theorem onlySoftResetOrResetLeavesFaulted : Obligations.OnlySoftResetOrResetLeavesFaulted := by
  refine ⟨fun s t hf h htf => ?_, fun s rest hf hin => ?_, fun s t c rest e hf hin h =>
    step_faulted_ne_fault hf hin h e⟩
  · rcases step_cases s t h with ⟨-, rfl⟩ | ⟨c, rest, hin, -⟩ | ⟨c, rest, _, hin, -⟩ | ⟨c, rest, _, hin, -⟩
    · exact absurd (htf.symm.trans hf) nofun
    · exact .inr ⟨c, rest, hin⟩
    all_goals
      have hc := eq_softReset_of_leaves_faulted hf hin h htf
      rw [encode_softReset_zero] at hc
      exact .inl ⟨rest, hc ▸ hin⟩
  · rcases hin with hin | ⟨c, hin⟩
    · rw [← encode_softReset_zero] at hin
      exact ⟨_, step_softReset hin, State.softReset_complete_faulted _ _⟩
    · exact ⟨_, step_of_reset hin, State.hardReset_faulted _⟩

end Sys2Proof.Machine

/-!
SUPPORT. Statements about the model as a whole: decoding against encoding (R51, R52), what a step executes and that
none stops (R115, R124), the reset input (R132), and the invariant of STATUS, CAP and the frame buffers (R22, R27,
R28, R32).
-/

namespace Sys2Proof.Machine

/-! ## Decoding and encoding (R51, R52) -/

theorem decode_eq_ok_iff {w : Word} {i : Instr} : decode w = .ok i ↔ w = encode i :=
  ⟨eq_encode_of_decode_ok, fun h => h ▸ decode_encode i⟩

/-- Settles O1: the decoder reads a command's own word back, and a word it reads is made of the fields it reads. -/
theorem decodeInvertsEncode : Obligations.DecodeInvertsEncode := fun _ i => ⟨decode_eq_ok_iff, toNat_encode i⟩

/-- Settles O2: each word is the encoding of its command, which the decoder reads back. -/
theorem specWordsDecode : Obligations.SpecWordsDecode :=
  ⟨decode_encode (.pack 3#8), decode_encode (.unpack 3#8), decode_encode (.fieldEnc 0x58#8),
    decode_encode (.fieldDec 0#8), decode_encode (.sectionEnc 0x46#8), decode_encode (.sectionDec 0x48#8),
    decode_encode (.compress 0#8), decode_encode (.clrEnc 0#8), decode_encode (.reconstruct 4#8),
    decode_encode (.clrDec 0#8), decode_encode (.csrRead 3#8), decode_encode (.csrWrite 1#8),
    decode_encode (.softReset 0#8)⟩

/-! ## Steps (R115, R124, R132) -/

/-- Settles O5: the state the block executes in is the one in which it has taken the command. -/
theorem stepRunsDecodedCommand : Obligations.StepRunsDecodedCommand := fun _ _ _ _ hin hd =>
  step_of_decode_ok hin hd

theorem exec_answers_next (i : Instr) (s : State) : ∃ t, exec i s = .next t := (exec_checked i s).answers_next

/-- R124: a step answers a next state whatever the host presents first. -/
theorem step_answers_next (s : State) : ∃ t, step s = .next t := by
  unfold step
  split
  · exact ⟨_, rfl⟩
  · exact ⟨_, rfl⟩
  · split
    · exact exec_answers_next _ _
    · exact ⟨_, rfl⟩

/-- Settles O10: every command ends in one of the ways of R115, each of which is a next state. -/
theorem everyStepAnswersNext : Obligations.EveryStepAnswersNext := ⟨step_answers_next, exec_answers_next⟩

theorem step_of_nothing {s : State} (hin : s.inputs = []) : step s = .next s := by
  simp only [step, hin]

/-- Settles O7: the step is the reset, whose values are those of `State.resetOf`. -/
theorem resetInputRestoresResetState : Obligations.ResetInputRestoresResetState := fun s _ _ hin =>
  ⟨_, step_of_reset hin, rfl, rfl, rfl, rfl, fun _ => rfl, fun _ => rfl, rfl, rfl, rfl,
    State.resetOf_cfgOk s.cap s.params, fun hrest => step_of_nothing hrest⟩

/-! ## The fault codes (R112) -/

theorem FaultCode.number_injective : Function.Injective FaultCode.number := by
  intro e f h
  cases e <;> cases f <;> cases h <;> rfl

/-- R112: the codes lie in 0x01 to 0x12. -/
theorem FaultCode.number_range (e : FaultCode) : 1 ≤ e.number.toNat ∧ e.number.toNat ≤ 0x12 := by
  cases e <;> decide

/-- Settles O18: the numbers are read off the table. -/
theorem faultCodeNumbers : Obligations.FaultCodeNumbers :=
  ⟨by decide, fun _ _ h => FaultCode.number_injective h⟩

theorem mayRaise_operand (i : Instr) : Safety.mayRaise i .operand = true := by cases i <;> rfl

/-- Settles O17: a fault is E_OPERAND, or, with an operand of the command's kind, one of its own checks. -/
theorem faultsRaisedOnlyByTheirCommands : Obligations.FaultsRaisedOnlyByTheirCommands := by
  intro i s t e h he
  obtain ⟨hf, -⟩ := (exec_effect i s t h).eq_faultEntry he
  cases hk : Safety.kindOk i s.operand with
  | false =>
    have hr := (exec_checked i s).wrong_kind hf hk
    cases h.symm.trans hr
    cases he
    exact mayRaise_operand i
  | true => exact ((h ▸ exec_checked i s).fault_of_right_kind hf hk he).2

/-! ## Who writes STATUS (R22) -/

/-- R22: what a command makes of STATUS. -/
theorem CommandEffect.status_cases {i : Instr} {s t : State} (h : CommandEffect i s t) :
    t.status = s.status ∨
    (∃ e, t.result = some (.fault e) ∧ t.status = Status.setFault s.status e) ∨
    (Safety.setsTsovf i = true ∧ t.status = Status.setTsovf s.status) ∨
    (i = .csrWrite 0x00#8 ∧ t.status = Status.clearTsovf s.status) ∨
    (i = .softReset 0#8 ∧ t.status = 0#32) := by
  cases h with
  | rejected | ended | answered | csrRead | compress | clrEnc | reconstruct | clrDec | writeRows | writeCols =>
    exact .inl rfl
  | fault e => exact .inr (.inl ⟨e, rfl, rfl⟩)
  | overflowed o _ hset => exact .inr (.inr (.inl ⟨hset, rfl⟩))
  | writeStatus d =>
    rw [State.complete_status, State.writeStatus_status]
    split
    · exact .inr (.inr (.inr (.inl ⟨rfl, rfl⟩)))
    · exact .inl rfl
  | softReset => exact .inr (.inr (.inr (.inr ⟨rfl, rfl⟩)))

/-- Settles O19: of the five things a command can make of STATUS, each writes the fields R22 says. -/
theorem statusFieldsWrittenOnlyByTheirCommands : Obligations.StatusFieldsWrittenOnlyByTheirCommands := by
  intro i s t h
  simp only [State.faulted, State.faultCode, State.tsovf]
  have hkept : ∀ {b : Bool} {p : Prop}, b = false → b = true → p := fun hn hy => absurd (hn.symm.trans hy) nofun
  rcases (exec_effect i s t h).status_cases with
    hst | ⟨e, he, hst⟩ | ⟨hset, hst⟩ | ⟨hi, hst⟩ | ⟨hi, hst⟩ <;> rw [hst]
  · exact ⟨by simp, hkept, fun hy hn => hkept hn hy, fun _ => rfl⟩
  · rw [Status.tsovf_setFault]
    exact ⟨fun _ => .inl ⟨e, he⟩, hkept, fun hy hn => hkept hn hy, fun _ => Status.reserved_setFault _ _⟩
  · exact ⟨by simp, fun _ _ => hset, by simp, fun _ => Status.reserved_setTsovf _⟩
  · exact ⟨by simp, by simp, fun _ _ => .inl hi, fun _ => Status.reserved_clearTsovf _⟩
  · exact ⟨fun _ => .inr hi, by simp [Status.tsovf], fun _ _ => .inr hi, fun hne => absurd hi hne⟩

/-! ## The frame commands leave the other side alone (R27 to R29) -/

/-- The command that stores a frame in the named buffer. -/
def BufferName.frameCommand : BufferName → Byte → Instr
  | .enc => .compress
  | .dec => .reconstruct

/-- The command that clears the named buffer. -/
def BufferName.clearCommand : BufferName → Byte → Instr
  | .enc => .clrEnc
  | .dec => .clrDec

/-- What the named frame buffer holds. -/
def State.buffer (x : BufferName) (s : State) : FrameBuffer :=
  match x with
  | .enc => s.encPrev
  | .dec => s.decPrev

/-- A command of a frame buffer writes STATUS and the result only, unless it completes, which writes that buffer. -/
theorem CommandEffect.frame_cases {x : BufferName} {i : Instr} {a : Byte} {s t : State} (h : CommandEffect i s t)
    (hi : i = x.frameCommand a ∨ i = x.clearCommand a) :
    (∃ st r, t = { s with status := st, result := r } ∧
      (st = s.status ∨ ∃ e, r = some (.fault e) ∧ st = Status.setFault s.status e)) ∨
    ∃ b o, t = (s.setBuffer x b).complete o ∧ (i = x.frameCommand a →
      ∀ j, s.pixelCount ≤ j → FrameBuffer.load b j = FrameBuffer.load (s.buffer x) j) := by
  have hstore : ∀ {px : List Pixel}, px.length = s.pixelCount → ∀ b j, s.pixelCount ≤ j →
      FrameBuffer.load (FrameBuffer.storeFrame b px) j = FrameBuffer.load b j := fun hn b j hj => by
    rw [FrameBuffer.load_storeFrame, hn, if_neg (not_lt.mpr hj)]
  cases h with
  | rejected | ended => exact .inl ⟨_, _, rfl, .inl rfl⟩
  | fault e => exact .inl ⟨_, _, rfl, .inr ⟨e, rfl, rfl⟩⟩
  | compress c px o _ _ hn =>
    cases x with
    | enc => exact .inr ⟨_, _, rfl, fun _ => hstore hn _⟩
    | dec => rcases hi with hi | hi <;> cases hi
  | reconstruct w px _ _ hn =>
    cases x with
    | enc => rcases hi with hi | hi <;> cases hi
    | dec => exact .inr ⟨_, _, rfl, fun _ => hstore hn _⟩
  | clrEnc c =>
    cases x with
    | enc => exact .inr ⟨_, _, rfl, nofun⟩
    | dec => rcases hi with hi | hi <;> cases hi
  | clrDec c =>
    cases x with
    | enc => rcases hi with hi | hi <;> cases hi
    | dec => exact .inr ⟨_, _, rfl, nofun⟩
  | answered _ _ hcodec => cases x <;> rcases hi with rfl | rfl <;> cases hcodec
  | overflowed _ _ hset => cases x <;> rcases hi with rfl | rfl <;> cases hset
  | csrRead | writeStatus | writeRows | writeCols | softReset =>
    cases x <;> rcases hi with hi | hi <;> cases hi

/-- Settles O21: a frame command writes its own buffer, and that only when it completes. -/
theorem frameCommandsFrame : Obligations.FrameCommandsFrame := by
  refine ⟨fun i a s t hi h => ?_, fun i a s t hi h => ?_⟩
  · rcases (exec_effect i s t h).frame_cases (x := .enc) hi with ⟨st, r, rfl, hst⟩ | ⟨b, o, rfl, hb⟩
    · exact ⟨rfl, rfl, rfl, rfl, rfl, rfl, fun _ => rfl, fun _ _ _ => rfl, fun _ _ => rfl, hst⟩
    · exact ⟨rfl, rfl, rfl, rfl, rfl, rfl, fun _ => rfl, fun j hc => hb hc j, fun hno => absurd rfl (hno o),
        .inl rfl⟩
  · rcases (exec_effect i s t h).frame_cases (x := .dec) hi with ⟨st, r, rfl, hst⟩ | ⟨b, o, rfl, hb⟩
    · exact ⟨rfl, rfl, rfl, rfl, rfl, rfl, fun _ => rfl, fun _ _ _ => rfl, fun _ _ => rfl, hst⟩
    · exact ⟨rfl, rfl, rfl, rfl, rfl, rfl, fun _ => rfl, fun j hc => hb hc j, fun hno => absurd rfl (hno o),
        .inl rfl⟩

/-! ## The invariant -/

theorem statusOk_iff {st : Word} : Safety.statusOk st = true ↔ Status.reserved st = 0#32 ∧
    if Status.faulted st = true then 1 ≤ (Status.faultCode st).toNat ∧ (Status.faultCode st).toNat ≤ 0x12
    else Status.faultCode st = 0#8 := by
  unfold Safety.statusOk
  cases Status.faulted st <;> simp

theorem statusOk_zero : Safety.statusOk 0#32 = true := by decide

theorem statusOk_setFault {st : Word} (h : Safety.statusOk st = true) (e : FaultCode) :
    Safety.statusOk (Status.setFault st e) = true := by
  rw [statusOk_iff] at h ⊢
  simpa using ⟨h.1, e.number_range⟩

theorem statusOk_setTsovf {st : Word} (h : Safety.statusOk st = true) :
    Safety.statusOk (Status.setTsovf st) = true := by
  rw [statusOk_iff] at h ⊢
  simpa using h

theorem statusOk_clearTsovf {st : Word} (h : Safety.statusOk st = true) :
    Safety.statusOk (Status.clearTsovf st) = true := by
  rw [statusOk_iff] at h ⊢
  simpa using h

/-- R22: a command keeps the form of STATUS. -/
theorem CommandEffect.statusOk {i : Instr} {s t : State} (h : CommandEffect i s t)
    (hs : Safety.statusOk s.status = true) : Safety.statusOk t.status = true := by
  rcases h.status_cases with hst | ⟨e, -, hst⟩ | ⟨-, hst⟩ | ⟨-, hst⟩ | ⟨-, hst⟩ <;> rw [hst]
  · exact hs
  · exact statusOk_setFault hs e
  · exact statusOk_setTsovf hs
  · exact statusOk_clearTsovf hs
  · exact statusOk_zero

theorem bufferOk_nil (s : State) : Safety.bufferOk s [] = true := rfl

/-- R102, R106: the frame of a configured block has `N` pixels, and `N` is at most `MAX_PIXELS`. -/
theorem bufferOk_storeFrame {s : State} {b : FrameBuffer} {px : List Pixel} (hc : s.cfgOk = true)
    (hn : px.length = s.pixelCount) (hb : Safety.bufferOk s b = true) :
    Safety.bufferOk s (FrameBuffer.storeFrame b px) = true := by
  obtain ⟨-, -, -, hmax⟩ := s.cfgOk_iff.mp hc
  simp only [Safety.bufferOk, Bool.and_eq_true] at hb ⊢
  exact ⟨FrameBuffer.wf_storeFrame hb.1 hn.le, FrameBuffer.wf_storeFrame hb.2 (hn.trans_le hmax)⟩

/-- Both frame buffers are as I19 says. -/
def State.buffersOk (s : State) : Prop :=
  Safety.bufferOk s s.encPrev = true ∧ Safety.bufferOk s s.decPrev = true

/-- A command keeps the form of the frame buffers: a write of ROWS or COLS, which changes `N`, clears them. -/
theorem CommandEffect.buffersOk {i : Instr} {s t : State} (h : CommandEffect i s t) (hs : s.buffersOk) :
    t.buffersOk := by
  obtain ⟨henc, hdec⟩ := hs
  cases h with
  | rejected | fault | ended | answered | overflowed | csrRead => exact ⟨henc, hdec⟩
  | compress a px o _ hc hn => exact ⟨bufferOk_storeFrame hc hn henc, hdec⟩
  | clrEnc => exact ⟨bufferOk_nil _, hdec⟩
  | reconstruct w px _ hc hn => exact ⟨henc, bufferOk_storeFrame hc hn hdec⟩
  | clrDec => exact ⟨henc, bufferOk_nil _⟩
  | writeStatus d =>
    unfold State.writeStatus
    split <;> exact ⟨henc, hdec⟩
  | writeRows | writeCols | softReset => exact ⟨bufferOk_nil _, bufferOk_nil _⟩

theorem inv_iff {s : State} : Safety.inv s = true ↔
    Safety.statusOk s.status = true ∧ Config.maxPixelsFloor ≤ s.maxPixels ∧ s.buffersOk := by
  simp only [Safety.inv, State.buffersOk, Bool.and_eq_true, decide_eq_true_eq, and_assoc]

theorem inv_resetOf {cap : Word} (ps : Params) (hcap : Config.maxPixelsFloor ≤ cap.toNat) :
    Safety.inv (State.resetOf cap ps) = true :=
  inv_iff.mpr ⟨statusOk_zero, hcap, bufferOk_nil _, bufferOk_nil _⟩

/-- Settles O8: after reset STATUS is 0 and the buffers have no entries. -/
theorem resetMeetsInvariant : Obligations.ResetMeetsInvariant :=
  ⟨inv_resetOf _ maxPixelsFloor_le_maxPixels, fun _ ps hcap => inv_resetOf ps hcap⟩

/-- Every command keeps the invariant. -/
theorem CommandEffect.keeps_inv {i : Instr} {s t : State} (h : CommandEffect i s t) (hs : Safety.inv s = true) :
    Safety.inv t = true := by
  obtain ⟨hst, hcap, hbuf⟩ := inv_iff.mp hs
  refine inv_iff.mpr ⟨h.statusOk hst, ?_, h.buffersOk hbuf⟩
  rwa [State.maxPixels, h.cap_params.1]

theorem State.badWord_keeps_inv {s : State} (e : DecodeError) (hs : Safety.inv s = true) :
    Safety.inv (s.badWord e) = true := by
  obtain ⟨hst, hcap, hbuf⟩ := inv_iff.mp hs
  unfold State.badWord
  split
  · exact hs
  · exact inv_iff.mpr ⟨statusOk_setFault hst _, hcap, hbuf⟩

/-- Settles O9, by the cases of a step: a command, a word that is none, the reset input, and waiting. -/
theorem stepKeepsInvariant : Obligations.StepKeepsInvariant := by
  intro s t hs h
  have htake : ∀ c rest, Safety.inv (s.take c rest) = true := fun _ _ => hs
  rcases step_cases s t h with ⟨-, rfl⟩ | ⟨c, rest, -, rfl⟩ | ⟨c, rest, i, -, -, hexec⟩ | ⟨c, rest, e, -, -, rfl⟩
  · exact hs
  · exact inv_resetOf (cap := s.cap) s.params (inv_iff.mp hs).2.1
  · exact (exec_effect i _ t hexec).keeps_inv (htake c rest)
  · exact State.badWord_keeps_inv e (htake c rest)

end Sys2Proof.Machine

/-!
SUPPORT. Packing against the packed stream and against unpacking (R69, R70, R76): what the unpacker reads of packed
bytes, at every legal width.
-/

namespace Sys2Proof.Machine

/-! ## The packed stream (R59, R70) -/

/-- Settles O26: the loop's bytes are the packed stream, whose length is its definition's. -/
theorem packMatchesPackedStream : Obligations.PackMatchesPackedStream := by
  intro w vs hlo hhi
  have hpack := pack_eq_packedStream hlo hhi vs
  exact ⟨hpack, by rw [hpack, packedStream_length, List.length_map]⟩

/-! ## Reading the packed stream (R59, R72) -/

/-- R59: byte `m` of a packed stream, as the number of its bits. -/
theorem streamByte_eq (w : Nat) (us : List Nat) (m : Nat) :
    streamByte w us m = BitVec.ofNat 8 (bitsValue (fun k => streamBit w us (8 * m + k)) 8) :=
  congrArg _ (bitsValue_eq_sum (fun k => streamBit w us (8 * m + k)) 8)

/-- R59: the bits of a packed stream are those of its bit string, whatever bytes come after. -/
theorem inputBit_packedStream_append {w : Nat} {us : List Nat} {j : Nat} (rest : List Byte)
    (hj : j < us.length * w) : inputBit (packedStream w us ++ rest) j = streamBit w us j := by
  have hbyte : (packedStream w us ++ rest)[j / 8]? = some (streamByte w us (j / 8)) := by
    refine getElem?_append_eq_some rest ?_
    have hm : j / 8 < ceilDiv (us.length * w) 8 := by rw [ceilDiv_eight]; omega
    simp [packedStream, hm]
  have hk : j % 8 < 8 := Nat.mod_lt _ (by decide)
  have hbit := inputBit_eq _ _ _ hbyte (j % 8) hk
  rw [Nat.div_add_mod] at hbit
  rw [hbit, streamByte_eq, BitVec.getLsbD_ofNat, testBit_bitsValue, show 8 - 1 - (7 - j % 8) = j % 8 by omega,
    Nat.div_add_mod]
  simp [show 7 - j % 8 < 8 by omega]

/-- A number below `2^w` is the value of its `w` low bits. -/
theorem bitsValue_testBit {w u : Nat} (hu : u < 2 ^ w) : bitsValue (fun k => u.testBit (w - 1 - k)) w = u := by
  refine Nat.eq_of_testBit_eq fun i => ?_
  rw [testBit_bitsValue]
  by_cases hi : i < w
  · simp [hi, show w - 1 - (w - 1 - i) = i by omega]
  · have hbig := Nat.pow_le_pow_right (n := 2) (by decide) (not_lt.mp hi)
    simp [hi, Nat.testBit_lt_two_pow (hu.trans_le hbig)]

/-- R59: the bits of field `i` lie in the bit string. -/
theorem fieldBit_lt {w n i k : Nat} (hi : i < n) (hk : k < w) : i * w + k < n * w := calc
  i * w + k < (i + 1) * w := by rw [Nat.succ_mul]; omega
  _ ≤ n * w := Nat.mul_le_mul_right w hi

/-- R59: bit `k` of field `i`. -/
theorem streamBit_field {w : Nat} {us : List Nat} {i k : Nat} (hi : i < us.length) (hk : k < w) :
    streamBit w us (i * w + k) = (us.getD i 0).testBit (w - 1 - k) := by
  have hdiv : (i * w + k) / w = i := by
    rw [Nat.mul_comm, Nat.mul_add_div (by omega), Nat.div_eq_of_lt hk, Nat.add_zero]
  have hmod : (i * w + k) % w = k := by rw [Nat.mul_comm, Nat.mul_add_mod, Nat.mod_eq_of_lt hk]
  simp [streamBit, fieldBit_lt hi hk, hdiv, hmod]

/-- R59, R72: the field read back is the field packed. -/
theorem inputField_packedStream_append {w : Nat} {us : List Nat} {i : Nat} (rest : List Byte) (hi : i < us.length)
    (hu : us.getD i 0 < 2 ^ w) : inputField (packedStream w us ++ rest) w i = us.getD i 0 := by
  rw [inputField, bitsValue_eq_sum (fun k => inputBit _ (i * w + k)) w]
  refine (bitsValue_congr fun k hk => ?_).trans (bitsValue_testBit hu)
  rw [inputBit_packedStream_append rest (fieldBit_lt hi hk), streamBit_field hi hk]

/-! ## Unpacking what was packed (R69, R76) -/

theorem encBits_lt (w : Nat) (v : Int) : encBits w v < 2 ^ w := by
  have hpos : (0 : Int) < 2 ^ w := by positivity
  have hlt := Int.emod_lt_of_pos v hpos
  zify [encBits]
  rwa [Int.toNat_of_nonneg (Int.emod_nonneg v hpos.ne')]

/-- R70, R72: each value comes back as its field sign-extended. -/
theorem unpack_pack_append {w : Nat} (hlo : 1 ≤ w) (hhi : w ≤ 32) (vs : List Int) (rest : List Byte) :
    unpack (pack w vs ++ rest) w vs.length =
      .ok (vs.map fun v => sextBits w (encBits w v), ceilDiv (vs.length * w) 8) := by
  rw [pack_eq_packedStream hlo hhi, unpack_eq hlo hhi (by simp)]
  refine congrArg (fun us => Except.ok (us, _)) (List.ext_getElem (by simp) fun i hi hi' => ?_)
  have hget : (vs.map (encBits w)).getD i 0 = encBits w (vs[i]'(by simpa using hi)) := by
    simp [List.getD_eq_getElem?_getD, show i < vs.length by simpa using hi]
  have hfield := inputField_packedStream_append (w := w) (us := vs.map (encBits w)) rest (i := i)
    (by simpa using hi) (hget ▸ encBits_lt w _)
  rw [List.getElem_map, List.getElem_map, List.getElem_range, hfield, hget]

/-- R69: the sign extension of a packable value's field. -/
theorem sextBits_encBits {w : Nat} {v : Int} (hw : 1 ≤ w) (hlo : -(2 : Int) ^ w ≤ v) (hhi : v ≤ (2 : Int) ^ w - 1) :
    sextBits w (encBits w v) = if (2 : Int) ^ (w - 1) ≤ v then v - 2 ^ w
      else if v < -(2 : Int) ^ (w - 1) then v + 2 ^ w else v := by
  obtain ⟨k, rfl⟩ : ∃ k, w = k + 1 := ⟨w - 1, by omega⟩
  have hpow : (2 : Int) ^ (k + 1) = 2 * 2 ^ k := pow_succ' 2 k
  have hpos : (0 : Int) < 2 ^ k := by positivity
  have hmod : v % 2 ^ (k + 1) = if v < 0 then v + 2 ^ (k + 1) else v := by
    split
    · rw [← Int.add_emod_right, Int.emod_eq_of_lt (by omega) (by omega)]
    · exact Int.emod_eq_of_lt (by omega) (by omega)
  have hnonneg := Int.emod_nonneg v (show (2 : Int) ^ (k + 1) ≠ 0 by omega)
  have hcond : (v % 2 ^ (k + 1)).toNat < 2 ^ k ↔ v % 2 ^ (k + 1) < 2 ^ k := by
    zify
    rw [Int.toNat_of_nonneg hnonneg]
  simp only [sextBits, encBits, Nat.add_sub_cancel, hcond, Int.toNat_of_nonneg hnonneg]
  rw [hmod, hpow]
  rw [hpow] at hlo hhi
  generalize (2 : Int) ^ k = p at *
  split_ifs <;> omega

/-- R76: in the two's-complement range a value comes back unchanged. -/
theorem sextBits_encBits_of_range {w : Nat} {v : Int} (hw : 1 ≤ w) (hlo : -(2 : Int) ^ (w - 1) ≤ v)
    (hhi : v ≤ (2 : Int) ^ (w - 1) - 1) : sextBits w (encBits w v) = v := by
  have hpow : (2 : Int) ^ (w - 1) ≤ 2 ^ w := pow_le_pow_right₀ (by decide) (Nat.sub_le w 1)
  rw [sextBits_encBits hw (by omega) (by omega), if_neg (by omega), if_neg (by omega)]

theorem unpack_pack_append_of_range {w : Nat} (hlo : 1 ≤ w) (hhi : w ≤ 32) {vs : List Int} (rest : List Byte)
    (hv : ∀ v ∈ vs, -(2 : Int) ^ (w - 1) ≤ v ∧ v ≤ (2 : Int) ^ (w - 1) - 1) :
    unpack (pack w vs ++ rest) w vs.length = .ok (vs, ceilDiv (vs.length * w) 8) := by
  have hid : vs.map (fun v => sextBits w (encBits w v)) = vs :=
    (List.map_congr_left fun v hm => sextBits_encBits_of_range hlo (hv v hm).1 (hv v hm).2).trans (List.map_id' vs)
  rw [unpack_pack_append hlo hhi, hid]

/-- Settles O29: each value comes back as its field sign-extended, which is the value or `2^w` away from it. -/
theorem unrepresentableValuesWrap : Obligations.UnrepresentableValuesWrap := by
  intro w vs hlo hhi hv
  have hwrap := List.map_congr_left fun v hm => sextBits_encBits hlo (hv v hm).1 (hv v hm).2
  have hunpack := unpack_pack_append hlo hhi vs []
  rw [List.append_nil, hwrap] at hunpack
  exact hunpack

/-- R74: what a PACK that completes has checked, and what it answers. -/
theorem exec_pack_out {w : Byte} {vs : List DoubleWord} {bytes : List Byte} {s t : State} (hf : s.faulted = false)
    (ho : s.operand = .values vs) (h : exec (.pack w) s = .next t) (hr : t.result = some (.ok (.out bytes))) :
    legalWidth w = true ∧ bytes = pack w.toNat (vs.map BitVec.toInt) := by
  have hk : Safety.kindOk (.pack w) s.operand = true := by rw [ho]; rfl
  cases hw : legalWidth w with
  | false =>
    cases h.symm.trans ((exec_argumentChecked (.pack w) s).illegal hf hk hw)
    cases hr
  | true =>
    cases hv : (vs.map BitVec.toInt).all (packable w.toNat) with
    | false =>
      cases h.symm.trans (exec_pack_range hf ho hw hv)
      cases hr
    | true =>
      cases h.symm.trans (exec_pack_ok hf ho hw hv)
      cases hr
      exact ⟨rfl, rfl⟩

/-- Settles O27: the unpacker gives back the sequence the packer's bytes come from, and the commands are the two. -/
theorem packUnpackRoundTrip : Obligations.PackUnpackRoundTrip := by
  refine ⟨fun w vs rest hlo hhi hv => unpack_pack_append_of_range hlo hhi rest hv,
    fun w n vs bytes rest s t hf hn hv h hr => ?_⟩
  obtain ⟨hw, rfl⟩ := exec_pack_out (s := { s with operand := .values vs }) hf rfl h hr
  obtain ⟨hlo, hhi⟩ := legalWidth_iff.mp hw
  have hunpack := unpack_pack_append_of_range hlo hhi (vs := vs.map BitVec.toInt) rest (by simpa using hv)
  rw [List.length_map, ← hn] at hunpack
  rw [← hn]
  exact exec_unpack_ok (s := { s with operand := .countBytes n _ }) hf rfl hw hunpack

end Sys2Proof.Machine

/-!
SUPPORT. The snake order as a bijection (R95), the deltas of a frame (R96, R97), and the bit width (R13, R98 to R100):
what it is, that it is enough, and when it is the least that is.
-/

namespace Sys2Proof.Machine

/-! ## The snake order (R95) -/

/-- Settles O40: turning every second row around stays in its row, and undoes itself. -/
theorem snakeOrderVisitsEveryPixelOnce : Obligations.SnakeOrderVisitsEveryPixelOnce := fun _ cols _ hc =>
  ⟨snakeOrder_length _ _, fun _ => snakePos_lt hc, fun _ _ _ _ h => (snakePos_involutive hc).injective h,
    fun j hj => ⟨snakePos cols j, snakePos_lt hc hj, snakePos_involutive hc j⟩⟩

/-! ## Deltas (R96, R97) -/

/-- R97: the adjacent delta at index `i`. -/
theorem adjacentDeltas_getD {d : List Int} {i : Nat} (hi : i + 1 < d.length) :
    (adjacentDeltas d).getD i 0 = d.getD (i + 1) 0 - d.getD i 0 := by
  induction d using adjacentDeltas.induct generalizing i with
  | case1 => simp at hi
  | case2 a => simp at hi
  | case3 a b ds ih =>
    cases i with
    | zero => rfl
    | succ i => exact ih (i := i) (by simpa using hi)

/-- R96: the range of a delta. -/
theorem snakeDeltas_range {cols n k : Nat} (cur : List Pixel) (prev : FrameBuffer) (hk : k < n) :
    -65535 ≤ (snakeDeltas cols n cur prev).getD k 0 ∧ (snakeDeltas cols n cur prev).getD k 0 ≤ 65535 := by
  have hcur := (cur.getD (snakePos cols k) 0#16).isLt
  have hprev := (FrameBuffer.load prev (snakePos cols k)).isLt
  rw [snakeDeltas_getD cur prev hk]
  omega

/-- Settles O41: the elements are those of the definitions; the ranges are those of a difference of pixels, and of a
difference of two of these. -/
theorem deltaSequences : Obligations.DeltaSequences := by
  intro cols n cur prev
  have hlen := snakeDeltas_length cols n cur prev
  refine ⟨hlen, by rw [adjacentDeltas_length, hlen],
    fun k hk => ⟨snakeDeltas_getD cur prev hk, snakeDeltas_range cur prev hk⟩, fun i hi => ?_⟩
  have hadj := adjacentDeltas_getD (d := snakeDeltas cols n cur prev) (hlen.symm ▸ hi)
  have hnext := snakeDeltas_range (cols := cols) cur prev hi
  have hthis := snakeDeltas_range (cols := cols) cur prev (Nat.lt_of_succ_lt hi)
  exact ⟨hadj, by omega, by omega⟩

/-! ## The bit length (R13) -/

theorem lt_two_pow_bitLength (m : Nat) : m < 2 ^ bitLength m := by
  by_cases hm : m = 0
  · rw [hm]
    decide
  · rw [bitLength_of_pos hm]
    exact Nat.lt_log2_self

theorem bitLength_two_pow (j : Nat) : bitLength (2 ^ j) = j + 1 := by
  rw [bitLength_of_pos (by positivity), Nat.log2_two_pow]

/-- Settles O42: the bit length is enough, and no smaller number is. -/
theorem bitLengthIsLeast : Obligations.BitLengthIsLeast :=
  ⟨fun m => ⟨lt_two_pow_bitLength m, fun _ => bitLength_le_of_lt_two_pow⟩, rfl, bitLength_two_pow 0,
    bitLength_two_pow 2⟩

/-! ## The bit width (R98, R99) -/

/-- R98: the largest magnitude is the magnitude of some value. -/
theorem exists_natAbs_eq_maxMagnitude {adj : List Int} (h : adj ≠ []) : ∃ a ∈ adj, a.natAbs = maxMagnitude adj := by
  induction adj with
  | nil => exact absurd rfl h
  | cons a as ih =>
    rcases Nat.le_total (maxMagnitude as) a.natAbs with hle | hle
    · exact ⟨a, List.mem_cons_self, (max_eq_left hle).symm⟩
    · by_cases has : as = []
      · subst has
        exact ⟨a, List.mem_cons_self, (max_eq_left (Nat.zero_le _)).symm⟩
      · obtain ⟨b, hb, hbm⟩ := ih has
        exact ⟨b, List.mem_cons_of_mem a hb, hbm.trans (max_eq_right hle).symm⟩

theorem maxMagnitude_eq_zero {adj : List Int} (h : ∀ a ∈ adj, a = 0) : maxMagnitude adj = 0 :=
  Nat.le_zero.mp (maxMagnitude_le fun a ha => by rw [h a ha]; exact le_rfl)

/-- Settles O43: `M` is `maxMagnitude`, and a frame's is below `2^17`. -/
theorem frameBitWidthFormula : Obligations.FrameBitWidthFormula :=
  ⟨fun adj hne => ⟨maxMagnitude adj, rfl, exists_natAbs_eq_maxMagnitude hne, fun _ => natAbs_le_maxMagnitude⟩,
    fun cols n cur prev => ⟨one_le_frameBitWidth _, frameBitWidth_snakeDeltas_le cols n cur prev⟩,
    fun adj h => by rw [frameBitWidth, maxMagnitude_eq_zero h]; rfl⟩

/-- R99: the two's-complement range of the bit width holds every value. -/
theorem range_of_mem_frameBitWidth {adj : List Int} {a : Int} (ha : a ∈ adj) :
    -(2 : Int) ^ (frameBitWidth adj - 1) ≤ a ∧ a ≤ (2 : Int) ^ (frameBitWidth adj - 1) - 1 := by
  have hlt := (natAbs_le_maxMagnitude ha).trans_lt (lt_two_pow_bitLength _)
  zify at hlt
  obtain ⟨hlo, hhi⟩ := abs_lt.mp hlt
  rw [frameBitWidth, Nat.add_sub_cancel]
  exact ⟨hlo.le, by omega⟩

theorem packable_of_mem_frameBitWidth {adj : List Int} {a : Int} (ha : a ∈ adj) :
    packable (frameBitWidth adj) a = true := by
  obtain ⟨hlo, hhi⟩ := range_of_mem_frameBitWidth ha
  have hpow : (2 : Int) ^ (frameBitWidth adj - 1) ≤ 2 ^ frameBitWidth adj :=
    pow_le_pow_right₀ (by decide) (Nat.sub_le _ 1)
  exact packable_iff.mpr ⟨by omega, by omega⟩

/-- R99: the packed deltas, with any bytes after them, unpack unchanged. -/
theorem unpack_pack_frameBitWidth {adj : List Int} (hw : frameBitWidth adj ≤ 32) (rest : List Byte) :
    unpack (pack (frameBitWidth adj) adj ++ rest) (frameBitWidth adj) adj.length =
      .ok (adj, ceilDiv (adj.length * frameBitWidth adj) 8) :=
  unpack_pack_append_of_range (one_le_frameBitWidth adj) hw rest fun _ => range_of_mem_frameBitWidth

/-- Settles O44: the range of the bit width holds the values, so packing gives them back. -/
theorem deltasFitBitWidth : Obligations.DeltasFitBitWidth := by
  refine ⟨fun adj a ha => ⟨(range_of_mem_frameBitWidth ha).1, (range_of_mem_frameBitWidth ha).2,
    packable_of_mem_frameBitWidth ha⟩, fun cols n cur prev => ?_⟩
  have hw := frameBitWidth_snakeDeltas_le cols n cur prev
  simpa using unpack_pack_frameBitWidth (hw.trans (by decide)) []

/-! ## Where the bit width is the least (R100) -/

/-- R100: the largest magnitude is `2^j`, and `+2^j` does not occur. -/
def OnlyNegativePower (adj : List Int) (j : Nat) : Prop := maxMagnitude adj = 2 ^ j ∧ ((2 : Int) ^ j) ∉ adj

theorem fits_frameBitWidth (adj : List Int) : Safety.fits (frameBitWidth adj) adj :=
  ⟨one_le_frameBitWidth adj, fun _ => range_of_mem_frameBitWidth⟩

/-- R100: where a width below R98's is enough, the largest magnitude is the negative end of that width's range. -/
theorem onlyNegativePower_of_fits {adj : List Int} {w : Nat} (hne : adj ≠ []) (hfit : Safety.fits w adj)
    (hlt : w < frameBitWidth adj) : OnlyNegativePower adj (w - 1) := by
  obtain ⟨hw, hrange⟩ := hfit
  obtain ⟨a, ha, hmax⟩ := exists_natAbs_eq_maxMagnitude hne
  have hbig : 2 ^ (w - 1) ≤ maxMagnitude adj := by
    by_contra hsmall
    have hle := bitLength_le_of_lt_two_pow (not_le.mp hsmall)
    rw [frameBitWidth] at hlt
    omega
  obtain ⟨hlo, hhi⟩ := hrange a ha
  have hsmall : |a| ≤ (2 : Int) ^ (w - 1) := abs_le.mpr ⟨hlo, by omega⟩
  zify at hbig hmax
  refine ⟨by zify; omega, fun hmem => ?_⟩
  have htop := (hrange _ hmem).2
  omega

theorem frameBitWidth_of_onlyNegativePower {adj : List Int} {j : Nat} (h : OnlyNegativePower adj j) :
    frameBitWidth adj - 1 = j + 1 := by
  rw [frameBitWidth, h.1, bitLength_two_pow, Nat.add_sub_cancel]

/-- R100: the range of `j + 1` bits holds every value of magnitude at most `2^j` but `+2^j`. -/
theorem fits_of_onlyNegativePower {adj : List Int} {j : Nat} (h : OnlyNegativePower adj j) :
    Safety.fits (j + 1) adj := by
  obtain ⟨hmax, hnot⟩ := h
  refine ⟨Nat.le_add_left 1 j, fun a ha => ?_⟩
  have hle := natAbs_le_maxMagnitude ha
  have hne : a ≠ (2 : Int) ^ j := fun heq => hnot (heq ▸ ha)
  rw [hmax] at hle
  zify at hle
  obtain ⟨hlo, hhi⟩ := abs_le.mp hle
  rw [Nat.add_sub_cancel]
  exact ⟨hlo, by omega⟩

/-- R100: `-2^j` occurs, and needs `j + 1` bits. -/
theorem le_of_fits_onlyNegativePower {adj : List Int} {j w : Nat} (hne : adj ≠ []) (h : OnlyNegativePower adj j)
    (hfit : Safety.fits w adj) : j + 1 ≤ w := by
  obtain ⟨hmax, hnot⟩ := h
  obtain ⟨hw, hrange⟩ := hfit
  obtain ⟨a, ha, hamax⟩ := exists_natAbs_eq_maxMagnitude hne
  have hne : a ≠ (2 : Int) ^ j := fun heq => hnot (heq ▸ ha)
  have hlo := (hrange a ha).1
  rw [hmax] at hamax
  zify at hamax
  have hneg : a = -(2 : Int) ^ j := ((abs_eq (by positivity)).mp hamax).resolve_left hne
  have hpow : (2 : Int) ^ j ≤ 2 ^ (w - 1) := by omega
  have hj := (pow_le_pow_iff_right₀ (show (1 : Int) < 2 by decide)).mp hpow
  omega

/-- Settles O45: a smaller width that holds the values makes the largest magnitude the negative end of its range; and
where that is the case one bit less is enough, and needed for it. -/
theorem bitWidthMinimalExceptNegativePower : Obligations.BitWidthMinimalExceptNegativePower := by
  refine fun adj hne => ⟨fun hnot => ⟨fits_frameBitWidth adj, fun w hfit => ?_⟩, fun ⟨j, hj⟩ => ?_⟩
  · by_contra hlt
    exact hnot ⟨w - 1, onlyNegativePower_of_fits hne hfit (not_le.mp hlt)⟩
  · rw [frameBitWidth_of_onlyNegativePower hj]
    exact ⟨fits_of_onlyNegativePower hj, fun w => le_of_fits_onlyNegativePower hne hj⟩

end Sys2Proof.Machine

/-!
SUPPORT. The tagged fields as a whole (R80, R91 to R93, R43): what a decode of an encoded section gives back, which
fields it tolerates, what it does with an input cut short, and that it reads no further than it consumes.
-/

namespace Sys2Proof.Machine

/-! ## Timestamps (R80) -/

theorem typeOf_eq_ts_iff {code : Byte} : typeOf code = .ts ↔ code = 0x54#8 := by
  revert code
  decide

/-- Settles O39: the raw types are read off the code table. -/
theorem timestampCodeIsT : Obligations.TimestampCodeIsT := ⟨fun _ => typeOf_eq_ts_iff, rfl, rfl⟩

/-! ## Commands that complete -/

/-- R115: a command that completes was given an operand of its kind in a block not faulted, and passed its own
checks. -/
theorem command_completed {α : Type} {s t : State} {op : Option α} {body : α → Except FaultCode State} {o : Outputs}
    (h : command s false op body = .next t) (hr : t.result = some (.ok o)) :
    s.faulted = false ∧ ∃ a, op = some a ∧ body a = .ok t := by
  rcases command_cases s false op body with
    ⟨-, -, h'⟩ | ⟨-, -, h'⟩ | ⟨a, e, -, -, -, h'⟩ | ⟨a, u, hf, ha, hb, h'⟩ <;> cases h.symm.trans h'
  · cases hr
  · cases hr
  · cases hr
  · exact ⟨hf.resolve_right nofun, a, ha, hb⟩

theorem exec_sectionEnc_completed {tag : Byte} {fs : List (Byte × FieldValue)} {out : List Byte} {s t : State}
    (ho : s.operand = .fields fs) (h : exec (.sectionEnc tag) s = .next t) (hr : t.result = some (.ok (.out out))) :
    s.faulted = false ∧ legalTag tag = true ∧ encodeSection tag fs = .ok out ∧ t = s.complete (.out out) := by
  simp only [exec, execSectionEnc, ho] at h
  obtain ⟨hf, a, ha, hb⟩ := command_completed h hr
  cases ha
  split at hb
  · cases hb
  next htag =>
    cases hs : encodeSection tag fs with
    | error e => rw [hs] at hb; cases hb
    | ok bytes =>
      rw [hs] at hb
      cases hb
      cases hr
      exact ⟨hf, by simpa using htag, rfl, rfl⟩

theorem exec_fieldDec_completed {a : Byte} {input : List Byte} {s t : State} {o : Outputs}
    (ho : s.operand = .bytes input) (h : exec (.fieldDec a) s = .next t) (hr : t.result = some (.ok o)) :
    s.faulted = false ∧ a = 0#8 ∧ ∃ r, decodeField s.params input 0 = .ok r ∧
      t = (s.noteOverflow r.overflow).complete (.field r.field r.next) := by
  simp only [exec, execFieldDec, ho] at h
  obtain ⟨hf, a, ha, hb⟩ := command_completed h hr
  cases ha
  split at hb
  · cases hb
  next hzero =>
    cases hd : decodeField s.params input 0 with
    | error e => rw [hd] at hb; cases hb
    | ok r =>
      rw [hd] at hb
      cases hb
      exact ⟨hf, zeroArg_iff.mp (by simpa using hzero), r, rfl, rfl⟩

theorem exec_sectionDec_completed {tag : Byte} {input : List Byte} {s t : State} {o : Outputs}
    (ho : s.operand = .bytes input) (h : exec (.sectionDec tag) s = .next t) (hr : t.result = some (.ok o)) :
    s.faulted = false ∧ legalTag tag = true ∧ ∃ cnt body r, input = tag :: cnt :: body ∧
      decodeFields s.params input cnt.toNat 2 = .ok r ∧
      t = (s.noteOverflow r.overflow).complete (.fields tag r.fields r.next) := by
  simp only [exec, execSectionDec, ho] at h
  obtain ⟨hf, a, ha, hb⟩ := command_completed h hr
  cases ha
  split at hb
  · cases hb
  next htag =>
    refine ⟨hf, by simpa using htag, ?_⟩
    match input with
    | [] => cases hb; cases hr
    | [first] => simp only at hb; split at hb <;> cases hb
    | first :: cnt :: body =>
      simp only at hb
      split at hb
      · cases hb
      next hfirst =>
        obtain rfl : first = tag := not_not.mp hfirst
        simp only [memReadByte, List.getElem?_cons_succ, List.getElem?_cons_zero, bind, Except.bind] at hb
        cases hd : decodeFields s.params (first :: cnt :: body) cnt.toNat 2 with
        | error e => rw [hd] at hb; cases hb
        | ok r =>
          rw [hd] at hb
          cases hb
          exact ⟨cnt, body, r, rfl, hd, rfl⟩

theorem exec_unpack_completed {w : Byte} {n : Word} {input : List Byte} {s t : State} {o : Outputs}
    (ho : s.operand = .countBytes n input) (h : exec (.unpack w) s = .next t) (hr : t.result = some (.ok o)) :
    s.faulted = false ∧ legalWidth w = true ∧ ∃ vs pos, unpack input w.toNat n.toNat = .ok (vs, pos) ∧
      t = s.complete (.values vs pos) := by
  simp only [exec, execUnpack, ho] at h
  obtain ⟨hf, a, ha, hb⟩ := command_completed h hr
  cases ha
  simp only at hb
  split at hb
  · cases hb
  next hw =>
    split at hb
    · cases hb
    next vs pos hu =>
      cases hb
      exact ⟨hf, by simpa using hw, vs, pos, hu, rfl⟩

/-! ## Decoding what was encoded (R82, R87, R93) -/

theorem valueOf_bytes (v : FieldValue) : valueOf v.rawType v.bytes = v := by
  cases v with
  | u8 n => simp [FieldValue.rawType, FieldValue.bytes, valueOf, fromLe]
  | u32 n | f32 n =>
    have hn : n.toNat < 256 ^ 4 := n.isLt
    simp [FieldValue.rawType, FieldValue.bytes, valueOf, fromLe_leBytes 4 _ hn]
  | u64 n | ts n =>
    have hn : n.toNat < 256 ^ 8 := n.isLt
    simp [FieldValue.rawType, FieldValue.bytes, valueOf, fromLe_leBytes 8 _ hn]
  | str s | blob s => rfl

/-- R82, R87: the value bytes of a fixed-size type have its size. -/
theorem bytes_length_of_size? {v : FieldValue} {n : Nat} (h : v.rawType.size? = some n) : n = v.bytes.length := by
  cases v <;> cases h <;> rfl

/-- R85, R93: a timestamp that the host's type can hold. -/
def timestampOk (ps : Params) (v : FieldValue) : Prop := ∀ us, v = .ts us → us.toNat ≤ ps.tsMaxUs

/-- R84, R93: a string that passes the check, where there is one. -/
def stringOk (ps : Params) (v : FieldValue) : Prop :=
  ∀ bs, v = .str bs → ps.stringCheck = .utf8 → wellFormedUtf8 bs = true

/-- R81, R93: the field a decode gives back for a code and its value. -/
def asDecoded (f : Byte × FieldValue) : DecodedField := ⟨f.1, f.2.rawType, f.2⟩

/-- R87: an encoded field, with what a decode makes of it. -/
def pieceOf (f : Byte × FieldValue) : List Byte × FieldRead :=
  (fieldFormat f.1 f.2.bytes, ⟨asDecoded f, (fieldFormat f.1 f.2.bytes).length, false⟩)

theorem toNat_ofNat_byte {n : Nat} (h : n ≤ 255) : (BitVec.ofNat 8 n : Byte).toNat = n := by
  rw [BitVec.toNat_ofNat, Nat.mod_eq_of_lt (by omega)]

/-- R87: an encoded field decodes to its code and value. -/
theorem decodesAs_pieceOf {ps : Params} {f : Byte × FieldValue} (h : Safety.encodable f) (hts : timestampOk ps f.2)
    (hstr : stringOk ps f.2) : Safety.decodesAs ps (pieceOf f) := by
  obtain ⟨code, v⟩ := f
  obtain ⟨htype, hlen⟩ := h
  refine ⟨?_, rfl⟩
  by_cases ht : typeOf code = .ts
  · obtain ⟨us, rfl⟩ : ∃ us, v = .ts us := by
      rw [ht] at htype
      cases v <;> cases htype
      exact ⟨_, rfl⟩
    have hread : memRead (fieldFormat code (FieldValue.ts us).bytes) 2 8 = .ok (leBytes 8 us.toNat) :=
      (memRead_value_ok (leBytes_length 8 _).ge).trans (by rw [List.take_of_length_le (leBytes_length 8 _).le])
    have hval : fromLe (leBytes 8 us.toNat) = us.toNat := fromLe_leBytes 8 _ us.isLt
    refine (decodeField_timestamp ht).trans (decodeTimestamp_eq_ok.mpr ⟨_, hread, ?_⟩)
    rw [hval, if_neg (not_lt.mpr (hts us rfl))]
    exact congrArg (fun x => FieldRead.mk ⟨code, .ts, x⟩ 10 false) (valueOf_bytes (.ts us)).symm
  · have hlen' : (BitVec.ofNat 8 v.bytes.length).toNat = v.bytes.length :=
      toNat_ofNat_byte hlen
    have hread : memRead (fieldFormat code v.bytes) 2 v.bytes.length = .ok v.bytes :=
      (memRead_value_ok le_rfl).trans (by rw [List.take_length])
    have hcheck : checkValue ps v.rawType v.bytes.length v.bytes = none := by
      refine checkValue_eq_none (fun n hn => bytes_length_of_size? hn) fun hs hu => ?_
      cases v <;> cases hs
      exact hstr _ rfl hu
    refine (decodeField_plain ht).trans ?_
    rw [hlen']
    refine decodePlain_eq_ok.mpr ⟨_, hread, htype ▸ hcheck, ?_⟩
    rw [← htype, valueOf_bytes]
    have hnext : 0 + 2 + v.bytes.length = (fieldFormat code v.bytes).length := by
      rw [fieldFormat, List.length_cons, List.length_cons]
      omega
    rw [hnext]
    rfl

/-- R90: what a section that was encoded consists of. -/
theorem encodeFields_eq_ok {fs : List (Byte × FieldValue)} {bytes : List Byte} (h : encodeFields fs = .ok bytes) :
    (∀ f ∈ fs, Safety.encodable f) ∧ bytes = ((fs.map pieceOf).map Prod.fst).flatten := by
  induction fs generalizing bytes with
  | nil => cases h; exact ⟨nofun, rfl⟩
  | cons f fs ih =>
    obtain ⟨code, v⟩ := f
    rw [encodeFields] at h
    cases hv : encodeField code v with
    | error e => rw [hv] at h; cases h
    | ok x =>
      cases hfs : encodeFields fs with
      | error e => rw [hv, hfs] at h; cases h
      | ok y =>
        rw [hv, hfs] at h
        cases h
        obtain ⟨htype, hlen, rfl⟩ := encodeField_eq_ok.mp hv
        obtain ⟨hall, rfl⟩ := ih hfs
        exact ⟨List.forall_mem_cons.mpr ⟨⟨htype, hlen⟩, hall⟩, rfl⟩

theorem encodeSection_eq_ok {tag : Byte} {fs : List (Byte × FieldValue)} {out : List Byte}
    (h : encodeSection tag fs = .ok out) :
    fs.length ≤ 255 ∧ (fs.map Prod.fst).Nodup ∧ (∀ f ∈ fs, Safety.encodable f) ∧
      out = tag :: BitVec.ofNat 8 fs.length :: ((fs.map pieceOf).map Prod.fst).flatten := by
  by_cases hlen : fs.length ≤ 255
  · by_cases hnodup : (fs.map Prod.fst).Nodup
    · rw [encodeSection_of_nodup hlen hnodup] at h
      cases hfs : encodeFields fs with
      | error e => rw [hfs] at h; cases h
      | ok body =>
        rw [hfs] at h
        cases h
        obtain ⟨hall, rfl⟩ := encodeFields_eq_ok hfs
        exact ⟨hlen, hnodup, hall, rfl⟩
    · rw [encodeSection_dupField hlen hnodup] at h
      cases h
  · rw [encodeSection_fieldCount (not_le.mp hlen)] at h
    cases h

/-- R91: a section of as many fields that decode as its count byte says. -/
theorem exec_sectionDec_pieces {tag : Byte} {pieces : List (List Byte × FieldRead)} {input rest : List Byte}
    {s : State} (hf : s.faulted = false) (ho : s.operand = .bytes input) (htag : legalTag tag = true)
    (hlen : pieces.length ≤ 255)
    (hin : input = tag :: BitVec.ofNat 8 pieces.length :: ((pieces.map Prod.fst).flatten ++ rest))
    (hp : ∀ p ∈ pieces, Safety.decodesAs s.params p) :
    exec (.sectionDec tag) s = .next ((s.noteOverflow (pieces.any fun p => p.2.overflow)).complete
      (.fields tag (pieces.map fun p => p.2.field) (2 + (pieces.map Prod.fst).flatten.length))) := by
  have hd := decodeFields_pieces_ok hp [tag, BitVec.ofNat 8 pieces.length] rest
  refine exec_sectionDec_ok (cnt := BitVec.ofNat 8 pieces.length) (r := ⟨_, 2 + _, _⟩) hf (hin ▸ ho) htag ?_
  rw [toNat_ofNat_byte hlen]
  exact hd

/-- R93: an encoded section decodes to the fields it was made of. -/
theorem exec_sectionDec_of_encodeSection {tag : Byte} {fs : List (Byte × FieldValue)} {out rest : List Byte}
    {s : State} (hf : s.faulted = false) (ho : s.operand = .bytes (out ++ rest)) (htag : legalTag tag = true)
    (henc : encodeSection tag fs = .ok out) (hts : ∀ f ∈ fs, timestampOk s.params f.2)
    (hstr : ∀ f ∈ fs, stringOk s.params f.2) :
    exec (.sectionDec tag) s = .next (s.complete (.fields tag (fs.map asDecoded) out.length)) := by
  obtain ⟨hlen, -, hall, rfl⟩ := encodeSection_eq_ok henc
  have hpieces : ∀ p ∈ fs.map pieceOf, Safety.decodesAs s.params p := by
    intro p hp
    obtain ⟨f, hmem, rfl⟩ := List.mem_map.mp hp
    exact decodesAs_pieceOf (hall f hmem) (hts f hmem) (hstr f hmem)
  have hovf : (fs.map pieceOf).any (fun p => p.2.overflow) = false := by simp [pieceOf]
  have hfields : (fs.map pieceOf).map (fun p => p.2.field) = fs.map asDecoded := by
    rw [List.map_map]; rfl
  rw [exec_sectionDec_pieces hf ho htag (by rwa [List.length_map]) (by rw [List.length_map]; rfl) hpieces, hovf,
    hfields, List.length_cons, List.length_cons, Nat.add_comm]
  rfl

/-- Settles O34: the section consists of the encoded fields, each of which decodes to its code and value. -/
theorem sectionRoundTrip : Obligations.SectionRoundTrip := by
  intro tag fs out rest s t hf h hr hts hstr
  obtain ⟨-, htag, henc, -⟩ := exec_sectionEnc_completed (s := { s with operand := .fields fs }) rfl h hr
  exact exec_sectionDec_of_encodeSection (s := { s with operand := .bytes (out ++ rest) }) hf rfl htag henc
    (fun f hmem us hv => hts f.1 us (hv ▸ hmem)) (fun f hmem bs hv hu => hstr hu f.1 bs (hv ▸ hmem))

/-! ## Fields of an unlisted code (R92) -/

/-- Settles O35: the extra field is one more that decodes, whatever its bytes. -/
theorem unknownFieldTolerated : Obligations.UnknownFieldTolerated := by
  intro tag code before after value rest s hf htag htype hlen hcount hp
  have hextra : Safety.decodesAs s.params (pieceOf (code, .blob value)) :=
    decodesAs_pieceOf ⟨htype.symm, hlen⟩ nofun nofun
  have hp' : ∀ p ∈ before ++ pieceOf (code, .blob value) :: after, Safety.decodesAs s.params p := by
    simp only [List.forall_mem_append, List.forall_mem_cons] at hp ⊢
    exact ⟨hp.1, hextra, hp.2⟩
  refine ⟨_, _, 2 + ((before ++ after).map Prod.fst).flatten.length,
    exec_sectionDec_pieces (pieces := before ++ after) (rest := rest) (s := { s with operand := .bytes _ }) hf rfl
      (legalTag_iff.mpr htag) ?_ ?_ hp, rfl,
    exec_sectionDec_pieces (pieces := before ++ pieceOf (code, .blob value) :: after) (rest := rest)
      (s := { s with operand := .bytes _ }) hf rfl (legalTag_iff.mpr htag) ?_ ?_ hp', ?_, ?_⟩
  · rw [List.length_append]
    exact hcount.le
  · simp
  · rw [List.length_append, List.length_cons]
    exact hcount
  · simp [pieceOf, FieldValue.bytes, Nat.add_assoc]
  · simp [pieceOf, asDecoded, fieldFormat, FieldValue.rawType, FieldValue.bytes]
    omega
  · rw [List.any_append, List.any_append, List.any_cons, State.complete_status, State.complete_status,
      State.noteOverflow_status, State.noteOverflow_status]
    rfl

/-! ## Reading no further than what is consumed (R43) -/

/-- A computation that reads no byte beyond the input's end keeps what it answers when bytes are appended: `r` is
what it answers, `r'` what it answers then. -/
def Stable {α : Type} (r r' : Except FaultCode α) : Prop := r ≠ .error .truncated → r' = r

theorem Stable.refl {α : Type} (r : Except FaultCode α) : Stable r r := fun _ => rfl

theorem Stable.bind {α β : Type} {r r' : Except FaultCode α} {k k' : α → Except FaultCode β} (hr : Stable r r')
    (hk : ∀ a, Stable (k a) (k' a)) : Stable (r >>= k) (r' >>= k') := by
  intro h
  cases r with
  | error e =>
    have he : Except.error e ≠ (.error .truncated : Except FaultCode α) := fun he => by cases he; exact h rfl
    rw [hr he]
    rfl
  | ok a =>
    rw [hr nofun]
    exact hk a h

theorem memRead_stable (input rest : List Byte) (p n : Nat) :
    Stable (memRead input p n) (memRead (input ++ rest) p n) := by
  intro h
  cases hr : memRead input p n with
  | error e => exact absurd (memRead_error hr ▸ hr) h
  | ok bs => exact memRead_append rest hr

theorem memReadByte_stable (input rest : List Byte) (p : Nat) :
    Stable (memReadByte input p) (memReadByte (input ++ rest) p) := by
  intro h
  cases hr : memReadByte input p with
  | error e => exact absurd ((memReadByte_eq_error.mp hr).2 ▸ hr) h
  | ok b => exact memReadByte_eq_ok.mpr (getElem?_append_eq_some rest (memReadByte_eq_ok.mp hr))

theorem decodeField_stable (ps : Params) (input rest : List Byte) (p : Nat) :
    Stable (decodeField ps input p) (decodeField ps (input ++ rest) p) := by
  refine .bind (memReadByte_stable _ _ _) fun len => .bind (memReadByte_stable _ _ _) fun code => ?_
  split
  · exact .bind (memRead_stable _ _ _ _) fun _ => .refl _
  · exact .bind (memRead_stable _ _ _ _) fun _ => .refl _

theorem decodeFields_stable (ps : Params) (input rest : List Byte) (n p : Nat) :
    Stable (decodeFields ps input n p) (decodeFields ps (input ++ rest) n p) := by
  induction n generalizing p with
  | zero => exact .refl _
  | succ n ih => exact .bind (decodeField_stable _ _ _ _) fun f => .bind (ih f.next) fun _ => .refl _

theorem inputBit_append {input : List Byte} (rest : List Byte) {j : Nat} (hj : j < 8 * input.length) :
    inputBit (input ++ rest) j = inputBit input j := by
  have hlt : j / 8 < input.length := by omega
  simp [inputBit, List.getD_eq_getElem?_getD, List.getElem?_append_left hlt]

/-- R72: the unpacker reads the bits of its fields, which lie in the bytes it consumes. -/
theorem unpack_stable {w : Nat} (hlo : 1 ≤ w) (hhi : w ≤ 32) (input rest : List Byte) (n : Nat) :
    Stable (unpack input w n) (unpack (input ++ rest) w n) := by
  intro h
  have hlen : ceilDiv (n * w) 8 ≤ input.length := not_lt.mp fun hshort => h (unpack_truncated hshort)
  have hfield : ∀ i ∈ List.range n,
      sextBits w (inputField (input ++ rest) w i) = sextBits w (inputField input w i) := by
    intro i hi
    refine congrArg _ (inputField_congr fun k hk => inputBit_append rest ?_)
    have hbit := fieldBit_lt (List.mem_range.mp hi) hk
    rw [ceilDiv_eight] at hlen
    omega
  rw [unpack_eq hlo hhi hlen, unpack_eq hlo hhi (by rw [List.length_append]; omega), List.map_congr_left hfield]

/-- Settles O37: what the decoders answer stands when bytes are appended. -/
theorem trailingBytesNotRead : Obligations.TrailingBytesNotRead := by
  refine ⟨?_, fun w n input rest s t o h hr => ?_⟩
  · rintro i a input rest s t o (rfl | rfl) h hr
    · obtain ⟨hf, rfl, r, hd, rfl⟩ := exec_fieldDec_completed (s := { s with operand := .bytes input }) rfl h hr
      have hd' := (decodeField_stable _ _ rest _ (hd ▸ nofun)).trans hd
      rw [exec_fieldDec_ok (s := { s with operand := .bytes (input ++ rest) }) hf rfl hd',
        State.complete_noteOverflow, State.complete_noteOverflow]
    · obtain ⟨hf, htag, cnt, body, r, rfl, hd, rfl⟩ :=
        exec_sectionDec_completed (s := { s with operand := .bytes input }) rfl h hr
      have hd' := (decodeFields_stable _ _ rest _ _ (hd ▸ nofun)).trans hd
      rw [exec_sectionDec_ok (s := { s with operand := .bytes (a :: cnt :: body ++ rest) }) hf rfl htag hd',
        State.complete_noteOverflow, State.complete_noteOverflow]
  · obtain ⟨hf, hw, vs, pos, hu, rfl⟩ :=
      exec_unpack_completed (s := { s with operand := .countBytes n input }) rfl h hr
    obtain ⟨hlo, hhi⟩ := legalWidth_iff.mp hw
    have hu' := (unpack_stable hlo hhi _ rest _ (hu ▸ nofun)).trans hu
    exact exec_unpack_ok (s := { s with operand := .countBytes n (input ++ rest) }) hf rfl hw hu'

/-! ## Sections cut short (R91) -/

theorem decodeField_next_le {ps : Params} {input : List Byte} {p : Nat} {r : FieldRead}
    (h : decodeField ps input p = .ok r) : r.next ≤ input.length := by
  obtain ⟨len, code, -, -, hr⟩ := decodeField_eq_ok.mp h
  split at hr
  · obtain ⟨vb, hread, rfl⟩ := decodeTimestamp_eq_ok.mp hr
    have hle := (memRead_ok hread).1
    split <;> exact hle
  · obtain ⟨vb, hread, -, rfl⟩ := decodePlain_eq_ok.mp hr
    exact (memRead_ok hread).1

theorem decodeFields_next_le {ps : Params} {input : List Byte} {n p : Nat} {r : FieldsRead}
    (h : decodeFields ps input n p = .ok r) (hp : p ≤ input.length) : r.next ≤ input.length := by
  induction n generalizing p r with
  | zero => cases h; exact hp
  | succ n ih =>
    rw [decodeFields] at h
    cases hf : decodeField ps input p with
    | error e => rw [hf] at h; cases h
    | ok f =>
      cases hfs : decodeFields ps input n f.next with
      | error e => simp only [hf, hfs, bind, Except.bind] at h; cases h
      | ok q =>
        simp only [hf, hfs, bind, Except.bind] at h
        cases h
        exact ih (r := q) hfs (decodeField_next_le hf)

/-- R91: fields cut before where they end are truncated: whatever else they decoded to would stand in the whole
input. -/
theorem decodeFields_take_truncated {ps : Params} {input : List Byte} {n p k : Nat} {r : FieldsRead}
    (h : decodeFields ps input n p = .ok r) (hp : p ≤ k) (hk : k < r.next) (hlen : k ≤ input.length) :
    decodeFields ps (input.take k) n p = .error .truncated := by
  by_contra hne
  have hstable := decodeFields_stable ps (input.take k) (input.drop k) n p hne
  rw [List.take_append_drop, h] at hstable
  have hle := decodeFields_next_le hstable.symm (by rwa [List.length_take_of_le hlen])
  rw [List.length_take_of_le hlen] at hle
  omega

/-- Settles O36: cut behind the tag the count is missing, cut behind the count a field is. -/
theorem truncatedSectionFaults : Obligations.TruncatedSectionFaults := by
  intro tag input s t tag' fs n k hf h hr hpos hk
  obtain ⟨-, htag, cnt, body, r, rfl, hd, rfl⟩ :=
    exec_sectionDec_completed (s := { s with operand := .bytes input }) rfl h hr
  cases hr
  match k with
  | 1 => exact exec_sectionDec_tagAlone (s := { s with operand := .bytes [tag] }) hf rfl htag
  | k + 2 =>
    have hlen := decodeFields_next_le hd (Nat.le_add_left 2 _)
    have htrunc := decodeFields_take_truncated hd (Nat.le_add_left 2 k) hk (hk.le.trans hlen)
    exact exec_sectionDec_error (s := { s with operand := .bytes _ }) hf rfl htag htrunc

end Sys2Proof.Machine

/-!
SUPPORT. Reconstructing what was compressed (R104, R105, R108): one frame from its payload, and the frames of a stream
in order.
-/

namespace Sys2Proof.Machine

/-! ## Issuing a command (R124) -/

/-- R124: what a presented command executes. -/
theorem step_present (s : State) (i : Instr) (o : Operand) :
    step (s.present (.of i o)) = exec i { s with operand := o } :=
  step_of_decode_ok (s := s.present (.of i o)) (c := .of i o) (rest := s.inputs) rfl (decode_encode i)

theorem issue_eq_some_iff {s t : State} {i : Instr} {o : Operand} {r : Result} :
    issue s (.of i o) = some (t, r) ↔ exec i { s with operand := o } = .next t ∧ t.result = some r := by
  rw [issue, step_present]
  obtain ⟨u, hu⟩ := exec_answers_next i { s with operand := o }
  rw [hu]
  constructor
  · intro h
    obtain ⟨r', hr', heq⟩ := Option.map_eq_some_iff.mp h
    cases heq
    exact ⟨rfl, hr'⟩
  · rintro ⟨h, hr⟩
    cases h
    simp [hr]

theorem runCommands_cons {s t u : State} {c : Command} {cs : List Command} {r : Result} {rs : List Result}
    (hc : issue s c = some (t, r)) (hcs : runCommands t cs = some (u, rs)) :
    runCommands s (c :: cs) = some (u, r :: rs) := by
  simp [runCommands, hc, hcs]

/-! ## The payload of a frame (R101) -/

/-- R101: the bytes of a frame with the given deltas. -/
def payloadOf (d : List Int) : List Byte :=
  initialBytes (d.headD 0) ++ pack (frameBitWidth (adjacentDeltas d)) (adjacentDeltas d)

/-- R102: the outputs of `COMPRESS` are the width, the bytes and their number. -/
theorem compressDeltas_eq_payloadOf (d : List Int) : compressDeltas d =
    .compressed (frameBitWidth (adjacentDeltas d)) (payloadOf d) (payloadOf d).length := rfl

@[simp] theorem initialBytes_length (a : Int) : (initialBytes a).length = 4 := leBytes_length 4 _

/-- R106: the initial value read back. -/
theorem initialValue_initialBytes_append {a : Int} (ha : a.natAbs ≤ 65535) (rest : List Byte) :
    initialValue (initialBytes a ++ rest) = a := by
  have hbytes : fromLe (initialBytes a) = encBits 32 a := fromLe_leBytes 4 _ (encBits_lt 32 a)
  rw [initialValue_eq, List.take_left' (initialBytes_length a), hbytes]
  exact sextBits_encBits_of_range (by decide) (by omega) (by omega)

section PayloadOfFrame

variable {cols n : Nat} (px : List Pixel) (prev : FrameBuffer)

/-- R106: the payload has the length a frame of `n` pixels needs at its width. -/
theorem payloadOf_length : (payloadOf (snakeDeltas cols n px prev)).length =
    payloadLength n (frameBitWidth (adjacentDeltas (snakeDeltas cols n px prev))) := by
  have hw := frameBitWidth_snakeDeltas_le cols n px prev
  rw [payloadOf, List.length_append, initialBytes_length, pack_eq_packedStream (one_le_frameBitWidth _) (by omega)]
  simp [payloadLength]

theorem initialValue_payloadOf : initialValue (payloadOf (snakeDeltas cols n px prev)) =
    (snakeDeltas cols n px prev).headD 0 := by
  refine initialValue_initialBytes_append ?_ _
  cases hd : snakeDeltas cols n px prev with
  | nil => exact Nat.zero_le _
  | cons a ds => exact natAbs_le_of_mem_snakeDeltas (hd ▸ List.mem_cons_self)

theorem unpack_payloadOf :
    unpack ((payloadOf (snakeDeltas cols n px prev)).drop 4)
      (frameBitWidth (adjacentDeltas (snakeDeltas cols n px prev))) (n - 1) =
      .ok (adjacentDeltas (snakeDeltas cols n px prev),
        ceilDiv ((n - 1) * frameBitWidth (adjacentDeltas (snakeDeltas cols n px prev))) 8) := by
  have hw := frameBitWidth_snakeDeltas_le cols n px prev
  have hunpack := unpack_pack_frameBitWidth (hw.trans (by decide)) []
  rw [adjacentDeltas_length, snakeDeltas_length, List.append_nil] at hunpack
  rw [payloadOf, List.drop_left' (initialBytes_length _), hunpack]

end PayloadOfFrame

/-! ## One frame back (R104, R105) -/

theorem pixelOf_toNat (p : Pixel) : pixelOf p.toNat = p := by
  have hlt := p.isLt
  have hval := toNat_pixelOf p.toNat
  exact BitVec.eq_of_toNat_eq (by omega)

/-- R94, R105: a frame is the frame of its pixels in snake order. -/
theorem frameOfSums_pixels {rows cols : Nat} {px : List Pixel} (hc : 1 ≤ cols) (hn : px.length = rows * cols) :
    frameOfSums cols (rows * cols) (fun k => (px.getD (snakePos cols k) 0#16).toNat) = px := by
  refine List.ext_getElem (by rw [frameOfSums_length, hn]) fun j hj hj' => ?_
  have hget := frameOfSums_getD hc (fun k => (px.getD (snakePos cols k) 0#16).toNat)
    (snakePos_lt hc (hn ▸ hj' : j < rows * cols))
  rw [snakePos_involutive hc j, pixelOf_toNat] at hget
  rw [List.getElem_eq_getD 0#16, List.getElem_eq_getD 0#16, hget]

/-- R104, R105: summing a frame's deltas onto the previous frame gives the frame's pixels, in snake order. -/
theorem pixelSums_snakeDeltas {rows cols : Nat} {px : List Pixel} {prev prev' : FrameBuffer} (hc : 1 ≤ cols)
    (hprev : ∀ j, j < rows * cols → FrameBuffer.load prev j = FrameBuffer.load prev' j) :
    pixelSums (snakeOrder cols (rows * cols)) prev' (snakeDeltas cols (rows * cols) px prev) =
      (List.range (rows * cols)).map fun k => ((px.getD (snakePos cols k) 0#16).toNat : Int) := by
  rw [snakeDeltas, snakeOrder, List.map_map, ← snakeOrder, pixelSums_range]
  refine List.map_congr_left fun k hk => ?_
  rw [Function.comp_apply, hprev _ (snakePos_lt hc (List.mem_range.mp hk)), add_sub_cancel]

/-- R104: the running sums of the adjacent deltas are the deltas. -/
theorem runningSums_headD {d : List Int} (hd : 1 ≤ d.length) : runningSums (d.headD 0) (adjacentDeltas d) = d := by
  cases d with
  | nil => cases hd
  | cons a ds => exact runningSums_adjacentDeltas a ds

theorem rebuild_snakeDeltas {rows cols : Nat} {px : List Pixel} {prev prev' : FrameBuffer} (ps : Params)
    (hc : 1 ≤ cols) (hcount : 1 ≤ rows * cols) (hn : px.length = rows * cols)
    (hprev : ∀ j, j < rows * cols → FrameBuffer.load prev j = FrameBuffer.load prev' j) :
    rebuild ps cols (rows * cols) prev' ((snakeDeltas cols (rows * cols) px prev).headD 0)
      (adjacentDeltas (snakeDeltas cols (rows * cols) px prev)) = .ok px := by
  have hsums := pixelSums_snakeDeltas (px := px) hc hprev
  rw [← runningSums_headD (d := snakeDeltas _ _ px prev) (by rwa [snakeDeltas_length])] at hsums
  rw [rebuild_ok hsums fun k _ => pixelAllowed_iff.mpr (.inr ?_), frameOfSums_pixels hc hn]
  have hlt := (px.getD (snakePos cols k) 0#16).isLt
  exact ⟨by omega, by omega⟩

/-- R108: a block whose DEC_PREV agrees below `N` with the frame the payload was compressed against reconstructs the
frame. -/
theorem exec_reconstruct_payloadOf {r : State} {px : List Pixel} {prev : FrameBuffer} {d : List Int}
    (hf : r.faulted = false) (hc : r.cfgOk = true) (hn : px.length = r.pixelCount)
    (hprev : ∀ j, j < r.pixelCount → FrameBuffer.load prev j = FrameBuffer.load r.decPrev j)
    (hd : d = snakeDeltas r.cols.toNat r.pixelCount px prev) (ho : r.operand = .bytes (payloadOf d)) :
    exec (.reconstruct (BitVec.ofNat 8 (frameBitWidth (adjacentDeltas d)))) r =
      .next ({ r with decPrev := FrameBuffer.storeFrame r.decPrev px }.complete (.pixels px)) := by
  subst hd
  obtain ⟨-, hcols, hcount, -⟩ := r.cfgOk_iff.mp hc
  have hw := frameBitWidth_snakeDeltas_le r.cols.toNat r.pixelCount px prev
  have hbyte := toNat_ofNat_byte (hw.trans (by decide))
  have hlegal := legalWidth_iff.mpr ⟨hbyte.symm ▸ one_le_frameBitWidth _, hbyte.symm ▸ hw.trans (by decide)⟩
  refine exec_reconstruct_ok hf ho hlegal hc (hbyte.symm ▸ payloadOf_length px prev)
    (hbyte.symm ▸ unpack_payloadOf px prev) ?_
  rw [initialValue_payloadOf]
  exact rebuild_snakeDeltas r.params hcols (Nat.le_of_succ_le hcount) hn hprev

/-! ## A stream of frames (R108) -/

/-- R108: two buffers that agree below `n` agree there after the same frame is stored. -/
theorem load_storeFrame_congr {b c : FrameBuffer} {n : Nat} (px : List Pixel)
    (h : ∀ j, j < n → FrameBuffer.load b j = FrameBuffer.load c j) (j : Nat) (hj : j < n) :
    FrameBuffer.load (FrameBuffer.storeFrame b px) j = FrameBuffer.load (FrameBuffer.storeFrame c px) j := by
  rw [FrameBuffer.load_storeFrame, FrameBuffer.load_storeFrame, h j hj]

/-- After a sequence of frames a buffer holds the last one. -/
theorem load_foldl_storeFrame {frames : List (List Pixel)} {f : List Pixel} (b : FrameBuffer) {j : Nat}
    (hlast : frames.getLast? = some f) (hj : j < f.length) :
    FrameBuffer.load (frames.foldl FrameBuffer.storeFrame b) j = f.getD j 0#16 := by
  obtain ⟨fs, rfl⟩ := List.getLast?_eq_some_iff.mp hlast
  rw [List.foldl_append, List.foldl_cons, List.foldl_nil, FrameBuffer.load_storeFrame, if_pos hj]

/-- R102: the widths and payloads of a stream of frames, each compressed against the one before. -/
def compressedFrames (cols n : Nat) : FrameBuffer → List (List Pixel) → List (Nat × List Byte)
  | _, [] => []
  | prev, f :: fs =>
    (frameBitWidth (adjacentDeltas (snakeDeltas cols n f prev)), payloadOf (snakeDeltas cols n f prev)) ::
      compressedFrames cols n (FrameBuffer.storeFrame prev f) fs

theorem compressedFrames_width_le {cols n : Nat} {prev : FrameBuffer} {frames : List (List Pixel)} :
    ∀ o ∈ compressedFrames cols n prev frames, o.1 ≤ 18 := by
  induction frames generalizing prev with
  | nil => nofun
  | cons f fs ih => exact List.forall_mem_cons.mpr ⟨frameBitWidth_snakeDeltas_le cols n f prev, ih⟩

/-- R102: compressing the frames of a stream changes ENC_PREV only, beside the operand and the result. -/
theorem runCommands_compress {s : State} {frames : List (List Pixel)} (hf : s.faulted = false) (hc : s.cfgOk = true)
    (hn : ∀ f ∈ frames, f.length = s.pixelCount) :
    ∃ o r, runCommands s (frames.map fun f => ⟨encode (.compress 0#8), .pixels f⟩) =
      some ({ s with encPrev := frames.foldl FrameBuffer.storeFrame s.encPrev, operand := o, result := r },
        (compressedFrames s.cols.toNat s.pixelCount s.encPrev frames).map
          fun x => .ok (.compressed x.1 x.2 x.2.length)) := by
  induction frames generalizing s with
  | nil => exact ⟨s.operand, s.result, rfl⟩
  | cons f fs ih =>
    obtain ⟨hlen, hlens⟩ := List.forall_mem_cons.mp hn
    have hexec := exec_compress_ok (s := { s with operand := .pixels f }) hf rfl hc hlen
    obtain ⟨o, r, hrun⟩ := ih (s := { s with operand := .pixels f, encPrev := _ }.complete _) hf hc hlens
    exact ⟨o, r, runCommands_cons (issue_eq_some_iff.mpr ⟨hexec, rfl⟩) hrun⟩

/-- R106, R108: reconstructing the payloads of a stream, in a block whose DEC_PREV agrees below `N` with the buffer
the first frame was compressed against, changes DEC_PREV only. -/
theorem runCommands_reconstruct {r : State} {prev : FrameBuffer} {frames : List (List Pixel)}
    (hf : r.faulted = false) (hc : r.cfgOk = true)
    (hprev : ∀ j, j < r.pixelCount → FrameBuffer.load prev j = FrameBuffer.load r.decPrev j)
    (hn : ∀ f ∈ frames, f.length = r.pixelCount) :
    ∃ o x, runCommands r ((compressedFrames r.cols.toNat r.pixelCount prev frames).map
        fun y => ⟨encode (.reconstruct (BitVec.ofNat 8 y.1)), .bytes y.2⟩) =
      some ({ r with decPrev := frames.foldl FrameBuffer.storeFrame r.decPrev, operand := o, result := x },
        frames.map fun f => .ok (.pixels f)) := by
  induction frames generalizing r prev with
  | nil => exact ⟨r.operand, r.result, rfl⟩
  | cons f fs ih =>
    obtain ⟨hlen, hlens⟩ := List.forall_mem_cons.mp hn
    have hexec := exec_reconstruct_payloadOf
      (r := { r with operand := .bytes (payloadOf (snakeDeltas r.cols.toNat r.pixelCount f prev)) })
      hf hc hlen hprev rfl rfl
    obtain ⟨o, x, hrun⟩ := ih (r := { r with operand := .bytes _, decPrev := _ }.complete _) hf hc
      (load_storeFrame_congr f hprev) hlens
    exact ⟨o, x, runCommands_cons (issue_eq_some_iff.mpr ⟨hexec, rfl⟩) hrun⟩

/-- Settles O54: the two runs, in each of which the buffers agree below `N` before every frame. -/
theorem frameStreamRoundTrip : Obligations.FrameStreamRoundTrip := by
  intro s frames hf hc hprev hn
  obtain ⟨o, r, hcompress⟩ := runCommands_compress hf hc hn
  obtain ⟨o', r', hreconstruct⟩ := runCommands_reconstruct
    (r := { s with encPrev := frames.foldl FrameBuffer.storeFrame s.encPrev, operand := o, result := r })
    (prev := s.encPrev) hf hc hprev hn
  refine ⟨_, _, _, hcompress, compressedFrames_width_le, hreconstruct, fun f hlast j hj => ?_⟩
  have hlen : j < f.length := (hn f (List.mem_of_getLast? hlast)).symm ▸ hj
  exact ⟨load_foldl_storeFrame _ hlast hlen, load_foldl_storeFrame _ hlast hlen⟩

end Sys2Proof.Machine

/-!
SUPPORT. The host's procedures over a file (R128, R129): what the writer's steps have done when they give a file, and
what the reader's steps make of the bytes.
-/

namespace Sys2Proof.Machine

/-! ## Issuing a command that completes (R124) -/

theorem issueOk_eq_some_iff {s t : State} {i : Instr} {x : Operand} {o : Outputs} :
    issueOk s (.of i x) = some (t, o) ↔ exec i { s with operand := x } = .next t ∧ t.result = some (.ok o) := by
  rw [← issue_eq_some_iff, issueOk]
  cases issue s (.of i x) with
  | none => simp
  | some p =>
    obtain ⟨u, r⟩ := p
    cases r <;> simp

/-! ## The resolution (R66, R110) -/

/-- R66, R110: the block after `config rows, cols`. -/
def State.configured (s : State) (rows cols : Word) : State :=
  ({ ({ s with operand := .data rows }.writeRows rows).complete .nothing with operand := .data cols }.writeCols
    cols).complete .nothing

theorem configure_of_unfaulted {s : State} (hf : s.faulted = false) (rows cols : Word) :
    configure s rows cols = some (s.configured rows cols) := by
  have hrows := issueOk_eq_some_iff.mpr ⟨exec_csrWrite_ok (s := { s with operand := .data rows })
    (t := { s with operand := .data rows }.writeRows rows) (n := csrRows) hf rfl rfl, rfl⟩
  have hcols := issueOk_eq_some_iff.mpr ⟨exec_csrWrite_ok
    (s := { ({ s with operand := .data rows }.writeRows rows).complete .nothing with operand := .data cols })
    (t := { ({ s with operand := .data rows }.writeRows rows).complete .nothing with
      operand := .data cols }.writeCols cols) (n := csrCols) hf rfl rfl, rfl⟩
  simp only [configure, hrows, hcols, bind, Option.bind]
  rfl

theorem exec_csrWrite_completed {n : Byte} {s t : State} {o : Outputs} (h : exec (.csrWrite n) s = .next t)
    (hr : t.result = some (.ok o)) : s.faulted = false := (command_completed h hr).1

theorem unfaulted_of_configure {s t : State} {rows cols : Word} (h : configure s rows cols = some t) :
    s.faulted = false := by
  unfold configure at h
  obtain ⟨⟨u, o⟩, hu, -⟩ := Option.bind_eq_some_iff.mp h
  obtain ⟨hexec, hr⟩ := issueOk_eq_some_iff.mp hu
  exact exec_csrWrite_completed (s := { s with operand := .data rows }) hexec hr

/-! ## Writing (R128) -/

theorem writeSection_eq_some {s t : State} {tag : Byte} {fs : List (Byte × FieldValue)} {bytes : List Byte}
    (h : writeSection s tag fs = some (t, bytes)) :
    legalTag tag = true ∧ encodeSection tag fs = .ok bytes ∧ ∃ o r, t = { s with operand := o, result := r } := by
  unfold writeSection at h
  obtain ⟨⟨u, out⟩, hu, hout⟩ := Option.bind_eq_some_iff.mp h
  obtain ⟨hexec, hr⟩ := issueOk_eq_some_iff.mp hu
  cases out with
  | out x =>
    cases hout
    obtain ⟨-, htag, henc, rfl⟩ := exec_sectionEnc_completed (s := { s with operand := .fields fs }) rfl hexec hr
    exact ⟨htag, henc, _, _, rfl⟩
  | nothing | values | field | fields | compressed | pixels | data => cases hout

theorem exec_compress_completed {a : Byte} {px : List Pixel} {o : Outputs} {s t : State} (ho : s.operand = .pixels px)
    (h : exec (.compress a) s = .next t) (hr : t.result = some (.ok o)) :
    s.cfgOk = true ∧ px.length = s.pixelCount ∧
      o = compressDeltas (snakeDeltas s.cols.toNat s.pixelCount px s.encPrev) ∧
      t = { s with encPrev := FrameBuffer.storeFrame s.encPrev px }.complete o := by
  simp only [exec, execCompress, ho] at h
  obtain ⟨-, a, ha, hb⟩ := command_completed h hr
  cases ha
  split_ifs at hb with hzero hc hn
  cases hb
  cases hr
  exact ⟨by simpa using hc, by simpa using hn, rfl, by rw [ho]⟩

/-- R128: the bytes of a frame record and the block after it. -/
theorem writeFrame_eq_some {s t : State} {f : FrameToWrite} {bytes : List Byte} (h : writeFrame s f = some (t, bytes)) :
    s.cfgOk = true ∧ f.pixels.length = s.pixelCount ∧ ∃ d sec o r,
      d = snakeDeltas s.cols.toNat s.pixelCount f.pixels s.encPrev ∧ (payloadOf d).length < 2 ^ 32 ∧
      encodeSection tagFrame (frameFields (frameBitWidth (adjacentDeltas d)) (payloadOf d).length f) = .ok sec ∧
      bytes = sec ++ payloadOf d ∧
      t = { s with encPrev := FrameBuffer.storeFrame s.encPrev f.pixels, operand := o, result := r } := by
  unfold writeFrame at h
  obtain ⟨⟨u, out⟩, hu, hout⟩ := Option.bind_eq_some_iff.mp h
  obtain ⟨hexec, hr⟩ := issueOk_eq_some_iff.mp hu
  obtain ⟨hc, hn, rfl, rfl⟩ := exec_compress_completed (s := { s with operand := .pixels f.pixels }) rfl hexec hr
  rw [compressDeltas_eq_payloadOf] at hout
  simp only at hout
  split at hout
  next hfit =>
    obtain ⟨⟨v, sec⟩, hv, hsec⟩ := Option.bind_eq_some_iff.mp hout
    cases hsec
    obtain ⟨-, henc, o, r, rfl⟩ := writeSection_eq_some hv
    exact ⟨hc, hn, _, sec, o, r, rfl, hfit.2, henc, rfl, rfl⟩
  · cases hout

/-! ## Reading (R129) -/

theorem readSection_of_encodeSection {r : State} {tag : Byte} {fs : List (Byte × FieldValue)} {sec rest : List Byte}
    (hf : r.faulted = false) (htag : legalTag tag = true) (henc : encodeSection tag fs = .ok sec)
    (hts : ∀ f ∈ fs, timestampOk r.params f.2) (hstr : ∀ f ∈ fs, stringOk r.params f.2) :
    ∃ o x, readSection r tag (sec ++ rest) =
      .ok ({ r with operand := o, result := x }, some (fs.map asDecoded, sec.length)) := by
  have hexec := exec_sectionDec_of_encodeSection (s := { r with operand := .bytes (sec ++ rest) }) hf rfl htag henc
    hts hstr
  have hissue := issue_eq_some_iff.mpr ⟨hexec, rfl⟩
  exact ⟨_, _, by simp only [readSection, hissue]; rfl⟩

/-- R129: the clean end of the stream. -/
theorem readSection_nil {r : State} {tag : Byte} (hf : r.faulted = false) (htag : legalTag tag = true) :
    ∃ t, readSection r tag [] = .ok (t, none) := by
  have hexec := exec_sectionDec_end (s := { r with operand := .bytes [] }) hf rfl htag
  have hissue := issue_eq_some_iff.mpr ⟨hexec, rfl⟩
  exact ⟨{ r with operand := .bytes [] }.endOfStream, by simp only [readSection, hissue]⟩

/-- R108, R129: the writer's and the reader's block between frames. -/
structure Synced (s r : State) : Prop where
  unfaulted : r.faulted = false
  rows : r.rows = s.rows
  cols : r.cols = s.cols
  cap : r.cap = s.cap
  prev : ∀ j, j < s.pixelCount → FrameBuffer.load s.encPrev j = FrameBuffer.load r.decPrev j

theorem Synced.pixelCount {s r : State} (h : Synced s r) : r.pixelCount = s.pixelCount := by
  rw [State.pixelCount, State.pixelCount, h.rows, h.cols]

theorem Synced.cfgOk {s r : State} (h : Synced s r) (hc : s.cfgOk = true) : r.cfgOk = true := by
  rw [State.cfgOk_iff] at hc ⊢
  rwa [h.rows, h.cols, h.cap]

/-- R108: the frame both blocks have stored. -/
theorem Synced.store {s r : State} (h : Synced s r) (px : List Pixel) (o o' : Operand) (x x' : Option Result) :
    Synced { s with encPrev := FrameBuffer.storeFrame s.encPrev px, operand := o, result := x }
      { r with decPrev := FrameBuffer.storeFrame r.decPrev px, operand := o', result := x' } :=
  ⟨h.unfaulted, h.rows, h.cols, h.cap, load_storeFrame_congr px h.prev⟩

theorem readPayload_payloadOf {s r : State} {px : List Pixel} {d : List Int} (h : Synced s r) (hc : s.cfgOk = true)
    (hn : px.length = s.pixelCount) (hd : d = snakeDeltas s.cols.toNat s.pixelCount px s.encPrev) :
    ∃ o x, readPayload r (BitVec.ofNat 8 (frameBitWidth (adjacentDeltas d))) (payloadOf d) =
      .ok ({ r with decPrev := FrameBuffer.storeFrame r.decPrev px, operand := o, result := x }, px) := by
  have hexec := exec_reconstruct_payloadOf (r := { r with operand := .bytes (payloadOf d) }) (px := px)
    (prev := s.encPrev) (d := d) h.unfaulted (h.cfgOk hc) (hn.trans h.pixelCount.symm)
    (fun j hj => h.prev j (h.pixelCount ▸ hj)) (by rw [hd, ← h.cols, ← h.pixelCount]; rfl) rfl
  have hissue := issue_eq_some_iff.mpr ⟨hexec, rfl⟩
  exact ⟨_, _, by simp only [readPayload, hissue]; rfl⟩

/-- R129: the width and the size read back from a frame section. -/
theorem frameHeader?_frameFields (w size : Nat) (f : FrameToWrite) :
    frameHeader? ((frameFields w size f).map asDecoded) = some (BitVec.ofNat 8 w, BitVec.ofNat 32 size) := rfl

theorem timesOf_frameFields (w size : Nat) (f : FrameToWrite) :
    timesOf 2#8 ((frameFields w size f).map asDecoded) = .version2 f.timeOn f.lastFfc := rfl

theorem frameFields_ok (ps : Params) (w size : Nat) (f : FrameToWrite) :
    ∀ x ∈ frameFields w size f, timestampOk ps x.2 ∧ stringOk ps x.2 := by
  simp [frameFields, timestampOk, stringOk]

/-- R129: one turn of the reader's loop on a frame record. -/
theorem readFrame_of_writeFrame {s t r : State} {f : FrameToWrite} {bytes rest : List Byte} (h : Synced s r)
    (hw : writeFrame s f = some (t, bytes)) :
    bytes ≠ [] ∧ ∃ u, Synced t u ∧
      readFrame r 2#8 (bytes ++ rest) = .ok (some (u, ⟨f.pixels, .version2 f.timeOn f.lastFfc⟩, rest)) := by
  obtain ⟨hc, hn, d, sec, o, x, hd, hsize, henc, rfl, rfl⟩ := writeFrame_eq_some hw
  have hok := frameFields_ok r.params (frameBitWidth (adjacentDeltas d)) (payloadOf d).length f
  obtain ⟨o₁, x₁, hsec⟩ := readSection_of_encodeSection (tag := tagFrame) (rest := payloadOf d ++ rest) h.unfaulted
    (legalTag_iff.mpr (.inr rfl)) henc (fun y hy => (hok y hy).1) (fun y hy => (hok y hy).2)
  have h₁ : Synced s { r with operand := o₁, result := x₁ } := ⟨h.unfaulted, h.rows, h.cols, h.cap, h.prev⟩
  obtain ⟨o₂, x₂, hpay⟩ := readPayload_payloadOf h₁ hc hn hd
  obtain ⟨-, -, -, hform⟩ := encodeSection_eq_ok henc
  refine ⟨by rw [hform]; simp, _, h.store f.pixels o o₂ x x₂, ?_⟩
  have hsz : (BitVec.ofNat 32 (payloadOf d).length).toNat = (payloadOf d).length := by
    rw [BitVec.toNat_ofNat, Nat.mod_eq_of_lt hsize]
  have hfits : ¬ (sec ++ (payloadOf d ++ rest)).length - sec.length < (payloadOf d).length := by
    simp only [List.length_append]
    omega
  have htake : ((sec ++ (payloadOf d ++ rest)).drop sec.length).take (payloadOf d).length = payloadOf d := by
    rw [List.drop_left, List.take_left]
  have hdrop : (sec ++ (payloadOf d ++ rest)).drop (sec.length + (payloadOf d).length) = rest := by
    rw [List.drop_length_add_append, List.drop_left]
  rw [List.append_assoc]
  simp only [readFrame, hsec, bind, Except.bind, frameHeader?_frameFields, hsz, if_neg hfits, htake, hpay, hdrop,
    timesOf_frameFields]
  rfl

/-- R129: the reader's loop on the frame records, with enough turns. -/
theorem readFrames_of_writeFrames {s t r : State} {frames : List FrameToWrite} {body : List Byte} {fuel : Nat}
    (h : Synced s r) (hw : writeFrames s frames = some (t, body)) (hfuel : body.length < fuel) :
    readFrames 2#8 fuel r body =
      (frames.map fun f => ⟨f.pixels, .version2 f.timeOn f.lastFfc⟩, .ok ()) := by
  induction frames generalizing s r body fuel with
  | nil =>
    cases hw
    obtain ⟨n, rfl⟩ : ∃ n, fuel = n + 1 := ⟨fuel - 1, by omega⟩
    obtain ⟨u, hend⟩ := readSection_nil h.unfaulted (tag := tagFrame) (legalTag_iff.mpr (.inr rfl))
    simp [readFrames, readFrame, hend, bind, Except.bind, pure, Except.pure]
  | cons f fs ih =>
    obtain ⟨n, rfl⟩ : ∃ n, fuel = n + 1 := ⟨fuel - 1, by omega⟩
    unfold writeFrames at hw
    obtain ⟨⟨s', bytes⟩, hframe, hw⟩ := Option.bind_eq_some_iff.mp hw
    obtain ⟨⟨t', rest⟩, hframes, hw⟩ := Option.bind_eq_some_iff.mp hw
    cases hw
    obtain ⟨hne, u, hu, hread⟩ := readFrame_of_writeFrame (rest := rest) h hframe
    have hpos := List.length_pos_iff.mpr hne
    rw [List.length_append] at hfuel
    simp [readFrames, hread, ih hu hframes (fuel := n) (by omega)]

/-! ## The header (R128, R129) -/

/-- R78, R80, R90: `T` is in every header, so no other field of it holds a timestamp. -/
theorem headerFields_timestampOk {ps : Params} {rows cols : Word} {h : HeaderToWrite}
    (hnodup : ((headerFields rows cols h).map Prod.fst).Nodup)
    (henc : ∀ f ∈ headerFields rows cols h, Safety.encodable f) (ht : h.timestamp.toNat ≤ ps.tsMaxUs) :
    ∀ f ∈ headerFields rows cols h, timestampOk ps f.2 := by
  rintro ⟨code, v⟩ hmem us rfl
  have hcode : code = 0x54#8 := typeOf_eq_ts_iff.mp (henc _ hmem).1.symm
  subst hcode
  obtain ⟨hT, -⟩ := List.nodup_cons.mp hnodup
  rcases List.mem_cons.mp hmem with heq | hmem
  · cases heq
    exact ht
  · exact absurd (List.mem_map_of_mem (f := Prod.fst) hmem) hT

theorem headerFields_stringOk {ps : Params} {rows cols : Word} {h : HeaderToWrite}
    (hs : ps.stringCheck = .utf8 → ∀ code bs, (code, FieldValue.str bs) ∈ h.others → wellFormedUtf8 bs = true) :
    ∀ f ∈ headerFields rows cols h, stringOk ps f.2 := by
  rintro ⟨code, v⟩ hmem bs rfl hu
  simp only [headerFields, List.mem_cons, Prod.mk.injEq, reduceCtorEq, and_false, false_or] at hmem
  exact hs hu code bs hmem

/-- R129: a header of distinct codes gives the resolution back. -/
theorem headerResolution_headerFields {rows cols : Word} {h : HeaderToWrite}
    (hnodup : ((headerFields rows cols h).map Prod.fst).Nodup) :
    headerResolution ((headerFields rows cols h).map asDecoded) = .ok (rows, cols) := by
  have hcodes : ((headerFields rows cols h).map asDecoded).map DecodedField.code =
      (headerFields rows cols h).map Prod.fst := by rw [List.map_map]; rfl
  have hrep : noRepeat ((headerFields rows cols h).map asDecoded) = true := by
    rw [noRepeat, hcodes, hasDuplicate_eq_false.mpr hnodup]
    rfl
  have hy : (fieldOf? ((headerFields rows cols h).map asDecoded) 0x59#8).bind word? = some rows := rfl
  have hx : (fieldOf? ((headerFields rows cols h).map asDecoded) 0x58#8).bind word? = some cols := rfl
  have hc : (fieldOf? ((headerFields rows cols h).map asDecoded) 0x43#8).bind byte? = some 1#8 := rfl
  have ht : fieldOf? ((headerFields rows cols h).map asDecoded) 0x54#8 = some (.ts h.timestamp) := rfl
  simp [headerResolution, hy, hx, hc, ht, hrep]

/-! ## The file (R128, R129) -/

/-- R32: after `config` both buffers are zero. -/
theorem synced_configured {s r : State} (rows cols : Word) (hf : r.faulted = false) (hcap : r.cap = s.cap)
    (o o' : Operand) (x x' : Option Result) :
    Synced { s.configured rows cols with operand := o, result := x }
      ({ r with operand := o', result := x' }.configured rows cols) :=
  ⟨hf, rfl, rfl, hcap, fun _ _ => rfl⟩

theorem readFile_fileFormat (outer : Outer) (r : State) (body : List Byte) :
    readFile outer r (magic ++ 2#8 :: outer.compress body) = readBody r 2#8 body := by
  simp [readFile, magic, outer.decompress_compress]

/-- Settles O55: the header section and each frame record are read back as they were written, by a block that holds
the same previous frame as the writer's. -/
theorem fileRoundTrip : Obligations.FileRoundTrip := by
  intro outer s t r rows cols h frames file hwrite hf hcap ht hs
  unfold writeFile at hwrite
  obtain ⟨a, hconf, hwrite⟩ := Option.bind_eq_some_iff.mp hwrite
  obtain ⟨⟨b, header⟩, hheader, hwrite⟩ := Option.bind_eq_some_iff.mp hwrite
  obtain ⟨⟨c, records⟩, hrecords, hwrite⟩ := Option.bind_eq_some_iff.mp hwrite
  cases hwrite
  rw [configure_of_unfaulted (unfaulted_of_configure hconf)] at hconf
  cases hconf
  obtain ⟨htag, henc, o, x, rfl⟩ := writeSection_eq_some hheader
  obtain ⟨-, hnodup, hall, -⟩ := encodeSection_eq_ok henc
  obtain ⟨o', x', hread⟩ := readSection_of_encodeSection (rest := records) hf htag henc
    (headerFields_timestampOk hnodup hall ht) (headerFields_stringOk hs)
  have hframes := readFrames_of_writeFrames (fuel := (header ++ records).length + 1)
    (synced_configured rows cols hf hcap o o' x x') hrecords (by rw [List.length_append]; omega)
  refine ⟨⟨2#8, (headerFields rows cols h).map asDecoded, _, .ok ()⟩, ?_, rfl, rfl, rfl, rfl⟩
  rw [readFile_fileFormat]
  simp only [readBody, hread, bind, Except.bind, headerResolution_headerFields hnodup]
  rw [configure_of_unfaulted (s := { r with operand := o', result := x' }) hf]
  simp only [List.drop_left, hframes]
  rfl

end Sys2Proof.Machine

/-!
SUPPORT. Well-formed UTF-8 (R84, G5; log entry 9): the byte sequences of one character, which the check takes one
after the other, are the encodings of the scalar values.
-/

namespace Sys2Proof.Machine

/-! ## The byte sequences of one character -/

/-- A continuation byte. -/
def IsCont (b : Byte) : Prop := 0x80 ≤ b.toNat ∧ b.toNat ≤ 0xBF

/-- The first two bytes of a character of three: the shorter forms and the surrogates are left out. -/
def LeadOfThree (b c : Byte) : Prop :=
  (0xE0 ≤ b.toNat ∧ b.toNat ≤ 0xEF) ∧ IsCont c ∧ (b.toNat = 0xE0 → 0xA0 ≤ c.toNat) ∧
    (b.toNat = 0xED → c.toNat ≤ 0x9F)

/-- The first two bytes of a character of four: the shorter forms and what lies above 0x10FFFF are left out. -/
def LeadOfFour (b c : Byte) : Prop :=
  (0xF0 ≤ b.toNat ∧ b.toNat ≤ 0xF4) ∧ IsCont c ∧ (b.toNat = 0xF0 → 0x90 ≤ c.toNat) ∧
    (b.toNat = 0xF4 → c.toNat ≤ 0x8F)

/-- The well-formed byte sequences of one character, by their ranges. -/
inductive Utf8Char : List Byte → Prop where
  | one {b} : b.toNat ≤ 0x7F → Utf8Char [b]
  | two {b c} : 0xC2 ≤ b.toNat ∧ b.toNat ≤ 0xDF → IsCont c → Utf8Char [b, c]
  | three {b c d} : LeadOfThree b c → IsCont d → Utf8Char [b, c, d]
  | four {b c d e} : LeadOfFour b c → IsCont d → IsCont e → Utf8Char [b, c, d, e]

/-! ## The characters are the scalar values -/

theorem utf8Char_utf8OfScalar {n : Nat} (h : Safety.isScalar n) : Utf8Char (Safety.utf8OfScalar n) := by
  unfold Safety.isScalar at h
  unfold Safety.utf8OfScalar
  split_ifs with h1 h2 h3
  · refine .one ?_
    rw [toNat_ofNat_byte] <;> omega
  · refine .two ?_ ?_
    · rw [toNat_ofNat_byte] <;> omega
    · rw [IsCont, toNat_ofNat_byte] <;> omega
  · refine .three ?_ ?_
    · rw [LeadOfThree, IsCont, toNat_ofNat_byte, toNat_ofNat_byte] <;> omega
    · rw [IsCont, toNat_ofNat_byte] <;> omega
  · refine .four ?_ ?_ ?_
    · rw [LeadOfFour, IsCont, toNat_ofNat_byte, toNat_ofNat_byte] <;> omega
    · rw [IsCont, toNat_ofNat_byte] <;> omega
    · rw [IsCont, toNat_ofNat_byte] <;> omega

theorem ofNat_byte_eq {b : Byte} {n : Nat} (h : n = b.toNat) : (BitVec.ofNat 8 n : Byte) = b := by
  rw [h, BitVec.ofNat_toNat, BitVec.setWidth_eq]

/-- The scalar value of a character of each length, put together from the bits its bytes carry. -/
theorem Utf8Char.exists_scalar {s : List Byte} (h : Utf8Char s) :
    ∃ n, Safety.isScalar n ∧ s = Safety.utf8OfScalar n := by
  cases h with
  | @one b hb =>
    refine ⟨b.toNat, .inl (by omega), ?_⟩
    rw [Safety.utf8OfScalar, if_pos (by omega), ofNat_byte_eq rfl]
  | @two b c hb hc =>
    obtain ⟨hc1, hc2⟩ := hc
    refine ⟨(b.toNat - 0xC0) * 64 + (c.toNat - 0x80), .inl (by omega), ?_⟩
    rw [Safety.utf8OfScalar, if_neg (by omega), if_pos (by omega), ofNat_byte_eq (b := b) (by omega),
      ofNat_byte_eq (b := c) (by omega)]
  | @three b c d hbc hd =>
    obtain ⟨hb, ⟨hc1, hc2⟩, hlow, hsurr⟩ := hbc
    obtain ⟨hd1, hd2⟩ := hd
    refine ⟨(b.toNat - 0xE0) * 4096 + (c.toNat - 0x80) * 64 + (d.toNat - 0x80), ?_, ?_⟩
    · unfold Safety.isScalar
      omega
    · rw [Safety.utf8OfScalar, if_neg (by omega), if_neg (by omega), if_pos (by omega),
        ofNat_byte_eq (b := b) (by omega), ofNat_byte_eq (b := c) (by omega), ofNat_byte_eq (b := d) (by omega)]
  | @four b c d e hbc hd he =>
    obtain ⟨hb, ⟨hc1, hc2⟩, hlow, hhigh⟩ := hbc
    obtain ⟨hd1, hd2⟩ := hd
    obtain ⟨he1, he2⟩ := he
    refine ⟨(b.toNat - 0xF0) * 262144 + (c.toNat - 0x80) * 4096 + (d.toNat - 0x80) * 64 + (e.toNat - 0x80), ?_, ?_⟩
    · unfold Safety.isScalar
      omega
    · rw [Safety.utf8OfScalar, if_neg (by omega), if_neg (by omega), if_neg (by omega),
        ofNat_byte_eq (b := b) (by omega), ofNat_byte_eq (b := c) (by omega), ofNat_byte_eq (b := d) (by omega),
        ofNat_byte_eq (b := e) (by omega)]

/-! ## One step of the check -/

theorem first_one : ∀ b : Byte, b.toNat ≤ 0x7F → Utf8State.first b = .start := by decide

theorem first_two : ∀ b : Byte, 0xC2 ≤ b.toNat ∧ b.toNat ≤ 0xDF → Utf8State.first b = .cont 0x80#8 0xBF#8 0 := by
  decide

theorem first_three : ∀ b : Byte, 0xE0 ≤ b.toNat ∧ b.toNat ≤ 0xEF → Utf8State.first b =
    .cont (if b.toNat = 0xE0 then 0xA0#8 else 0x80#8) (if b.toNat = 0xED then 0x9F#8 else 0xBF#8) 1 := by
  decide

theorem first_four : ∀ b : Byte, 0xF0 ≤ b.toNat ∧ b.toNat ≤ 0xF4 → Utf8State.first b =
    .cont (if b.toNat = 0xF0 then 0x90#8 else 0x80#8) (if b.toNat = 0xF4 then 0x8F#8 else 0xBF#8) 2 := by
  decide

theorem first_none : ∀ b : Byte, (0x80 ≤ b.toNat ∧ b.toNat < 0xC2) ∨ 0xF4 < b.toNat → Utf8State.first b = .bad := by
  decide

/-- The state after the last of the continuation bytes still to come, or before it. -/
def Utf8State.afterCont : Nat → Utf8State
  | 0 => .start
  | n + 1 => .cont 0x80#8 0xBF#8 n

theorem next_cont {lo hi b : Byte} {n : Nat} (h : lo ≤ b ∧ b ≤ hi) :
    (Utf8State.cont lo hi n).next b = Utf8State.afterCont n := by
  simp only [Utf8State.next, if_pos h]
  cases n <;> rfl

theorem next_cont_bad {lo hi b : Byte} {n : Nat} (h : ¬ (lo ≤ b ∧ b ≤ hi)) :
    (Utf8State.cont lo hi n).next b = .bad := if_neg h

theorem isCont_iff {b : Byte} : 0x80#8 ≤ b ∧ b ≤ 0xBF#8 ↔ IsCont b := Iff.rfl

theorem leadOfThree_iff {b c : Byte} (hb : 0xE0 ≤ b.toNat ∧ b.toNat ≤ 0xEF) :
    ((if b.toNat = 0xE0 then 0xA0#8 else 0x80#8) ≤ c ∧ c ≤ if b.toNat = 0xED then 0x9F#8 else 0xBF#8) ↔
      LeadOfThree b c := by
  unfold LeadOfThree IsCont
  split_ifs <;> simp only [BitVec.le_def, BitVec.toNat_ofNat] <;> omega

theorem leadOfFour_iff {b c : Byte} (hb : 0xF0 ≤ b.toNat ∧ b.toNat ≤ 0xF4) :
    ((if b.toNat = 0xF0 then 0x90#8 else 0x80#8) ≤ c ∧ c ≤ if b.toNat = 0xF4 then 0x8F#8 else 0xBF#8) ↔
      LeadOfFour b c := by
  unfold LeadOfFour IsCont
  split_ifs <;> simp only [BitVec.le_def, BitVec.toNat_ofNat] <;> omega

/-! ## Runs of the check -/

/-- The check accepts the bytes from the given state. -/
def Utf8State.Accepts (x : Utf8State) (s : List Byte) : Prop := s.foldl Utf8State.next x = .start

theorem wellFormedUtf8_iff {s : List Byte} : wellFormedUtf8 s = true ↔ Utf8State.start.Accepts s := beq_iff_eq

theorem not_accepts_bad (s : List Byte) : ¬ Utf8State.bad.Accepts s := by
  induction s with
  | nil => nofun
  | cons b s ih => exact ih

/-- A run from within a character goes on with a byte of the range. -/
theorem accepts_cont {lo hi : Byte} {n : Nat} {s : List Byte} (h : (Utf8State.cont lo hi n).Accepts s) :
    ∃ b t, s = b :: t ∧ (lo ≤ b ∧ b ≤ hi) ∧ (Utf8State.afterCont n).Accepts t := by
  cases s with
  | nil => cases h
  | cons b t =>
    have hnext : ((Utf8State.cont lo hi n).next b).Accepts t := h
    by_cases hb : lo ≤ b ∧ b ≤ hi
    · exact ⟨b, t, rfl, hb, next_cont hb ▸ hnext⟩
    · exact absurd (next_cont_bad hb ▸ hnext) (not_accepts_bad t)

theorem accepts_cons_of_first {x : Utf8State} {b : Byte} {s : List Byte} (hb : Utf8State.first b = x)
    (h : x.Accepts s) : Utf8State.start.Accepts (b :: s) := by
  subst hb
  exact h

theorem accepts_cont_cons {lo hi b : Byte} {n : Nat} {s : List Byte} (hb : lo ≤ b ∧ b ≤ hi)
    (h : (Utf8State.afterCont n).Accepts s) : (Utf8State.cont lo hi n).Accepts (b :: s) := by
  rw [← next_cont hb] at h
  exact h

/-- A character takes the check from the start to the start. -/
theorem Utf8Char.accepts_append {ch s : List Byte} (h : Utf8Char ch) (hs : Utf8State.start.Accepts s) :
    Utf8State.start.Accepts (ch ++ s) := by
  cases h with
  | one hb => exact accepts_cons_of_first (first_one _ hb) hs
  | two hb hc => exact accepts_cons_of_first (first_two _ hb) (accepts_cont_cons (isCont_iff.mpr hc) hs)
  | three hbc hd =>
    exact accepts_cons_of_first (first_three _ hbc.1) (accepts_cont_cons ((leadOfThree_iff hbc.1).mpr hbc)
      (accepts_cont_cons (isCont_iff.mpr hd) hs))
  | four hbc hd he =>
    exact accepts_cons_of_first (first_four _ hbc.1) (accepts_cont_cons ((leadOfFour_iff hbc.1).mpr hbc)
      (accepts_cont_cons (isCont_iff.mpr hd) (accepts_cont_cons (isCont_iff.mpr he) hs)))

/-- An accepted sequence that is not empty begins with a character. -/
theorem exists_utf8Char_of_accepts {b : Byte} {s : List Byte} (h : Utf8State.start.Accepts (b :: s)) :
    ∃ ch t, Utf8Char ch ∧ ch ≠ [] ∧ b :: s = ch ++ t ∧ Utf8State.start.Accepts t := by
  have hfirst : (Utf8State.first b).Accepts s := h
  by_cases h1 : b.toNat ≤ 0x7F
  · rw [first_one b h1] at hfirst
    exact ⟨[b], s, .one h1, nofun, rfl, hfirst⟩
  by_cases h2 : 0xC2 ≤ b.toNat ∧ b.toNat ≤ 0xDF
  · rw [first_two b h2] at hfirst
    obtain ⟨c, t, rfl, hc, ht⟩ := accepts_cont hfirst
    exact ⟨[b, c], t, .two h2 (isCont_iff.mp hc), nofun, rfl, ht⟩
  by_cases h3 : 0xE0 ≤ b.toNat ∧ b.toNat ≤ 0xEF
  · rw [first_three b h3] at hfirst
    obtain ⟨c, t, rfl, hc, ht⟩ := accepts_cont hfirst
    obtain ⟨d, u, rfl, hd, hu⟩ := accepts_cont ht
    exact ⟨[b, c, d], u, .three ((leadOfThree_iff h3).mp hc) (isCont_iff.mp hd), nofun, rfl, hu⟩
  by_cases h4 : 0xF0 ≤ b.toNat ∧ b.toNat ≤ 0xF4
  · rw [first_four b h4] at hfirst
    obtain ⟨c, t, rfl, hc, ht⟩ := accepts_cont hfirst
    obtain ⟨d, u, rfl, hd, hu⟩ := accepts_cont ht
    obtain ⟨e, v, rfl, he, hv⟩ := accepts_cont hu
    exact ⟨[b, c, d, e], v, .four ((leadOfFour_iff h4).mp hc) (isCont_iff.mp hd) (isCont_iff.mp he), nofun, rfl, hv⟩
  · rw [first_none b (by omega)] at hfirst
    exact absurd hfirst (not_accepts_bad s)

/-- An accepted sequence is a concatenation of characters, taken off its front one by one. -/
theorem exists_scalars_of_accepts (s : List Byte) (h : Utf8State.start.Accepts s) :
    ∃ cs : List Nat, (∀ c ∈ cs, Safety.isScalar c) ∧ s = cs.flatMap Safety.utf8OfScalar := by
  match s, h with
  | [], _ => exact ⟨[], nofun, rfl⟩
  | b :: s, h =>
    obtain ⟨ch, t, hch, hne, hsplit, ht⟩ := exists_utf8Char_of_accepts h
    have hpos := List.length_pos_iff.mpr hne
    have hlen : (b :: s).length = ch.length + t.length := by rw [hsplit, List.length_append]
    obtain ⟨n, hn, rfl⟩ := hch.exists_scalar
    obtain ⟨cs, hcs, rfl⟩ := exists_scalars_of_accepts t ht
    exact ⟨n :: cs, List.forall_mem_cons.mpr ⟨hn, hcs⟩, hsplit⟩
  termination_by s.length
  decreasing_by omega

theorem accepts_flatMap_utf8OfScalar {cs : List Nat} (h : ∀ c ∈ cs, Safety.isScalar c) :
    Utf8State.start.Accepts (cs.flatMap Safety.utf8OfScalar) := by
  induction cs with
  | nil => rfl
  | cons c cs ih =>
    obtain ⟨hc, hcs⟩ := List.forall_mem_cons.mp h
    exact (utf8Char_utf8OfScalar hc).accepts_append (ih hcs)

/-- Settles O38: the check takes the byte sequence of one character after the other, and these are the encodings of
the scalar values. -/
theorem utf8MatchesScalarEncodings : Obligations.Utf8MatchesScalarEncodings := fun s =>
  wellFormedUtf8_iff.trans ⟨exists_scalars_of_accepts s, fun ⟨_, hcs, hs⟩ => hs ▸ accepts_flatMap_utf8OfScalar hcs⟩

end Sys2Proof.Machine
